-- ==== Sys2Proof/Word.lean ====
section
/-! DEFINITION. The word types of the block: bytes, 64-bit command words, 32-bit immediates, 48-bit interval bounds. -/

namespace Sys2Proof

/-- A byte of one of the three buffers (20_memory.md R40). -/
abbrev Byte := BitVec 8

/-- A command word, and the width of a result register (30_encoding.md R60, 10_state.md R10). -/
abbrev Word := BitVec 64

/-- The immediate field of a command word (30_encoding.md R60, R62). -/
abbrev Imm := BitVec 32

/-- A value of N = 48 bits: `low`, `high`, `code` (00_scope.md R5). -/
abbrev Bound := BitVec 48

end Sys2Proof
end

