-- ==== Sys2Proof/Config.lean ====
section
/-! DEFINITION. The implementation parameters of 00_scope.md R5, at the values this hardware takes. -/

namespace Sys2Proof.Config

/-- `N`, the width in bits of `low`, `high` and `code` (00_scope.md R5). -/
def precision : Nat := 48

/-- `NSYM`, the size of the alphabet (00_scope.md R5). -/
def nsym : Nat := 257

/-- `EOS`, the end-of-stream symbol (00_scope.md R5). -/
def eos : Nat := 256

/-- `CHANNELS`, the number of channels of a pixel (00_scope.md R5). -/
def channels : Nat := 3

/-- `MAX_TOTAL`, the rescale threshold (00_scope.md R5, R6; log entry 8). -/
def maxTotal : Nat := 65535

/-- `HALF` = 2^(N-1) (00_scope.md R5). -/
def half : Bound := 0x800000000000#48

/-- `QUARTER` = 2^(N-2) (00_scope.md R5). -/
def quarter : Bound := 0x400000000000#48

/-- `MASK` = 2^N - 1 (00_scope.md R5). -/
def mask : Bound := 0xFFFFFFFFFFFF#48

end Sys2Proof.Config
end

