-- ==== Sys2Proof/Syntax.lean ====
section
/-! DEFINITION. The 31 commands of 30_encoding.md R63, the 26 control registers of 10_state.md R20, and the names
under which a word is rejected (30_encoding.md R61). -/

namespace Sys2Proof

/-- The control and status registers, in the order of the table of 10_state.md R20. -/
inductive Csr where
  | width | height | pred
  | channels | precision | maxTotal | nsym | eosSym
  | status | cause | info
  | smTotal
  | aeLow | aeHigh | aePending
  | adLow | adHigh | adCode
  | bwAcc | bwNbits | bsLen
  | brPos | brPast
  | prPos | resLen | resRcur
deriving DecidableEq, Repr

/-- The commands, one constructor per row of opcode_table.json. An immediate is carried as the 32-bit field it is;
its legal range is checked by `Instr.defect`. -/
inductive Instr where
  | nop
  | reset
  | csrRd (r : Csr)
  | csrWr (r : Csr) (v : Imm)
  | smInit
  | smRange (sym : Imm)
  | smFind (v : Imm)
  | smUpdate (sym : Imm)
  | aeInit
  | aeEncode (sym : Imm)
  | aeFinish
  | adInit
  | adDecode
  | adFinished
  | bwInit
  | bwPut (b : Imm)
  | bwFinish
  | brInit
  | brGet
  | prInit
  | prPredict
  | prEnc
  | prDec
  | prFwd
  | prInv
  | resClr
  | resPush (b : Imm)
  | encBytes
  | decBytes (limit : Imm)
  | encGrid
  | decGrid
deriving DecidableEq, Repr

/-- Why a word is no legal command: the cases of steps (2) to (5) of 30_encoding.md R61. The first six are
ILLEGAL_COMMAND, the last is ILLEGAL_OPERAND. -/
inductive Reject where
  /-- `op` is none of the 31 of R63. -/
  | reservedOp
  /-- `rsv` is not 0. -/
  | nonzeroRsv
  /-- `idx` names no control register. -/
  | unknownCsr
  /-- `CSR.WR` of a register that is read-only. -/
  | readOnlyCsr
  /-- `idx` is not 0 in a command that takes none. -/
  | unusedIdx
  /-- `imm` is not 0 in a command that takes none. -/
  | unusedImm
  /-- the immediate is above the range of R62. -/
  | operandAboveRange
deriving DecidableEq, Repr

end Sys2Proof
end

