-- ==== Sys2Proof/Machine/Operands.lean ====
section
/-! DEFINITION. The operand forms: control register numbers (10_state.md R20) and the legal range of each immediate
(30_encoding.md R62). -/

namespace Sys2Proof

/-- The number of a control register (10_state.md R20). -/
def Csr.number : Csr → BitVec 8
  | .width => 0x00#8
  | .height => 0x01#8
  | .pred => 0x02#8
  | .channels => 0x03#8
  | .precision => 0x04#8
  | .maxTotal => 0x05#8
  | .nsym => 0x06#8
  | .eosSym => 0x07#8
  | .status => 0x08#8
  | .cause => 0x09#8
  | .info => 0x0A#8
  | .smTotal => 0x10#8
  | .aeLow => 0x20#8
  | .aeHigh => 0x21#8
  | .aePending => 0x22#8
  | .adLow => 0x28#8
  | .adHigh => 0x29#8
  | .adCode => 0x2A#8
  | .bwAcc => 0x30#8
  | .bwNbits => 0x31#8
  | .bsLen => 0x32#8
  | .brPos => 0x38#8
  | .brPast => 0x39#8
  | .prPos => 0x40#8
  | .resLen => 0x41#8
  | .resRcur => 0x42#8

/-- The rows of the table of 10_state.md R20. -/
def Csr.all : List Csr :=
  [.width, .height, .pred, .channels, .precision, .maxTotal, .nsym, .eosSym, .status, .cause, .info, .smTotal,
   .aeLow, .aeHigh, .aePending, .adLow, .adHigh, .adCode, .bwAcc, .bwNbits, .bsLen, .brPos, .brPast,
   .prPos, .resLen, .resRcur]

/-- The register a number names, if any (10_state.md R20: "A number not in the table is not a register"). -/
def Csr.ofNumber (n : BitVec 8) : Option Csr := Csr.all.find? (fun r => r.number == n)

/-- The three registers marked RW (10_state.md R20). -/
def Csr.writable : Csr → Bool
  | .width | .height | .pred => true
  | .channels | .precision | .maxTotal | .nsym | .eosSym | .status | .cause | .info | .smTotal
  | .aeLow | .aeHigh | .aePending | .adLow | .adHigh | .adCode | .bwAcc | .bwNbits | .bsLen
  | .brPos | .brPast | .prPos | .resLen | .resRcur => false

/-- The largest value `CSR.WR` may give a register (30_encoding.md R62: 65535 for `PRED`, all 32 bits else). -/
def Csr.writeLimit : Csr → Nat
  | .pred => 65535
  | .width | .height | .channels | .precision | .maxTotal | .nsym | .eosSym | .status | .cause | .info | .smTotal
  | .aeLow | .aeHigh | .aePending | .adLow | .adHigh | .adCode | .bwAcc | .bwNbits | .bsLen
  | .brPos | .brPast | .prPos | .resLen | .resRcur => 2 ^ 32 - 1

/-- An immediate above `limit` is rejected (30_encoding.md R61 step 5, R62). -/
def aboveRange (v : Imm) (limit : Nat) : Option Reject :=
  if limit < v.toNat then some .operandAboveRange else none

/-- What is wrong with a command's operands, if anything: `CSR.WR` of a read-only register (30_encoding.md R61
step 3), an immediate above its range (step 5, ranges of R62). -/
def Instr.defect : Instr → Option Reject
  | .csrWr r v => if r.writable then aboveRange v r.writeLimit else some .readOnlyCsr
  | .smRange sym => aboveRange sym Config.eos
  | .smUpdate sym => aboveRange sym Config.eos
  | .aeEncode sym => aboveRange sym Config.eos
  | .bwPut b => aboveRange b 1
  | .resPush b => aboveRange b 255
  | .smFind v => aboveRange v (2 ^ 32 - 1)
  | .decBytes limit => aboveRange limit (2 ^ 32 - 1)
  | .nop | .reset | .csrRd _ | .smInit | .aeInit | .aeFinish | .adInit | .adDecode | .adFinished
  | .bwInit | .bwFinish | .brInit | .brGet | .prInit | .prPredict | .prEnc | .prDec | .prFwd | .prInv
  | .resClr | .encBytes | .encGrid | .decGrid => none

end Sys2Proof
end

