-- ==== Sys2Proof/WellFormed.lean ====
section
/-! DEFINITION. Which terms of `Instr` are legal commands (30_encoding.md R61, R62). -/

namespace Sys2Proof

/-- A command is well formed when its operands have no defect: `CSR.WR` names a writable register and every
immediate lies in the range of 30_encoding.md R62. -/
abbrev Instr.WellFormed (i : Instr) : Prop := i.defect = none

end Sys2Proof
end

