-- ==== Sys2Proof/Decode.lean ====
section
/-! DEFINITION. The decoder, total on every 64-bit word (30_encoding.md R60 to R64), and the encoder. -/

namespace Sys2Proof

/-- Bits 63:56 of a command word (30_encoding.md R60). -/
def opField (w : Word) : BitVec 8 := w.extractLsb' 56 8

/-- Bits 55:48 (30_encoding.md R60). -/
def idxField (w : Word) : BitVec 8 := w.extractLsb' 48 8

/-- Bits 47:32, reserved (30_encoding.md R60). -/
def rsvField (w : Word) : BitVec 16 := w.extractLsb' 32 16

/-- Bits 31:0 (30_encoding.md R60). -/
def immField (w : Word) : Imm := w.extractLsb' 0 32

/-- The word with the given fields and `rsv` = 0 (30_encoding.md R60). -/
def packWord (op idx : BitVec 8) (imm : Imm) : Word := op ++ idx ++ 0#16 ++ imm

/-- How a command uses `idx` and `imm` (30_encoding.md R60, R63). -/
inductive Form where
  | plain (i : Instr)
  | imm (f : Imm → Instr)
  | csrRd
  | csrWr

/-- The opcode map of 30_encoding.md R63. -/
def opTable : List (BitVec 8 × Form) :=
  [(0x00#8, .plain .nop),
   (0x01#8, .plain .reset),
   (0x02#8, .csrRd),
   (0x03#8, .csrWr),
   (0x10#8, .plain .smInit),
   (0x11#8, .imm .smRange),
   (0x12#8, .imm .smFind),
   (0x13#8, .imm .smUpdate),
   (0x20#8, .plain .aeInit),
   (0x21#8, .imm .aeEncode),
   (0x22#8, .plain .aeFinish),
   (0x30#8, .plain .adInit),
   (0x31#8, .plain .adDecode),
   (0x32#8, .plain .adFinished),
   (0x40#8, .plain .bwInit),
   (0x41#8, .imm .bwPut),
   (0x42#8, .plain .bwFinish),
   (0x48#8, .plain .brInit),
   (0x49#8, .plain .brGet),
   (0x50#8, .plain .prInit),
   (0x51#8, .plain .prPredict),
   (0x52#8, .plain .prEnc),
   (0x53#8, .plain .prDec),
   (0x54#8, .plain .prFwd),
   (0x55#8, .plain .prInv),
   (0x58#8, .plain .resClr),
   (0x59#8, .imm .resPush),
   (0x60#8, .plain .encBytes),
   (0x61#8, .imm .decBytes),
   (0x62#8, .plain .encGrid),
   (0x63#8, .plain .decGrid)]

/-- The row of an operation code; none for a reserved one (30_encoding.md R64). -/
def lookupOp (op : BitVec 8) : Option Form := (opTable.find? (fun row => row.1 == op)).map Prod.snd

/-- The command, unless its operands have a defect (30_encoding.md R61 steps 3 and 5). -/
def checked (i : Instr) : Except Reject Instr :=
  match i.defect with
  | none => .ok i
  | some r => .error r

/-- Steps (3) to (5) of 30_encoding.md R61, by the command's form. -/
def assemble (form : Form) (idx : BitVec 8) (imm : Imm) : Except Reject Instr :=
  match form with
  | .plain i =>
    if idx ≠ 0 then .error .unusedIdx
    else if imm ≠ 0 then .error .unusedImm
    else .ok i
  | .imm f =>
    if idx ≠ 0 then .error .unusedIdx
    else checked (f imm)
  | .csrRd =>
    match Csr.ofNumber idx with
    | none => .error .unknownCsr
    | some r => if imm ≠ 0 then .error .unusedImm else .ok (.csrRd r)
  | .csrWr =>
    match Csr.ofNumber idx with
    | none => .error .unknownCsr
    | some r => checked (.csrWr r imm)

/-- The command a word selects, or the name under which the word is rejected (30_encoding.md R61 steps 2 to 5).
Step 1, the fault state, is the machine's. -/
def decode (w : Word) : Except Reject Instr :=
  match lookupOp (opField w) with
  | none => .error .reservedOp
  | some form =>
    if rsvField w ≠ 0 then .error .nonzeroRsv
    else assemble form (idxField w) (immField w)

/-- The operation code of a command (30_encoding.md R63). -/
def Instr.opcode : Instr → BitVec 8
  | .nop => 0x00#8
  | .reset => 0x01#8
  | .csrRd _ => 0x02#8
  | .csrWr _ _ => 0x03#8
  | .smInit => 0x10#8
  | .smRange _ => 0x11#8
  | .smFind _ => 0x12#8
  | .smUpdate _ => 0x13#8
  | .aeInit => 0x20#8
  | .aeEncode _ => 0x21#8
  | .aeFinish => 0x22#8
  | .adInit => 0x30#8
  | .adDecode => 0x31#8
  | .adFinished => 0x32#8
  | .bwInit => 0x40#8
  | .bwPut _ => 0x41#8
  | .bwFinish => 0x42#8
  | .brInit => 0x48#8
  | .brGet => 0x49#8
  | .prInit => 0x50#8
  | .prPredict => 0x51#8
  | .prEnc => 0x52#8
  | .prDec => 0x53#8
  | .prFwd => 0x54#8
  | .prInv => 0x55#8
  | .resClr => 0x58#8
  | .resPush _ => 0x59#8
  | .encBytes => 0x60#8
  | .decBytes _ => 0x61#8
  | .encGrid => 0x62#8
  | .decGrid => 0x63#8

/-- The `idx` field of a command: a register number in `CSR.RD` and `CSR.WR`, 0 else (30_encoding.md R60). -/
def Instr.idxOperand : Instr → BitVec 8
  | .csrRd r => r.number
  | .csrWr r _ => r.number
  | .nop | .reset | .smInit | .smRange _ | .smFind _ | .smUpdate _ | .aeInit | .aeEncode _ | .aeFinish
  | .adInit | .adDecode | .adFinished | .bwInit | .bwPut _ | .bwFinish | .brInit | .brGet
  | .prInit | .prPredict | .prEnc | .prDec | .prFwd | .prInv | .resClr | .resPush _
  | .encBytes | .decBytes _ | .encGrid | .decGrid => 0#8

/-- The `imm` field of a command, 0 in one that takes no immediate (30_encoding.md R60). -/
def Instr.immOperand : Instr → Imm
  | .csrWr _ v => v
  | .smRange sym => sym
  | .smFind v => v
  | .smUpdate sym => sym
  | .aeEncode sym => sym
  | .bwPut b => b
  | .resPush b => b
  | .decBytes limit => limit
  | .nop | .reset | .csrRd _ | .smInit | .aeInit | .aeFinish | .adInit | .adDecode | .adFinished
  | .bwInit | .bwFinish | .brInit | .brGet | .prInit | .prPredict | .prEnc | .prDec | .prFwd | .prInv
  | .resClr | .encBytes | .encGrid | .decGrid => 0#32

/-- The command word of a command (30_encoding.md R60, R63). -/
def encode (i : Instr) : Word := packWord i.opcode i.idxOperand i.immOperand

/-- The command the decoder reads from the low `nbits` bits of `w` (a command is one 64-bit word, so its bits are
numbered as opcode_table.json numbers them); none where the decoder rejects. -/
def decodeTableWord (nbits w : Nat) : Option Instr :=
  match decode (BitVec.ofNat 64 (w % 2 ^ nbits)) with
  | .ok i => some i
  | .error _ => none

end Sys2Proof
end

