-- ==== Sys2Proof/Machine/State.lean ====
section
/-! DEFINITION. The state of the block (10_state.md), its reset value (70_reset_and_hazards.md R280), the reasons a step
can stop, and one setter per field. -/

namespace Sys2Proof.Machine

/-- The result registers `x[0]`, `x[1]`, `x[2]` (10_state.md R10). -/
structure ResultRegs where
  x0 : Word
  x1 : Word
  x2 : Word
deriving DecidableEq, Repr

/-- The configuration registers `WIDTH`, `HEIGHT`, `PRED` (10_state.md R21). -/
structure ConfRegs where
  width : BitVec 32
  height : BitVec 32
  pred : BitVec 16
deriving DecidableEq, Repr

/-- The fault record: `STATUS.FAULT`, `CAUSE`, `INFO` (10_state.md R23). -/
structure FaultRecord where
  fault : Bool
  cause : BitVec 8
  info : Word
deriving DecidableEq, Repr

/-- The interval [`low`, `high`] of a coder (10_state.md R27, R28). -/
structure Interval where
  low : Bound
  high : Bound
deriving DecidableEq, Repr

/-- The encoder AE (10_state.md R27). -/
structure Encoder extends Interval where
  pending : Nat
  done : Bool
deriving DecidableEq, Repr

/-- The decoder AD (10_state.md R28). -/
structure Decoder extends Interval where
  code : Bound
  primed : Bool
  finished : Bool
deriving DecidableEq, Repr

/-- The bit writer BW (10_state.md R29): the byte being assembled and how many bits it holds, 0 to 7. -/
structure BitWriter where
  acc : Byte
  nbits : Fin 8
deriving DecidableEq, Repr

/-- The bit reader BR (10_state.md R30). -/
structure BitReader where
  pos : Nat
  past : Nat
deriving DecidableEq, Repr

/-- The residual buffer RES and its read cursor (10_state.md R32, 20_memory.md R42). -/
structure Residuals where
  bytes : List Byte
  rcur : Nat
deriving DecidableEq, Repr

/-- The contents of PIX: (address, byte) pairs in the canonical form `Memory.wf`. -/
abbrev Memory := List Host.Cell

/-- The capacities `PIX_CAP`, `RES_CAP`, `BS_CAP` in bytes; none is unbounded (00_scope.md R5, 20_memory.md R49).
They are parameters of a machine: no command changes them (log entry 3). -/
structure Capacities where
  pixCap : Option Nat
  resCap : Option Nat
  bsCap : Option Nat
deriving DecidableEq, Repr

/-- One move of the host, made between two commands (20_memory.md R51; log entries 1 and 4). -/
inductive HostAction where
  /-- give the block a command word (30_encoding.md R60) -/
  | command (w : Word)
  /-- write bytes to PIX from address `a` on -/
  | storePix (a : Nat) (bytes : List Byte)
  /-- set the content and length of RES -/
  | loadRes (bytes : List Byte)
  /-- set the content and length of BS -/
  | loadBs (bytes : List Byte)
  /-- power-on reset with the given contents of PIX (70_reset_and_hazards.md R280) -/
  | powerOn (pix : List Host.Cell)
deriving DecidableEq, Repr

/-- The state of the block. `caps` holds the machine's parameters and `host` the host's moves still to come; every
other field is a piece of state of 10_state.md. -/
structure State where
  x : ResultRegs
  conf : ConfRegs
  flt : FaultRecord
  freq : List Nat
  ae : Encoder
  ad : Decoder
  bw : BitWriter
  br : BitReader
  prPos : Nat
  res : Residuals
  pix : Memory
  bs : List Byte
  caps : Capacities
  host : List HostAction
deriving DecidableEq, Repr

/-- The causes the block raises (60_exceptions.md R241). Codes 5, 6 and 9 of R241 are the host's own and the block has no
way to raise them. Each is taken by `raise` into a next state: none stops the model. -/
inductive Cause where
  /-- the word is no command; raised by the decoder -/
  | illegalCommand
  /-- an immediate above its range, or `SM.FIND v` with v ≥ total -/
  | illegalOperand
  /-- a command given where the source forbids or does not define it -/
  | sequenceError
  /-- a predictor operation with `PRED` not 0 or 1 -/
  | formatUnknownPredictor
  /-- the model's total is above MAX_TOTAL when the coder uses it -/
  | modelInvariantViolation
  /-- a residual sequence or a decoded stream of the wrong length -/
  | lengthMismatch
  /-- an access at or beyond a buffer's capacity -/
  | capacity
deriving DecidableEq, Repr

/-- Faults that stop the model: there are none. A fault of the block is a next state (60_exceptions.md R244), so nothing
raises a constructor here and none is needed (log entry 9). -/
inductive Fault
deriving DecidableEq, Repr

/-- Refusals. -/
inductive Refusal where
  /-- `exec` on an instruction that has no meaning yet; safe. No arm uses it. -/
  | notModelled (mnemonic : String)
  /-- a host move that stores beyond a buffer's capacity, raised by `hostMove`; safe: the move is not part of the
  block, and a finite buffer has no such byte (20_memory.md R49, R51; log entry 4). No command answers with it. -/
  | hostBeyondCapacity
deriving DecidableEq, Repr

/-- Power-on reset (70_reset_and_hazards.md R280, 10_state.md): every reset value is the spec's, but for the contents of
PIX, which the spec leaves unspecified (log entry 2). -/
def State.reset : State where
  x := ⟨0, 0, 0⟩
  conf := ⟨0, 0, 0⟩
  flt := ⟨false, 0, 0⟩
  freq := List.replicate Config.nsym 1
  ae := { low := 0, high := Config.mask, pending := 0, done := false }
  ad := { low := 0, high := Config.mask, code := 0, primed := false, finished := false }
  bw := ⟨0, 0⟩
  br := ⟨0, 0⟩
  prPos := 0
  res := ⟨[], 0⟩
  pix := []
  bs := []
  caps := ⟨none, none, none⟩
  host := []

/-! ## One setter per field a step can change -/

def State.setX (s : State) (v : ResultRegs) : State := { s with x := v }
def State.setX0 (s : State) (v : Word) : State := { s with x := { s.x with x0 := v } }
def State.setConf (s : State) (v : ConfRegs) : State := { s with conf := v }
def State.setFlt (s : State) (v : FaultRecord) : State := { s with flt := v }
def State.setFreq (s : State) (v : List Nat) : State := { s with freq := v }
def State.setAe (s : State) (v : Encoder) : State := { s with ae := v }
def State.setAd (s : State) (v : Decoder) : State := { s with ad := v }
def State.setBw (s : State) (v : BitWriter) : State := { s with bw := v }
def State.setBr (s : State) (v : BitReader) : State := { s with br := v }
def State.setPrPos (s : State) (v : Nat) : State := { s with prPos := v }
def State.setRes (s : State) (v : Residuals) : State := { s with res := v }
def State.setPix (s : State) (v : Memory) : State := { s with pix := v }
def State.setBs (s : State) (v : List Byte) : State := { s with bs := v }
def State.setHost (s : State) (v : List HostAction) : State := { s with host := v }

end Sys2Proof.Machine
end

