-- ==== Sys2Proof/Machine/Flags.lean ====
section
/-! DEFINITION. The four flags of 10_state.md R16 and the registers made of state (10_state.md R20, R22, R23). -/

namespace Sys2Proof.Machine

/-- `STATUS`: bit 0 `FAULT`, bit 1 `AE.done`, bit 2 `AD.primed`, bit 3 `AD.finished` (10_state.md R23). -/
def statusWord (s : State) : BitVec 4 :=
  BitVec.ofBool s.ad.finished ++ BitVec.ofBool s.ad.primed ++ BitVec.ofBool s.ae.done ++ BitVec.ofBool s.flt.fault

/-- The code of a cause (60_exceptions.md R241). -/
def Cause.code : Cause → BitVec 8
  | .illegalCommand => 1#8
  | .illegalOperand => 2#8
  | .sequenceError => 3#8
  | .formatUnknownPredictor => 4#8
  | .modelInvariantViolation => 7#8
  | .lengthMismatch => 8#8
  | .capacity => 10#8

/-- The cause under which a rejected word faults (30_encoding.md R61, R64). -/
def rejectCause : Reject → Cause
  | .reservedOp | .nonzeroRsv | .unknownCsr | .readOnlyCsr | .unusedIdx | .unusedImm => .illegalCommand
  | .operandAboveRange => .illegalOperand

/-- Set `AE.done` (41_arith_encoder.md R119); `ae_init` clears it. -/
def markDone (e : Encoder) : Encoder := { e with done := true }

/-- Set `AD.finished` when the symbol returned is 256 (42_arith_decoder.md R136). -/
def markFinished (sym : Nat) (d : Decoder) : Decoder :=
  if sym = Config.eos then { d with finished := true } else d

end Sys2Proof.Machine
end

