-- ==== Sys2Proof/Machine/Ops.lean ====
section
/-! DEFINITION. The operations every family shares: the memory PIX, capacities, taking a fault and leaving the fault
state, running a command, and the host's moves. -/

namespace Sys2Proof.Machine

/-! ## PIX (20_memory.md R40, R41) -/

/-- What a byte of PIX that the memory does not list reads as (log entry 2). -/
def Memory.unlisted : Byte := 0#8

/-- The canonical form: addresses strictly rising, no entry equal to what an unlisted address reads as. -/
abbrev Memory.wf (m : Memory) : Prop :=
  m.Pairwise (fun c d => c.1 < d.1) ∧ ∀ c ∈ m, c.2 ≠ Memory.unlisted

/-- `MemRead(PIX, a, 1)` (20_memory.md R40). Reading never faults (10_state.md R32). -/
def Memory.read : Memory → Nat → Byte
  | [], _ => Memory.unlisted
  | (k, v) :: rest, a => if k = a then v else Memory.read rest a

/-- An entry in canonical form: none for the byte an unlisted address reads as. -/
def Memory.entry (a : Nat) (v : Byte) : Memory := if v = Memory.unlisted then [] else [(a, v)]

/-- `MemWrite(PIX, a, 1, v)` (20_memory.md R40), keeping the canonical form. -/
def Memory.write : Memory → Nat → Byte → Memory
  | [], a, v => Memory.entry a v
  | (k, b) :: rest, a, v =>
    if a < k then Memory.entry a v ++ (k, b) :: rest
    else if a = k then Memory.entry a v ++ rest
    else (k, b) :: Memory.write rest a v

/-- Bytes written at rising addresses from `a`. -/
def Memory.writeBytes (m : Memory) (a : Nat) : List Byte → Memory
  | [] => m
  | v :: rest => Memory.writeBytes (m.write a v) (a + 1) rest

/-- The canonical memory holding the given cells, a later cell winning over an earlier one of the same address. -/
def Memory.ofCells (cells : List Host.Cell) : Memory := cells.foldl (fun m c => m.write c.1 c.2) []

/-! ## Capacities (20_memory.md R49) -/

/-- Whether the addresses below `n` exist in a buffer of capacity `cap` (20_memory.md R49). -/
def fits (cap : Option Nat) (n : Nat) : Bool :=
  match cap with
  | none => true
  | some c => decide (n ≤ c)

/-! ## Faults (60_exceptions.md R244, R245, R247) -/

/-- A procedure that raised: the cause, and the state it had reached. -/
structure Raised where
  cause : Cause
  state : State
deriving DecidableEq, Repr

/-- The result of a procedure that may raise. -/
abbrev Proc (α : Type) := Except Raised α

/-- Raise `c` in the state `s` unless the test holds. -/
def need (test : Bool) (c : Cause) (s : State) : Proc Unit :=
  if test then .ok () else .error ⟨c, s⟩

/-- `raise` (60_exceptions.md R244): the first fault since reset is recorded with the command word being executed; a
later one changes nothing. -/
def raise (c : Cause) (w : Word) (s : State) : State :=
  if s.flt.fault then s else s.setFlt ⟨true, c.code, w⟩

/-- The way out of the fault state, and the effect of `RESET` (60_exceptions.md R247, 46_system_ops.md R221): every
element of state takes its reset value except the contents of PIX. The parameters and the host's list are not state
of the block. -/
def leaveFault (s : State) : State :=
  { State.reset with pix := s.pix, caps := s.caps, host := s.host }

/-- The next state a procedure gives a command (60_exceptions.md R244): what it had changed before a raise stays
changed. -/
def conclude (w : Word) : Proc State → Host.Outcome State Fault Refusal
  | .ok s => .next s
  | .error r => .next (raise r.cause w r.state)

/-- A command that runs in the fault state too: `NOP`, `RESET`, `CSR.RD` (60_exceptions.md R245). Its word is `encode i`
(log entry 10). -/
def commandAlways (i : Instr) (p : State → Proc State) (s : State) : Host.Outcome State Fault Refusal :=
  conclude (encode i) (p s)

/-- Every other command: dropped in the fault state (60_exceptions.md R245); with a defect in its operands it raises
the cause the decoder gives that defect (30_encoding.md R61, R62; log entry 6); else its procedure runs. -/
def command (i : Instr) (p : State → Proc State) (s : State) : Host.Outcome State Fault Refusal :=
  if s.flt.fault then .next s
  else
    match i.defect with
    | some r => .next (raise (rejectCause r) (encode i) s)
    | none => conclude (encode i) (p s)

/-- A word the decoder rejects (30_encoding.md R61 steps 2 to 5): it raises, and in the fault state that changes
nothing (60_exceptions.md R244, R245). -/
def rejectWord (r : Reject) (w : Word) (s : State) : Host.Outcome State Fault Refusal :=
  .next (raise (rejectCause r) w s)

/-! ## The host and the idle block (20_memory.md R51, 60_exceptions.md R257) -/

/-- Between commands the block is idle and keeps all its state (60_exceptions.md R257; log entry 1). -/
def idle (s : State) : Host.Outcome State Fault Refusal := .next s

/-- A host move is made when the bytes it stores exist, and is refused else (log entry 4). -/
def hostMove (exists' : Bool) (s : State) : Host.Outcome State Fault Refusal :=
  if exists' then .next s else .refused .hostBeyondCapacity

/-- The host writes bytes to PIX (20_memory.md R51). -/
def hostStorePix (a : Nat) (bytes : List Byte) (s : State) : Host.Outcome State Fault Refusal :=
  hostMove (bytes.isEmpty || fits s.caps.pixCap (a + bytes.length)) (s.setPix (s.pix.writeBytes a bytes))

/-- The host sets the content and length of RES; the read cursor stays (20_memory.md R51). -/
def hostLoadRes (bytes : List Byte) (s : State) : Host.Outcome State Fault Refusal :=
  hostMove (fits s.caps.resCap bytes.length) (s.setRes { s.res with bytes := bytes })

/-- The host sets the content and length of BS (20_memory.md R51). -/
def hostLoadBs (bytes : List Byte) (s : State) : Host.Outcome State Fault Refusal :=
  hostMove (fits s.caps.bsCap bytes.length) (s.setBs bytes)

/-- Power-on reset with any contents of PIX (70_reset_and_hazards.md R280). -/
def hostPowerOn (cells : List Host.Cell) (s : State) : Host.Outcome State Fault Refusal :=
  hostMove (cells.all (fun c => fits s.caps.pixCap (c.1 + 1))) ((leaveFault s).setPix (Memory.ofCells cells))

end Sys2Proof.Machine
end

