-- ==== Sys2Proof/Machine/BitStream.lean ====
section
/-! DEFINITION. The bit writer BW and the bit reader BR (43_bitstream.md): their procedures, then `BW.INIT`, `BW.PUT`,
`BW.FINISH`, `BR.INIT`, `BR.GET`. -/

namespace Sys2Proof.Machine

/-! ## Writer procedures (R151 to R153) -/

/-- BW together with the buffer it appends to. -/
structure Writer where
  acc : Byte
  nbits : Fin 8
  bs : List Byte
deriving DecidableEq, Repr

/-- The writer of a state. -/
def State.writer (s : State) : Writer := ⟨s.bw.acc, s.bw.nbits, s.bs⟩

/-- Put a writer back: only BW and BS change. -/
def State.setWriter (s : State) (w : Writer) : State := (s.setBw ⟨w.acc, w.nbits⟩).setBs w.bs

/-- `bw_init()` (43_bitstream.md R151). -/
def Writer.empty : Writer := ⟨0, 0, []⟩

/-- `bw_put(b)` (43_bitstream.md R152). -/
def Writer.put (b : Bool) (w : Writer) : Writer :=
  let acc := (w.acc <<< 1) ||| (BitVec.ofBool b).setWidth 8
  if h : w.nbits.val + 1 < 8 then ⟨acc, ⟨w.nbits.val + 1, h⟩, w.bs⟩
  else ⟨0, 0, w.bs ++ [acc]⟩

/-- `repeat n times: bw_put(b)` (41_arith_encoder.md R115, R119). -/
def Writer.putMany : Nat → Bool → Writer → Writer
  | 0, _, w => w
  | n + 1, b, w => Writer.putMany n b (w.put b)

/-- `while BW.nbits ≠ 0: bw_put(0)`, with a bound on the turns. -/
def Writer.padWithin : Nat → Writer → Writer
  | 0, w => w
  | n + 1, w => if w.nbits = 0 then w else Writer.padWithin n (w.put false)

/-- `bw_finish()` (43_bitstream.md R153): at most seven turns, since `nbits` is at most 7 and at least 1 when one is
taken. -/
def Writer.finish (w : Writer) : Writer := Writer.padWithin 8 w

/-- Put back what a micro-operation wrote, unless it had to append beyond the capacity of BS: then it raises CAPACITY
in the state it was given (20_memory.md R49, 60_exceptions.md R244). -/
def commitWriter (w : Writer) (s : State) : Proc State := do
  need (decide (w.bs.length = s.bs.length) || fits s.caps.bsCap w.bs.length) .capacity s
  .ok (s.setWriter w)

/-! ## Reader procedures (R155, R156) -/

/-- `br_init()` (43_bitstream.md R155). -/
def BitReader.start : BitReader := ⟨0, 0⟩

/-- `br_get()` (43_bitstream.md R156): the bit, and the reader after it. -/
def brGet (bs : List Byte) (r : BitReader) : Bool × BitReader :=
  match bs[r.pos / 8]? with
  | some b => (b.getLsbD (7 - r.pos % 8), ⟨r.pos + 1, r.past⟩)
  | none => (false, ⟨r.pos + 1, r.past + 1⟩)

/-! ## Commands (R158 to R162) -/

/-- `BW.INIT` (43_bitstream.md R158). -/
def execBwInit (s : State) : Host.Outcome State Fault Refusal :=
  command .bwInit (fun s => .ok (s.setWriter Writer.empty)) s

/-- `BW.PUT b` (43_bitstream.md R159). -/
def execBwPut (b : Imm) (s : State) : Host.Outcome State Fault Refusal :=
  command (.bwPut b) (fun s => commitWriter (s.writer.put (b.getLsbD 0)) s) s

/-- `BW.FINISH` (43_bitstream.md R160). -/
def execBwFinish (s : State) : Host.Outcome State Fault Refusal :=
  command .bwFinish (fun s => commitWriter s.writer.finish s) s

/-- `BR.INIT` (43_bitstream.md R161). -/
def execBrInit (s : State) : Host.Outcome State Fault Refusal :=
  command .brInit (fun s => .ok (s.setBr BitReader.start)) s

/-- `BR.GET` (43_bitstream.md R162). -/
def execBrGet (s : State) : Host.Outcome State Fault Refusal :=
  command .brGet (fun s =>
    let r := brGet s.bs s.br
    .ok ((s.setBr r.2).setX0 ((BitVec.ofBool r.1).setWidth 64))) s

end Sys2Proof.Machine
end

