-- ==== Sys2Proof/Machine/SymbolModel.lean ====
section
/-! DEFINITION. The adaptive symbol model SM (40_symbol_model.md): its procedures, then `SM.INIT`, `SM.RANGE`, `SM.FIND`,
`SM.UPDATE`. -/

namespace Sys2Proof.Machine

/-! ## Procedures (R91 to R96) -/

/-- `cum(k)`: the sum of the counts of the symbols below `k` (40_symbol_model.md R91). -/
def cum (freq : List Nat) (k : Nat) : Nat := (freq.take k).sum

/-- `total` = cum(257) (40_symbol_model.md R91). -/
def total (freq : List Nat) : Nat := cum freq Config.nsym

/-- The counts of a fresh model (40_symbol_model.md R92). -/
def freshCounts : List Nat := List.replicate Config.nsym 1

/-- A symbol's slice of the distribution (40_symbol_model.md R93). -/
structure Slice where
  low : Nat
  high : Nat
  total : Nat
deriving DecidableEq, Repr

/-- (cum(s), cum(s+1), cum(257)) (40_symbol_model.md R93). -/
def sliceOf (freq : List Nat) (sym : Nat) : Slice := ⟨cum freq sym, cum freq (sym + 1), total freq⟩

/-- The scan of `sm_find`: from symbol `sym` on, with `below` = cum(sym), the first whose cumulative sum exceeds `v`
(40_symbol_model.md R94: "A linear scan from s = 0"). -/
def findFrom : List Nat → Nat → Nat → Nat → Nat
  | [], _, sym, _ => sym
  | c :: rest, below, sym, v => if v < below + c then sym else findFrom rest (below + c) (sym + 1) v

/-- `sm_find(v)`, for v below the total (40_symbol_model.md R94). -/
def findSymbol (freq : List Nat) (v : Nat) : Nat := findFrom freq 0 0 v

/-- One count halved, floor, minimum 1 (40_symbol_model.md R96). -/
def halveCount (c : Nat) : Nat := max 1 (c / 2)

/-- `sm_update` on the counts, for a threshold: increment first, then halve all counts once if the total exceeds it
(40_symbol_model.md R96, 90_conflicts.md C1). -/
def updateCounts (threshold : Nat) (freq : List Nat) (sym : Nat) : List Nat :=
  let raised := freq.modify sym (· + 1)
  if threshold < total raised then raised.map halveCount else raised

/-- `sm_init()` (40_symbol_model.md R92). -/
def smInit (s : State) : State := s.setFreq freshCounts

/-- `sm_range(sym)`, with its check of the total (40_symbol_model.md R93). -/
def smRange (sym : Nat) (s : State) : Proc Slice := do
  need (decide (total s.freq ≤ Config.maxTotal)) .modelInvariantViolation s
  .ok (sliceOf s.freq sym)

/-- `sm_update(sym)` (40_symbol_model.md R96). -/
def smUpdate (sym : Nat) (s : State) : State := s.setFreq (updateCounts Config.maxTotal s.freq sym)

/-! ## Commands (R97 to R100) -/

/-- `SM.INIT` (40_symbol_model.md R97). -/
def execSmInit (s : State) : Host.Outcome State Fault Refusal :=
  command .smInit (fun s => .ok (smInit s)) s

/-- `SM.RANGE s` (40_symbol_model.md R98). -/
def execSmRange (sym : Imm) (s : State) : Host.Outcome State Fault Refusal :=
  command (.smRange sym) (fun s => do
    let r ← smRange sym.toNat s
    .ok (s.setX ⟨BitVec.ofNat 64 r.low, BitVec.ofNat 64 r.high, BitVec.ofNat 64 r.total⟩)) s

/-- `SM.FIND v` (40_symbol_model.md R99). -/
def execSmFind (v : Imm) (s : State) : Host.Outcome State Fault Refusal :=
  command (.smFind v) (fun s => do
    need (decide (v.toNat < total s.freq)) .illegalOperand s
    .ok (s.setX0 (BitVec.ofNat 64 (findSymbol s.freq v.toNat)))) s

/-- `SM.UPDATE s` (40_symbol_model.md R100). -/
def execSmUpdate (sym : Imm) (s : State) : Host.Outcome State Fault Refusal :=
  command (.smUpdate sym) (fun s => .ok (smUpdate sym.toNat s)) s

end Sys2Proof.Machine
end

