-- ==== Sys2Proof/Machine/Coder.lean ====
section
/-! DEFINITION. The interval arithmetic the encoder and the decoder share (41_arith_encoder.md R112 to R114,
42_arith_decoder.md R134, R135): narrowing, and the two kinds of normalisation step. -/

namespace Sys2Proof.Machine

/-- `range` = high - low + 1, an (N+1)-bit value (41_arith_encoder.md R112). -/
def Interval.range (iv : Interval) : Nat := iv.high.toNat - iv.low.toNat + 1

/-- Both new bounds, from the old `low` and the old `range`; the product first, then one truncating division
(41_arith_encoder.md R112; log entry 7 for intervals with low > high). -/
def Interval.narrow (iv : Interval) (r : Slice) : Interval :=
  ⟨BitVec.ofNat 48 (iv.low.toNat + iv.range * r.low / r.total),
   BitVec.ofNat 48 (iv.low.toNat + iv.range * r.high / r.total - 1)⟩

/-- A normalisation step (00_scope.md R9): the top bits agree on `b`, or the underflow (E3) step. -/
inductive Shift where
  | top (b : Bool)
  | underflow
deriving DecidableEq, Repr

/-- Which step the loop of `normalise` takes, if any (41_arith_encoder.md R113). -/
def Interval.shift? (iv : Interval) : Option Shift :=
  if iv.low.getLsbD 47 = iv.high.getLsbD 47 then some (.top (iv.low.getLsbD 47))
  else if iv.low.getLsbD 46 && !iv.high.getLsbD 46 then some .underflow
  else none

/-- The interval after a step (41_arith_encoder.md R113). -/
def Interval.shifted (iv : Interval) : Shift → Interval
  | .top _ => ⟨iv.low <<< 1, (iv.high <<< 1) ||| 1#48⟩
  | .underflow => ⟨(iv.low - Config.quarter) <<< 1, ((iv.high - Config.quarter) <<< 1) ||| 1#48⟩

/-- The most steps one call of `normalise` takes (41_arith_encoder.md R116 (d)). -/
def shiftBound : Nat := Config.precision

end Sys2Proof.Machine
end

