-- ==== Sys2Proof/Machine/ArithDecoder.lean ====
section
/-! DEFINITION. The arithmetic decoder AD (42_arith_decoder.md): its procedures, then `AD.INIT`, `AD.DECODE`,
`AD.FINISHED`. -/

namespace Sys2Proof.Machine

/-! ## Procedures (R131 to R136) -/

/-- A bit as the low bit of an N-bit value. -/
def bitBound (b : Bool) : Bound := (BitVec.ofBool b).setWidth 48

/-- `repeat n times: code <- (code << 1) | br_get()` (42_arith_decoder.md R131). -/
def primeCode (bs : List Byte) : Nat → Bound → BitReader → Bound × BitReader
  | 0, code, r => (code, r)
  | n + 1, code, r =>
    let g := brGet bs r
    primeCode bs n ((code <<< 1) ||| bitBound g.1) g.2

/-- `ad_init()` (42_arith_decoder.md R131). -/
def adInit (s : State) : State :=
  let p := primeCode s.bs Config.precision 0 s.br
  (s.setAd { low := 0, high := Config.mask, code := p.1, primed := true, finished := false }).setBr p.2

/-- `scaled` (42_arith_decoder.md R132). -/
def scaledValue (d : Decoder) (tot : Nat) : Nat :=
  ((d.code.toNat - d.low.toNat + 1) * tot - 1) / d.toInterval.range

/-- `code` after a step that reads the bit `b` (42_arith_decoder.md R135). -/
def shiftCode (code : Bound) (b : Bool) : Shift → Bound
  | .top _ => (code <<< 1) ||| bitBound b
  | .underflow => ((code - Config.quarter) <<< 1) ||| bitBound b

/-- The decoder's normalisation loop, of at most `n` steps: one bit is read per step (42_arith_decoder.md R135,
90_conflicts.md C4). -/
def normaliseDecoder (bs : List Byte) : Nat → Decoder → BitReader → Decoder × BitReader
  | 0, d, r => (d, r)
  | n + 1, d, r =>
    match d.toInterval.shift? with
    | none => (d, r)
    | some k =>
      let g := brGet bs r
      normaliseDecoder bs n { d with toInterval := d.toInterval.shifted k, code := shiftCode d.code g.1 k } g.2

/-- `ad_decode()` (42_arith_decoder.md R132 to R136): the symbol, and the state after it. -/
def adDecode (s : State) : Proc (Nat × State) := do
  need (decide (total s.freq ≤ Config.maxTotal)) .modelInvariantViolation s
  let sym := findSymbol s.freq (scaledValue s.ad (total s.freq))
  let r := sliceOf s.freq sym
  let p := normaliseDecoder s.bs shiftBound { s.ad with toInterval := s.ad.toInterval.narrow r } s.br
  .ok (sym, (s.setAd (markFinished sym p.1)).setBr p.2)

/-! ## Commands (R138 to R140) -/

/-- `AD.INIT` (42_arith_decoder.md R139). -/
def execAdInit (s : State) : Host.Outcome State Fault Refusal :=
  command .adInit (fun s => .ok (adInit s)) s

/-- `AD.DECODE` (42_arith_decoder.md R138). -/
def execAdDecode (s : State) : Host.Outcome State Fault Refusal :=
  command .adDecode (fun s => do
    need (s.ad.primed && !s.ad.finished) .sequenceError s
    let r ← adDecode s
    .ok (r.2.setX0 (BitVec.ofNat 64 r.1))) s

/-- `AD.FINISHED` (42_arith_decoder.md R140). -/
def execAdFinished (s : State) : Host.Outcome State Fault Refusal :=
  command .adFinished (fun s => .ok (s.setX0 ((BitVec.ofBool s.ad.finished).setWidth 64))) s

end Sys2Proof.Machine
end

