-- ==== Sys2Proof/Machine/ArithEncoder.lean ====
section
/-! DEFINITION. The arithmetic encoder AE (41_arith_encoder.md): its procedures, then `AE.INIT`, `AE.ENCODE`,
`AE.FINISH`. -/

namespace Sys2Proof.Machine

/-! ## Procedures (R111 to R119) -/

/-- `ae_init()` (41_arith_encoder.md R111). -/
def Encoder.start : Encoder := { low := 0, high := Config.mask, pending := 0, done := false }

/-- `emit(b)`: the bit, then `pending` copies of its complement (41_arith_encoder.md R115). -/
def emitBit (b : Bool) (pending : Nat) (w : Writer) : Writer := Writer.putMany pending (!b) (w.put b)

/-- The loop of `normalise()`, of at most `n` steps (41_arith_encoder.md R113). -/
def normalise : Nat → Encoder → Writer → Encoder × Writer
  | 0, e, w => (e, w)
  | n + 1, e, w =>
    match e.toInterval.shift? with
    | none => (e, w)
    | some (.top b) =>
      normalise n { e with toInterval := e.toInterval.shifted (.top b), pending := 0 } (emitBit b e.pending w)
    | some .underflow =>
      normalise n { e with toInterval := e.toInterval.shifted .underflow, pending := e.pending + 1 } w

/-- The bits `ae_finish` writes before padding (41_arith_encoder.md R119). -/
def finishBits (e : Encoder) (w : Writer) : Writer :=
  let b := decide (Config.quarter.toNat ≤ e.low.toNat)
  Writer.putMany e.pending (!b) ((w.put b).put (!b))

/-- `ae_encode(sym)` (41_arith_encoder.md R112, R114). A raise comes before any change. -/
def aeEncode (sym : Nat) (s : State) : Proc State := do
  let r ← smRange sym s
  let p := normalise shiftBound { s.ae with toInterval := s.ae.toInterval.narrow r } s.writer
  let s ← commitWriter p.2 s
  .ok (s.setAe p.1)

/-- `ae_finish()` (41_arith_encoder.md R119). A raise comes before any change. -/
def aeFinish (s : State) : Proc State := do
  let s ← commitWriter (finishBits s.ae s.writer).finish s
  .ok (s.setAe (markDone { s.ae with pending := 0 }))

/-! ## Commands (R120 to R122) -/

/-- `AE.INIT` (41_arith_encoder.md R120). -/
def execAeInit (s : State) : Host.Outcome State Fault Refusal :=
  command .aeInit (fun s => .ok (s.setAe Encoder.start)) s

/-- `AE.ENCODE s` (41_arith_encoder.md R121). -/
def execAeEncode (sym : Imm) (s : State) : Host.Outcome State Fault Refusal :=
  command (.aeEncode sym) (fun s => do
    need (!s.ae.done) .sequenceError s
    aeEncode sym.toNat s) s

/-- `AE.FINISH` (41_arith_encoder.md R122). -/
def execAeFinish (s : State) : Host.Outcome State Fault Refusal :=
  command .aeFinish (fun s => do
    need (!s.ae.done) .sequenceError s
    aeFinish s) s

end Sys2Proof.Machine
end

