-- ==== Sys2Proof/Machine/Predictor.lean ====
section
/-! DEFINITION. The predictor and residual transform PR (44_predictor.md): its procedures, then `PR.INIT`, `PR.PREDICT`,
`PR.ENC`, `PR.DEC`, `PR.FWD`, `PR.INV`, `RES.CLR`, `RES.PUSH`. -/

namespace Sys2Proof.Machine

/-! ## Pixels (R171, R175, R186) -/

/-- A pixel: one byte per channel (00_scope.md R7). -/
structure Pixel where
  c0 : Byte
  c1 : Byte
  c2 : Byte
deriving DecidableEq, Repr

/-- The pixel (0, 0, 0) (44_predictor.md R172). -/
def black : Pixel := ⟨0, 0, 0⟩

/-- `pixel(i)` (44_predictor.md R171, 20_memory.md R41). -/
def pixelAt (m : Memory) (i : Nat) : Pixel := ⟨m.read (3 * i), m.read (3 * i + 1), m.read (3 * i + 2)⟩

/-- The bytes of a pixel in channel order (20_memory.md R41, R42). -/
def Pixel.bytes (p : Pixel) : List Byte := [p.c0, p.c1, p.c2]

/-- `pack(p)` in a result register: c0 in bits 23:16, c1 in 15:8, c2 in 7:0 (20_memory.md R44). -/
def Pixel.pack (p : Pixel) : Word := (p.c0 ++ p.c1 ++ p.c2).setWidth 64

/-- The residual (actual - predicted) mod 256 per channel (44_predictor.md R175). -/
def Pixel.residual (actual predicted : Pixel) : Pixel :=
  ⟨actual.c0 - predicted.c0, actual.c1 - predicted.c1, actual.c2 - predicted.c2⟩

/-- The pixel (predicted + residual) mod 256 per channel (44_predictor.md R175). -/
def Pixel.restored (predicted residual : Pixel) : Pixel :=
  ⟨predicted.c0 + residual.c0, predicted.c1 + residual.c1, predicted.c2 + residual.c2⟩

/-- The truncating average of three channel values (44_predictor.md R172, R173). -/
def average3 (l a u : Byte) : Byte := BitVec.ofNat 8 ((l.toNat + a.toNat + u.toNat) / 3)

/-- The average of three pixels, channel by channel (44_predictor.md R172, R186). -/
def Pixel.average (l a u : Pixel) : Pixel :=
  ⟨average3 l.c0 a.c0 u.c0, average3 l.c1 a.c1 u.c1, average3 l.c2 a.c2 u.c2⟩

/-! ## Prediction (R172) -/

/-- Where a prediction comes from: no pixel, one pixel, or the average of left, above and upper-left. -/
inductive Source where
  | black
  | copy (j : Nat)
  | average (left above upperLeft : Nat)
deriving DecidableEq, Repr

/-- The case of `predict(i)` that applies, by `PRED` and the width `w`; none for an unknown predictor
(44_predictor.md R172, R174). -/
def predictSource (pred : BitVec 16) (w i : Nat) : Option Source :=
  if pred = 0#16 then
    some (if i = 0 then .black else .copy (i - 1))
  else if pred = 1#16 then
    let x := i % w
    let y := i / w
    some (
      if x = 0 ∧ y = 0 then .black
      else if x = 0 then .copy (i - w)
      else if y = 0 then .copy (i - 1)
      else .average (i - 1) (i - w) (i - w - 1))
  else none

/-- The predicted pixel (44_predictor.md R172). -/
def Source.pixel (m : Memory) : Source → Pixel
  | .black => Machine.black
  | .copy j => pixelAt m j
  | .average l a u => Pixel.average (pixelAt m l) (pixelAt m a) (pixelAt m u)

/-- One more than the highest address of PIX that a prediction reads, 0 if it reads none (20_memory.md R46, R49). -/
def Source.reach : Source → Nat
  | .black => 0
  | .copy j => 3 * j + 3
  | .average l a u => max (3 * l + 3) (max (3 * a + 3) (3 * u + 3))

/-- `PRED` is 0 or 1 (44_predictor.md R182, R183). -/
def knownPredictor (s : State) : Bool := decide (s.conf.pred = 0#16) || decide (s.conf.pred = 1#16)

/-- W·H, a natural number, never wrapped (92_eei_decisions.md D33). -/
def pixelCount (s : State) : Nat := s.conf.width.toNat * s.conf.height.toNat

/-- `predict(PR.pos)`'s source, or FORMAT_UNKNOWN_PREDICTOR (44_predictor.md R172). -/
def sourceHere (s : State) : Proc Source :=
  match predictSource s.conf.pred s.conf.width.toNat s.prPos with
  | some src => .ok src
  | none => .error ⟨.formatUnknownPredictor, s⟩

/-! ## RES (20_memory.md R42) -/

/-- `RES <- empty; RES.rcur <- 0` (44_predictor.md R182, R184). -/
def clearRes (s : State) : State := s.setRes ⟨[], 0⟩

/-- `append(RES, b)` for bytes in order, or CAPACITY before any change (20_memory.md R42, R49). -/
def appendRes (bytes : List Byte) (s : State) : Proc State := do
  need (fits s.caps.resCap (s.res.bytes.length + bytes.length)) .capacity s
  .ok (s.setRes { s.res with bytes := s.res.bytes ++ bytes })

/-- The three residual bytes at `RES.rcur` (44_predictor.md R177). A byte beyond the sequence is never read: the callers
test the length first. -/
def residualAt (r : Residuals) : Pixel :=
  ⟨r.bytes.getD r.rcur 0, r.bytes.getD (r.rcur + 1) 0, r.bytes.getD (r.rcur + 2) 0⟩

/-! ## One pixel forward and backward (R176, R177) -/

/-- `predict(PR.pos)`, or FORMAT_UNKNOWN_PREDICTOR, or CAPACITY for a byte of PIX that does not exist
(44_predictor.md R172; log entry 5). -/
def prPredict (s : State) : Proc Pixel := do
  let src ← sourceHere s
  need (fits s.caps.pixCap src.reach) .capacity s
  .ok (src.pixel s.pix)

/-- `pr_enc()`: the residual, and the state after it (44_predictor.md R176). A raise comes before any change. -/
def prEnc (s : State) : Proc (Pixel × State) := do
  let src ← sourceHere s
  need (fits s.caps.pixCap (max src.reach (3 * s.prPos + 3))) .capacity s
  let r := (pixelAt s.pix s.prPos).residual (src.pixel s.pix)
  let t ← appendRes r.bytes s
  .ok (r, t.setPrPos (s.prPos + 1))

/-- `pr_dec()`: the pixel, and the state after it (44_predictor.md R177). A raise comes before any change. -/
def prDec (s : State) : Proc (Pixel × State) := do
  let src ← sourceHere s
  need (fits s.caps.pixCap (max src.reach (3 * s.prPos + 3))) .capacity s
  let a := (src.pixel s.pix).restored (residualAt s.res)
  .ok (a, ((s.setPix (s.pix.writeBytes (3 * s.prPos) a.bytes)).setRes { s.res with rcur := s.res.rcur + 3 }).setPrPos
    (s.prPos + 1))

/-! ## The whole traversals (R182, R183, R188) -/

/-- `repeat n times` of a procedure, stopping at the first raise (60_exceptions.md R244). -/
def repeatProc (f : State → Proc State) : Nat → State → Proc State
  | 0, s => .ok s
  | n + 1, s => do
    let s ← f s
    repeatProc f n s

/-- `PR.FWD`'s pseudocode (44_predictor.md R182). -/
def prForward (s : State) : Proc State := do
  need (knownPredictor s) .formatUnknownPredictor s
  let s := (clearRes s).setPrPos 0
  repeatProc (fun s => (prEnc s).map Prod.snd) (pixelCount s) s

/-- `PR.INV`'s pseudocode (44_predictor.md R183). -/
def prInverse (s : State) : Proc State := do
  need (knownPredictor s) .formatUnknownPredictor s
  need (decide (s.res.bytes.length = 3 * pixelCount s)) .lengthMismatch s
  let s := (s.setPrPos 0).setRes { s.res with rcur := 0 }
  repeatProc (fun s => (prDec s).map Prod.snd) (pixelCount s) s

/-! ## Commands (R178 to R185) -/

/-- `PR.INIT` (44_predictor.md R178). -/
def execPrInit (s : State) : Host.Outcome State Fault Refusal :=
  command .prInit (fun s => .ok ((s.setPrPos 0).setRes { s.res with rcur := 0 })) s

/-- `PR.PREDICT` (44_predictor.md R179). -/
def execPrPredict (s : State) : Host.Outcome State Fault Refusal :=
  command .prPredict (fun s => do
    need (decide (s.prPos < pixelCount s)) .sequenceError s
    let p ← prPredict s
    .ok (s.setX0 p.pack)) s

/-- `PR.ENC` (44_predictor.md R180). -/
def execPrEnc (s : State) : Host.Outcome State Fault Refusal :=
  command .prEnc (fun s => do
    need (decide (s.prPos < pixelCount s)) .sequenceError s
    let r ← prEnc s
    .ok (r.2.setX0 r.1.pack)) s

/-- `PR.DEC` (44_predictor.md R181). -/
def execPrDec (s : State) : Host.Outcome State Fault Refusal :=
  command .prDec (fun s => do
    need (decide (s.prPos < pixelCount s) && decide (s.res.rcur + 3 ≤ s.res.bytes.length)) .sequenceError s
    let r ← prDec s
    .ok (r.2.setX0 r.1.pack)) s

/-- `PR.FWD` (44_predictor.md R182). -/
def execPrFwd (s : State) : Host.Outcome State Fault Refusal := command .prFwd prForward s

/-- `PR.INV` (44_predictor.md R183). -/
def execPrInv (s : State) : Host.Outcome State Fault Refusal := command .prInv prInverse s

/-- `RES.CLR` (44_predictor.md R184). -/
def execResClr (s : State) : Host.Outcome State Fault Refusal :=
  command .resClr (fun s => .ok (clearRes s)) s

/-- `RES.PUSH b` (44_predictor.md R185). -/
def execResPush (b : Imm) (s : State) : Host.Outcome State Fault Refusal :=
  command (.resPush b) (fun s => appendRes [b.setWidth 8] s) s

end Sys2Proof.Machine
end

