-- ==== Sys2Proof/Machine/Stream.lean ====
section
/-! DEFINITION. The whole-stream operations (45_stream_ops.md): their procedures, then `ENC.BYTES`, `DEC.BYTES`,
`ENC.GRID`, `DEC.GRID`. -/

namespace Sys2Proof.Machine

/-! ## Procedures (R201 to R204) -/

/-- One symbol coded and the model updated with it (45_stream_ops.md R201). -/
def encSymbol (sym : Nat) (s : State) : Proc State := do
  let s ← aeEncode sym s
  .ok (smUpdate sym s)

/-- Symbols coded one after the other. -/
def encSymbols : List Nat → State → Proc State
  | [], s => .ok s
  | sym :: rest, s => do
    let s ← encSymbol sym s
    encSymbols rest s

/-- `enc_bytes()` (45_stream_ops.md R201): the bytes of RES, then the end-of-stream symbol, then the finish. -/
def encBytes (s : State) : Proc State := do
  let s := ((smInit s).setWriter Writer.empty).setAe Encoder.start
  let s ← encSymbols (s.res.bytes.map BitVec.toNat ++ [Config.eos]) s
  aeFinish s

/-- One symbol decoded and the model updated with it (45_stream_ops.md R202). -/
def decSymbol (s : State) : Proc (Nat × State) := do
  let r ← adDecode s
  .ok (r.1, smUpdate r.1 r.2)

/-- The loop of `dec_bytes`, with `room` data symbols still allowed: room = limit - len(RES) (45_stream_ops.md R202). -/
def decLoop : Nat → State → Proc State
  | 0, s => do
    let r ← decSymbol s
    if r.1 = Config.eos then .ok r.2 else .error ⟨.lengthMismatch, r.2⟩
  | room + 1, s => do
    let r ← decSymbol s
    if r.1 = Config.eos then .ok r.2
    else
      let s ← appendRes [BitVec.ofNat 8 r.1] r.2
      decLoop room s

/-- `dec_bytes(limit)` (45_stream_ops.md R202). -/
def decBytes (limit : Nat) (s : State) : Proc State :=
  decLoop limit (clearRes (adInit ((smInit s).setBr BitReader.start)))

/-- `enc_grid()` (45_stream_ops.md R203). -/
def encGrid (s : State) : Proc State := do
  let s ← prForward s
  encBytes s

/-- `dec_grid()` (45_stream_ops.md R204). -/
def decGrid (s : State) : Proc State := do
  need (knownPredictor s) .formatUnknownPredictor s
  let s ← decBytes (3 * pixelCount s) s
  prInverse s

/-- `x[0] <- trunc_64(len(BS))` (10_state.md R11). -/
def returnBsLen (s : State) : State := s.setX0 (BitVec.ofNat 64 s.bs.length)

/-- `x[0] <- trunc_64(len(RES))` (10_state.md R11). -/
def returnResLen (s : State) : State := s.setX0 (BitVec.ofNat 64 s.res.bytes.length)

/-! ## Commands (R205 to R208) -/

/-- `ENC.BYTES` (45_stream_ops.md R205). -/
def execEncBytes (s : State) : Host.Outcome State Fault Refusal :=
  command .encBytes (fun s => (encBytes s).map returnBsLen) s

/-- `DEC.BYTES limit` (45_stream_ops.md R206). -/
def execDecBytes (limit : Imm) (s : State) : Host.Outcome State Fault Refusal :=
  command (.decBytes limit) (fun s => (decBytes limit.toNat s).map returnResLen) s

/-- `ENC.GRID` (45_stream_ops.md R207). -/
def execEncGrid (s : State) : Host.Outcome State Fault Refusal :=
  command .encGrid (fun s => (encGrid s).map returnBsLen) s

/-- `DEC.GRID` (45_stream_ops.md R208). -/
def execDecGrid (s : State) : Host.Outcome State Fault Refusal :=
  command .decGrid (fun s => (decGrid s).map returnResLen) s

end Sys2Proof.Machine
end

