-- ==== Sys2Proof/Machine/System.lean ====
section
/-! DEFINITION. The system commands `NOP`, `RESET`, `CSR.RD`, `CSR.WR` (46_system_ops.md), and the control registers'
contents (10_state.md R20). -/

namespace Sys2Proof.Machine

/-- `CSR[n]`, a natural number (10_state.md R20, R22, R23). -/
def csrValue (s : State) : Csr → Nat
  | .width => s.conf.width.toNat
  | .height => s.conf.height.toNat
  | .pred => s.conf.pred.toNat
  | .channels => Config.channels
  | .precision => Config.precision
  | .maxTotal => Config.maxTotal
  | .nsym => Config.nsym
  | .eosSym => Config.eos
  | .status => (statusWord s).toNat
  | .cause => s.flt.cause.toNat
  | .info => s.flt.info.toNat
  | .smTotal => total s.freq
  | .aeLow => s.ae.low.toNat
  | .aeHigh => s.ae.high.toNat
  | .aePending => s.ae.pending
  | .adLow => s.ad.low.toNat
  | .adHigh => s.ad.high.toNat
  | .adCode => s.ad.code.toNat
  | .bwAcc => s.bw.acc.toNat
  | .bwNbits => s.bw.nbits.val
  | .bsLen => s.bs.length
  | .brPos => s.br.pos
  | .brPast => s.br.past
  | .prPos => s.prPos
  | .resLen => s.res.bytes.length
  | .resRcur => s.res.rcur

/-- `CSR[n] <- v` for the registers marked RW; a read-only register discards the write, which no command makes: the
decoder and `command` reject it first (10_state.md R20, R21). -/
def csrWrite (r : Csr) (v : Imm) (c : ConfRegs) : ConfRegs :=
  match r with
  | .width => { c with width := v }
  | .height => { c with height := v }
  | .pred => { c with pred := v.setWidth 16 }
  | .channels | .precision | .maxTotal | .nsym | .eosSym | .status | .cause | .info | .smTotal
  | .aeLow | .aeHigh | .aePending | .adLow | .adHigh | .adCode | .bwAcc | .bwNbits | .bsLen
  | .brPos | .brPast | .prPos | .resLen | .resRcur => c

/-! ## Commands (R220 to R223) -/

/-- `NOP` (46_system_ops.md R220). -/
def execNop (s : State) : Host.Outcome State Fault Refusal := commandAlways .nop (fun s => .ok s) s

/-- `RESET` (46_system_ops.md R221). -/
def execReset (s : State) : Host.Outcome State Fault Refusal := commandAlways .reset (fun s => .ok (leaveFault s)) s

/-- `CSR.RD idx` (46_system_ops.md R222). -/
def execCsrRd (r : Csr) (s : State) : Host.Outcome State Fault Refusal :=
  commandAlways (.csrRd r) (fun s => .ok (s.setX0 (BitVec.ofNat 64 (csrValue s r)))) s

/-- `CSR.WR idx, v` (46_system_ops.md R223). -/
def execCsrWr (r : Csr) (v : Imm) (s : State) : Host.Outcome State Fault Refusal :=
  command (.csrWr r v) (fun s => .ok (s.setConf (csrWrite r v s.conf))) s

end Sys2Proof.Machine
end

