-- ==== Sys2Proof/Machine/Dispatch.lean ====
section
/-! DEFINITION. One arm per command: which meaning runs. -/

namespace Sys2Proof.Machine

def exec (i : Instr) (s : State) : Host.Outcome State Fault Refusal :=
  match i with
  | .nop => Sys2Proof.Machine.execNop s
  | .reset => Sys2Proof.Machine.execReset s
  | .csrRd r => Sys2Proof.Machine.execCsrRd r s
  | .csrWr r v => Sys2Proof.Machine.execCsrWr r v s
  | .smInit => Sys2Proof.Machine.execSmInit s
  | .smRange sym => Sys2Proof.Machine.execSmRange sym s
  | .smFind v => Sys2Proof.Machine.execSmFind v s
  | .smUpdate sym => Sys2Proof.Machine.execSmUpdate sym s
  | .aeInit => Sys2Proof.Machine.execAeInit s
  | .aeEncode sym => Sys2Proof.Machine.execAeEncode sym s
  | .aeFinish => Sys2Proof.Machine.execAeFinish s
  | .adInit => Sys2Proof.Machine.execAdInit s
  | .adDecode => Sys2Proof.Machine.execAdDecode s
  | .adFinished => Sys2Proof.Machine.execAdFinished s
  | .bwInit => Sys2Proof.Machine.execBwInit s
  | .bwPut b => Sys2Proof.Machine.execBwPut b s
  | .bwFinish => Sys2Proof.Machine.execBwFinish s
  | .brInit => Sys2Proof.Machine.execBrInit s
  | .brGet => Sys2Proof.Machine.execBrGet s
  | .prInit => Sys2Proof.Machine.execPrInit s
  | .prPredict => Sys2Proof.Machine.execPrPredict s
  | .prEnc => Sys2Proof.Machine.execPrEnc s
  | .prDec => Sys2Proof.Machine.execPrDec s
  | .prFwd => Sys2Proof.Machine.execPrFwd s
  | .prInv => Sys2Proof.Machine.execPrInv s
  | .resClr => Sys2Proof.Machine.execResClr s
  | .resPush b => Sys2Proof.Machine.execResPush b s
  | .encBytes => Sys2Proof.Machine.execEncBytes s
  | .decBytes limit => Sys2Proof.Machine.execDecBytes limit s
  | .encGrid => Sys2Proof.Machine.execEncGrid s
  | .decGrid => Sys2Proof.Machine.execDecGrid s

end Sys2Proof.Machine
end

