-- ==== Sys2Proof/Machine/Step.lean ====
section
/-! DEFINITION. One step of the machine: the host's next move, or none. A command runs whole in one step
(20_memory.md R50, 45_stream_ops.md R211). -/

namespace Sys2Proof.Machine

/-- A command word given to the block (30_encoding.md R61): decoded and run, or rejected by name. In the fault state
`command` and `raise` make every word but `NOP`, `RESET` and `CSR.RD` an empty step (step 1 of R61). -/
def issue (w : Word) (s : State) : Host.Outcome State Fault Refusal :=
  match decode w with
  | .ok i => exec i s
  | .error r => rejectWord r w s

/-- The host's next move is taken from its list and made; with none left the block is idle (log entry 1). -/
def step (s : State) : Host.Outcome State Fault Refusal :=
  match s.host with
  | [] => idle s
  | .command w :: rest => issue w (s.setHost rest)
  | .storePix a bytes :: rest => hostStorePix a bytes (s.setHost rest)
  | .loadRes bytes :: rest => hostLoadRes bytes (s.setHost rest)
  | .loadBs bytes :: rest => hostLoadBs bytes (s.setHost rest)
  | .powerOn cells :: rest => hostPowerOn cells (s.setHost rest)

/-- The state in which the host's next move is to give the word of `nbits` bits `w`, numbered as opcode_table.json
numbers them; the moves that were to come stay behind it. -/
def State.withFetchWord (s : State) (nbits w : Nat) : State :=
  s.setHost (.command (BitVec.ofNat 64 (w % 2 ^ nbits)) :: s.host)

end Sys2Proof.Machine
end

