-- ==== Sys2Proof/Safety.lean ====
section
/-! DEFINITION. What the statements about the machine speak of: the invariants of 10_state.md, faults taken,
legal words, who writes what, the coded stream as a sequence of bits, and commands issued one after the other. -/

namespace Sys2Proof.Machine

/-! ## Invariants -/

/-- SM: 257 counts, each at least 1, total at most MAX_TOTAL (10_state.md R24, R26). -/
abbrev ModelOk (freq : List Nat) : Prop := freq.length = 257 ∧ (∀ c ∈ freq, 1 ≤ c) ∧ total freq ≤ 65535

/-- A normalised interval: low < HALF ≤ high, and not (low ≥ QUARTER and high < HALF + QUARTER)
(10_state.md R27, 41_arith_encoder.md R117). -/
abbrev IntervalOk (iv : Interval) : Prop :=
  iv.low.toNat < 2 ^ 47 ∧ 2 ^ 47 ≤ iv.high.toNat ∧ ¬(2 ^ 46 ≤ iv.low.toNat ∧ iv.high.toNat < 2 ^ 47 + 2 ^ 46)

/-- AE: the invariant of 10_state.md R27. -/
abbrev EncoderOk (e : Encoder) : Prop := e.done = false → IntervalOk e.toInterval

/-- AD: the invariant of 10_state.md R28 (42_arith_decoder.md R137). -/
abbrev DecoderOk (d : Decoder) : Prop :=
  d.primed = true → IntervalOk d.toInterval ∧ d.low.toNat ≤ d.code.toNat ∧ d.code.toNat ≤ d.high.toNat

/-- BW: acc < 2^nbits (10_state.md R29). -/
abbrev WriterOk (b : BitWriter) : Prop := b.acc.toNat < 2 ^ b.nbits.val

/-- The fault record: clear while FAULT is 0, and else a code the block raises; MODEL_INVARIANT_VIOLATION is not among
them, for it is unreachable (10_state.md R23, 60_exceptions.md R241, R242). -/
abbrev FaultRecordOk (f : FaultRecord) : Prop :=
  (f.fault = false → f.cause = 0#8 ∧ f.info = 0#64) ∧
  (f.fault = true → f.cause = 1#8 ∨ f.cause = 2#8 ∨ f.cause = 3#8 ∨ f.cause = 4#8 ∨ f.cause = 8#8 ∨ f.cause = 10#8)

/-- The buffers lie within their capacities, and so do the pixels a traversal has passed (20_memory.md R49). -/
abbrev BuffersOk (s : State) : Prop :=
  fits s.caps.bsCap s.bs.length = true ∧ fits s.caps.resCap s.res.bytes.length = true ∧
  fits s.caps.pixCap (3 * s.prPos) = true ∧ ∀ c ∈ s.pix, fits s.caps.pixCap (c.1 + 1) = true

/-- The invariant of the machine. -/
abbrev State.Inv (s : State) : Prop :=
  ModelOk s.freq ∧ EncoderOk s.ae ∧ DecoderOk s.ad ∧ WriterOk s.bw ∧ FaultRecordOk s.flt ∧ s.pix.wf ∧ BuffersOk s

/-- Buffers without bound, the default of 00_scope.md R5. -/
abbrev State.Unbounded (s : State) : Prop := s.caps = ⟨none, none, none⟩

/-- The same state with other capacities. -/
def State.withCaps (s : State) (c : Capacities) : State := { s with caps := c }

/-- A buffer of capacity `cap` grows from `before` to `after` bytes: nothing is appended, or the bytes exist
(20_memory.md R49). -/
abbrev AppendsFit (cap : Option Nat) (before after : Nat) : Prop := after = before ∨ fits cap after = true

/-! ## Faults -/

/-- The state with a fault taken: only the fault record differs (60_exceptions.md R244). -/
def State.faulted (s : State) (code : BitVec 8) (w : Word) : State := { s with flt := ⟨true, code, w⟩ }

/-- The commands that are not composite (60_exceptions.md R244 names the six composite ones). -/
def isMicroOp : Instr → Bool
  | .prFwd | .prInv | .encBytes | .decBytes _ | .encGrid | .decGrid => false
  | .nop | .reset | .csrRd _ | .csrWr _ _ | .smInit | .smRange _ | .smFind _ | .smUpdate _ | .aeInit | .aeEncode _
  | .aeFinish | .adInit | .adDecode | .adFinished | .bwInit | .bwPut _ | .bwFinish | .brInit | .brGet
  | .prInit | .prPredict | .prEnc | .prDec | .resClr | .resPush _ => true

/-- The codes of the faults a command can raise once its word is well formed (60_exceptions.md R242, with
ILLEGAL_OPERAND left to `SM.FIND`, whose test is made when it runs). -/
def faultCodes : Instr → List (BitVec 8)
  | .nop | .reset | .csrRd _ | .csrWr _ _ | .smInit | .smUpdate _ | .aeInit | .adInit | .adFinished
  | .bwInit | .brInit | .brGet | .prInit | .resClr => []
  | .smRange _ => [7#8]
  | .smFind _ => [2#8]
  | .aeEncode _ => [3#8, 7#8, 10#8]
  | .aeFinish => [3#8, 10#8]
  | .adDecode => [3#8, 7#8]
  | .bwPut _ | .bwFinish | .resPush _ => [10#8]
  | .prPredict => [3#8, 4#8]
  | .prEnc | .prDec => [3#8, 4#8, 10#8]
  | .prFwd => [4#8, 10#8]
  | .prInv => [4#8, 8#8, 10#8]
  | .encBytes => [7#8, 10#8]
  | .decBytes _ => [8#8, 7#8, 10#8]
  | .encGrid => [4#8, 7#8, 10#8]
  | .decGrid => [4#8, 8#8, 7#8, 10#8]

/-! ## Words, as 30_encoding.md R63 and R64 list them -/

/-- The operation codes of 30_encoding.md R63 that take neither a register number nor an immediate. -/
def plainOps : List (BitVec 8) :=
  [0x00#8, 0x01#8, 0x10#8, 0x20#8, 0x22#8, 0x30#8, 0x31#8, 0x32#8, 0x40#8, 0x42#8, 0x48#8, 0x49#8,
   0x50#8, 0x51#8, 0x52#8, 0x53#8, 0x54#8, 0x55#8, 0x58#8, 0x60#8, 0x62#8, 0x63#8]

/-- The operation codes of 30_encoding.md R63 that take an immediate and no register number. -/
def immOps : List (BitVec 8) := [0x11#8, 0x12#8, 0x13#8, 0x21#8, 0x41#8, 0x59#8, 0x61#8]

/-- The numbers of the read-only control registers (10_state.md R20). -/
def readOnlyCsrs : List (BitVec 8) :=
  [0x03#8, 0x04#8, 0x05#8, 0x06#8, 0x07#8, 0x08#8, 0x09#8, 0x0A#8, 0x10#8, 0x20#8, 0x21#8, 0x22#8, 0x28#8,
   0x29#8, 0x2A#8, 0x30#8, 0x31#8, 0x32#8, 0x38#8, 0x39#8, 0x40#8, 0x41#8, 0x42#8]

/-- The numbers of all control registers (10_state.md R20). -/
def allCsrs : List (BitVec 8) := [0x00#8, 0x01#8, 0x02#8] ++ readOnlyCsrs

/-- A word that 30_encoding.md R64 calls illegal. -/
def IllegalWord (w : Word) : Prop :=
  opField w ∉ plainOps ++ immOps ++ [0x02#8, 0x03#8] ∨
  rsvField w ≠ 0 ∨
  (opField w ∈ plainOps ++ immOps ∧ idxField w ≠ 0) ∨
  (opField w ∈ plainOps ++ [0x02#8] ∧ immField w ≠ 0) ∨
  (opField w ∈ [0x02#8, 0x03#8] ∧ idxField w ∉ allCsrs) ∨
  (opField w = 0x03#8 ∧ idxField w ∈ readOnlyCsrs)

/-- A word whose immediate is above the range of 30_encoding.md R62. -/
def OperandTooLarge (w : Word) : Prop :=
  (opField w ∈ [0x11#8, 0x13#8, 0x21#8] ∧ 256 < (immField w).toNat) ∨
  (opField w = 0x41#8 ∧ 1 < (immField w).toNat) ∨
  (opField w = 0x59#8 ∧ 255 < (immField w).toNat) ∨
  (opField w = 0x03#8 ∧ idxField w = 0x02#8 ∧ 65535 < (immField w).toNat)

/-! ## Who writes what -/

/-- The commands that write `x[0]` (10_state.md R11), and `RESET`, which sets it to its reset value. -/
def writesX0 : Instr → Bool
  | .smRange _ | .smFind _ | .adDecode | .adFinished | .brGet | .prPredict | .prEnc | .prDec | .csrRd _
  | .encBytes | .encGrid | .decBytes _ | .decGrid | .reset => true
  | .nop | .csrWr _ _ | .smInit | .smUpdate _ | .aeInit | .aeEncode _ | .aeFinish | .adInit | .bwInit | .bwPut _
  | .bwFinish | .brInit | .prInit | .prFwd | .prInv | .resClr | .resPush _ => false

/-- The commands that write `x[1]` and `x[2]` (10_state.md R11), and `RESET`. -/
def writesX12 : Instr → Bool
  | .smRange _ | .reset => true
  | .nop | .csrRd _ | .csrWr _ _ | .smInit | .smFind _ | .smUpdate _ | .aeInit | .aeEncode _ | .aeFinish
  | .adInit | .adDecode | .adFinished | .bwInit | .bwPut _ | .bwFinish | .brInit | .brGet
  | .prInit | .prPredict | .prEnc | .prDec | .prFwd | .prInv | .resClr | .resPush _
  | .encBytes | .decBytes _ | .encGrid | .decGrid => false

/-- The commands that write PIX (20_memory.md R48). -/
def writesPix : Instr → Bool
  | .prDec | .prInv | .decGrid => true
  | .nop | .reset | .csrRd _ | .csrWr _ _ | .smInit | .smRange _ | .smFind _ | .smUpdate _ | .aeInit | .aeEncode _
  | .aeFinish | .adInit | .adDecode | .adFinished | .bwInit | .bwPut _ | .bwFinish | .brInit | .brGet
  | .prInit | .prPredict | .prEnc | .prFwd | .resClr | .resPush _ | .encBytes | .decBytes _ | .encGrid => false

/-- The commands that write the bytes of RES (20_memory.md R48), and `RESET`. -/
def writesRes : Instr → Bool
  | .prEnc | .prFwd | .resPush _ | .resClr | .decBytes _ | .encGrid | .decGrid | .reset => true
  | .nop | .csrRd _ | .csrWr _ _ | .smInit | .smRange _ | .smFind _ | .smUpdate _ | .aeInit | .aeEncode _
  | .aeFinish | .adInit | .adDecode | .adFinished | .bwInit | .bwPut _ | .bwFinish | .brInit | .brGet
  | .prInit | .prPredict | .prDec | .prInv | .encBytes => false

/-- The commands that write BS (20_memory.md R48), and `RESET`. -/
def writesBs : Instr → Bool
  | .bwInit | .bwPut _ | .bwFinish | .aeEncode _ | .aeFinish | .encBytes | .encGrid | .reset => true
  | .nop | .csrRd _ | .csrWr _ _ | .smInit | .smRange _ | .smFind _ | .smUpdate _ | .aeInit
  | .adInit | .adDecode | .adFinished | .brInit | .brGet | .prInit | .prPredict | .prEnc | .prDec | .prFwd | .prInv
  | .resClr | .resPush _ | .decBytes _ | .decGrid => false

/-! ## The coded stream as bits -/

/-- Bit `k` of the stream: bit 7 - (k mod 8) of the byte at address k div 8 (20_memory.md R43), and 0 past the end
(43_bitstream.md R156). -/
def streamBit (bs : List Byte) (k : Nat) : Bool := (bs.getD (k / 8) 0#8).getLsbD (7 - k % 8)

/-- How many of the `n` bits from `pos` on lie beyond the last byte (43_bitstream.md R157). -/
def bitsBeyond (bs : List Byte) (pos n : Nat) : Nat := pos + n - max pos (min (8 * bs.length) (pos + n))

/-- The `n` bits of the stream from bit `pos` on, in order (42_arith_decoder.md R135). -/
def streamBits (bs : List Byte) (pos n : Nat) : List Bool := (List.range n).map (fun k => streamBit bs (pos + k))

/-- How many bits have been written: 8·len(BS) + nbits (10_state.md R29). -/
def bitCount (w : Writer) : Nat := 8 * w.bs.length + w.nbits.val

/-- The `k`-th bit written, in BS or still in `BW.acc` (43_bitstream.md R152). -/
def writtenBit (w : Writer) (k : Nat) : Bool :=
  if k < 8 * w.bs.length then streamBit w.bs k else w.acc.getLsbD (w.nbits.val - 1 - (k - 8 * w.bs.length))

/-- The bits written, in order. -/
def writtenBits (w : Writer) : List Bool := (List.range (bitCount w)).map (writtenBit w)

/-- A sequence of bits read as a binary number, first bit highest. -/
def bitsValue (bits : List Bool) : Nat := bits.foldl (fun n b => 2 * n + b.toNat) 0

/-- The exact lower end of the encoder's interval, in units of 2^-(bits written + pending + 48) of the whole range: the
bits written, the `pending` owed bits and `low` (41_arith_encoder.md R116 (c)). -/
def exactLow (e : Encoder) (w : Writer) : Nat :=
  bitsValue (writtenBits w) * 2 ^ (e.pending + 48) + (2 ^ e.pending - 1) * 2 ^ 47 + e.low.toNat

/-- The exact upper end, one past the highest value, in the same units. -/
def exactEnd (e : Encoder) (w : Writer) : Nat :=
  bitsValue (writtenBits w) * 2 ^ (e.pending + 48) + (2 ^ e.pending - 1) * 2 ^ 47 + e.high.toNat + 1

/-! ## Pixels and predictions, as 44_predictor.md R172 writes them -/

/-- Channel `c` of pixel `i`: the byte at 3·i + c (20_memory.md R41). -/
def channelAt (m : Memory) (i c : Nat) : Nat := (m.read (3 * i + c)).toNat

/-- Channel `c` of `predict(i)` for a known predictor (44_predictor.md R172). -/
def predictedChannel (pred : BitVec 16) (w : Nat) (m : Memory) (i c : Nat) : Nat :=
  if pred = 0#16 then
    if i = 0 then 0 else channelAt m (i - 1) c
  else
    if i % w = 0 ∧ i / w = 0 then 0
    else if i % w = 0 then channelAt m (i - w) c
    else if i / w = 0 then channelAt m (i - 1) c
    else (channelAt m (i - 1) c + channelAt m (i - w) c + channelAt m (i - w - 1) c) / 3

/-- One past the highest address of PIX that `predict(i)` reads for a known predictor, 0 if it reads none
(44_predictor.md R172, 20_memory.md R41). -/
def predictionEnd (pred : BitVec 16) (w i : Nat) : Nat :=
  if pred = 0#16 then 3 * i
  else
    if i % w = 0 ∧ i / w = 0 then 0
    else if i % w = 0 then 3 * (i - w) + 3
    else 3 * i

/-- Channel `c` of the residual of pixel `i` (44_predictor.md R175). -/
def residualChannel (pred : BitVec 16) (w : Nat) (m : Memory) (i c : Nat) : Nat :=
  (channelAt m i c + 256 - predictedChannel pred w m i c) % 256

/-- In canonical form, `after` holds the first `j` pixels rebuilt from the residuals `res` and the predictions of the grid
being rebuilt, and from there on what `before` holds (44_predictor.md R177, R183). -/
def Rebuilt (pred : BitVec 16) (w : Nat) (before : Memory) (res : List Byte) (after : Memory) (j : Nat) : Prop :=
  after.wf ∧ (∀ b, 3 * j ≤ b → after.read b = before.read b) ∧
  ∀ i, i < j → ∀ c, c < 3 →
    channelAt after i c = (predictedChannel pred w after i c + (res.getD (3 * i + c) 0#8).toNat) % 256

/-- `pack` of three channel values (00_scope.md R7). -/
def packChannels (c0 c1 c2 : Nat) : Word := BitVec.ofNat 64 (c0 * 65536 + c1 * 256 + c2)

/-! ## Commands one after the other -/

/-- Commands executed in order, each answering a next state. -/
def runCommands : List Instr → State → Host.Outcome State Fault Refusal
  | [], s => .next s
  | i :: rest, s =>
    match exec i s with
    | .next t => runCommands rest t
    | .fault f => .fault f
    | .refused r => .refused r

/-- The micro-operations that code a byte sequence as a whole stream (70_reset_and_hazards.md R285, point 3). -/
def encodeProgram (data : List Byte) : List Instr :=
  [.smInit, .bwInit, .aeInit] ++
  data.flatMap (fun b => [.aeEncode (b.setWidth 32), .smUpdate (b.setWidth 32)]) ++
  [.aeEncode 256#32, .smUpdate 256#32, .aeFinish]

/-- Coding a byte sequence leaves these as they were (45_stream_ops.md R205). -/
def SameOutsideCoding (s t : State) : Prop :=
  t.res = s.res ∧ t.pix = s.pix ∧ t.prPos = s.prPos ∧ t.ad = s.ad ∧ t.br = s.br ∧ t.x = s.x ∧ t.conf = s.conf

/-- The state in which the loop of `dec_bytes` starts (45_stream_ops.md R202). -/
def decodeStart (s : State) : State := clearRes (adInit ((smInit s).setBr BitReader.start))

/-- From `s`, symbol by symbol, the decoder and the model give the data symbols `data`, and end in `t`; RES is left as it
is (45_stream_ops.md R202). -/
inductive DecodesData : State → List Byte → State → Prop where
  | nil (s : State) : DecodesData s [] s
  | cons {s t u : State} {b : Byte} {rest : List Byte} (h : decSymbol s = .ok (b.toNat, t)) (more : DecodesData t rest u) :
      DecodesData s (b :: rest) u

/-- The same, and then the end-of-stream symbol, after which the state is `t`. -/
def DecodesTo (s : State) (data : List Byte) (t : State) : Prop :=
  ∃ u, DecodesData s data u ∧ decSymbol u = .ok (256, t)

end Sys2Proof.Machine
end

