-- ==== Sys2Proof/Certificates/Slice0/Obligations.lean ====
section
/-! DEFINITION. The statements for the provers. Each docstring names the rule it formalises; OBLIGATIONS.json lists them. -/

open Sys2Proof Sys2Proof.Machine

/-- Decoding the word of a well-formed command gives the command back (30_encoding.md R60, 30_encoding.md R61, 30_encoding.md R63). -/
def Obligations.DecodeOfEncodeIsIdentity : Prop :=
  ∀ i : Instr, i.WellFormed → decode (encode i) = .ok i

/-- A word the decoder accepts is exactly the word of the command it selects (30_encoding.md R60, 30_encoding.md R61, 30_encoding.md R63). -/
def Obligations.EncodeOfDecodeIsIdentity : Prop :=
  ∀ (w : Word) (i : Instr), decode w = .ok i → i.WellFormed ∧ encode i = w

/-- Every word is illegal, has an operand above its range, or selects a command (30_encoding.md R61, 30_encoding.md R62, 30_encoding.md R64). -/
def Obligations.DecoderSortsEveryWord : Prop :=
  ∀ w : Word,
    (IllegalWord w → ∃ r, decode w = .error r ∧ rejectCause r = .illegalCommand) ∧
    (¬IllegalWord w → OperandTooLarge w → ∃ r, decode w = .error r ∧ rejectCause r = .illegalOperand) ∧
    (¬IllegalWord w → ¬OperandTooLarge w → ∃ i, decode w = .ok i)

/-- Words written out in the spec decode to the commands they stand for (30_encoding.md R60, 30_encoding.md R63). -/
def Obligations.SpecWordsDecode : Prop :=
  decode 0x2100000000000100#64 = .ok (.aeEncode 256#32) ∧ decode 0x0300000000000280#64 = .ok (.csrWr .width 640#32) ∧
  decode 0x0302000000000001#64 = .ok (.csrWr .pred 1#32) ∧ decode 0x0221000000000000#64 = .ok (.csrRd .aeHigh) ∧
  decode 0x6100000000000010#64 = .ok (.decBytes 16#32) ∧ decode 0x5900000000000041#64 = .ok (.resPush 0x41#32) ∧
  decode 0x4100000000000001#64 = .ok (.bwPut 1#32) ∧ decode 0x5300000000000000#64 = .ok .prDec ∧
  decode 0x6300000000000000#64 = .ok .decGrid

/-- A step runs the command the host's next word decodes to (the host's list is the model's choice, log entry 1) (30_encoding.md R61, 20_memory.md R50). -/
def Obligations.StepRunsDecodedCommand : Prop :=
  ∀ (s : State) (w : Word) (rest : List HostAction) (i : Instr),
    s.host = .command w :: rest → decode w = .ok i → step s = exec i (s.setHost rest)

/-- A rejected word raises ILLEGAL_COMMAND or ILLEGAL_OPERAND and changes nothing else (30_encoding.md R61, 30_encoding.md R64, 60_exceptions.md R244). -/
def Obligations.StepFaultsOnRejectedWord : Prop :=
  ∀ (s : State) (w : Word) (rest : List HostAction) (r : Reject),
    s.host = .command w :: rest → decode w = .error r → s.flt.fault = false →
    step s = .next ((s.setHost rest).faulted (if r = .operandAboveRange then 2#8 else 1#8) w)

/-- In the fault state every word but NOP, RESET and CSR.RD is dropped with no effect (60_exceptions.md R245, 30_encoding.md R61). -/
def Obligations.FaultStateDropsWords : Prop :=
  ∀ (s : State) (w : Word) (rest : List HostAction),
    s.host = .command w :: rest → s.flt.fault = true →
    ((opField w ≠ 0x00#8 ∧ opField w ≠ 0x01#8 ∧ opField w ≠ 0x02#8) ∨ (∃ r, decode w = .error r)) →
    step s = .next (s.setHost rest)

/-- The first fault's record stays until a reset clears it (60_exceptions.md R245, 60_exceptions.md R247, 10_state.md R16). -/
def Obligations.OnlyResetLeavesFaultState : Prop :=
  ∀ s t : State, step s = .next t → s.flt.fault = true →
    (t.flt = s.flt ∧ s.host.head? ≠ some (.command 0x0100000000000000#64) ∧
      ∀ cells, s.host.head? ≠ some (.powerOn cells)) ∨
    (t.flt = ⟨false, 0#8, 0#64⟩ ∧
      (s.host.head? = some (.command 0x0100000000000000#64) ∨ ∃ cells, s.host.head? = some (.powerOn cells)))

/-- raise records the first fault with its code and command word, and a later one not at all (60_exceptions.md R241, 60_exceptions.md R244). -/
def Obligations.RaiseRecordsFirstFaultOnly : Prop :=
  ∀ (s : State) (w : Word),
    (s.flt.fault = false →
      raise .illegalCommand w s = s.faulted 1#8 w ∧ raise .illegalOperand w s = s.faulted 2#8 w ∧
      raise .sequenceError w s = s.faulted 3#8 w ∧ raise .formatUnknownPredictor w s = s.faulted 4#8 w ∧
      raise .modelInvariantViolation w s = s.faulted 7#8 w ∧ raise .lengthMismatch w s = s.faulted 8#8 w ∧
      raise .capacity w s = s.faulted 10#8 w) ∧
    (s.flt.fault = true → ∀ c, raise c w s = s)

/-- A micro-operation that faults changes only the fault record; no faulting command writes a result register (60_exceptions.md R244, 10_state.md R11, 92_eei_decisions.md D37). -/
def Obligations.FaultsArePreciseAndReturnNothing : Prop :=
  ∀ (i : Instr) (s t : State), s.flt.fault = false → exec i s = .next t → t.flt.fault = true →
    (t.x = s.x ∧ t.conf = s.conf ∧ t.flt.info = encode i) ∧
    (isMicroOp i = true → ∃ code, t = s.faulted code (encode i))

/-- A well-formed command faults only with a cause the table of R242 gives it (60_exceptions.md R242, 20_memory.md R49). -/
def Obligations.FaultCausesAsTabled : Prop :=
  ∀ (i : Instr) (s t : State), i.WellFormed → s.Inv → s.flt.fault = false → exec i s = .next t → t.flt.fault = true →
    t.flt.cause ∈ faultCodes i ∧ t.flt.cause ≠ 7#8

/-- With unbounded buffers no command raises CAPACITY (20_memory.md R49). -/
def Obligations.UnboundedBuffersNeverOverflow : Prop :=
  ∀ (i : Instr) (s t : State), s.Unbounded → s.flt.fault = false → exec i s = .next t → t.flt.fault = true →
    t.flt.cause ≠ 10#8

/-- Every command, in every state, ends in a next state (70_reset_and_hazards.md R300, 60_exceptions.md R244). -/
def Obligations.EveryCommandEnds : Prop :=
  ∀ (i : Instr) (s : State), ∃ t, exec i s = .next t

/-- Every step keeps the machine's invariant (10_state.md R26, 10_state.md R27, 10_state.md R28, 10_state.md R29, 41_arith_encoder.md R117, 42_arith_decoder.md R137, 60_exceptions.md R242). -/
def Obligations.StepKeepsInvariant : Prop :=
  ∀ s t : State, s.Inv → step s = .next t → t.Inv

/-- The reset state has the machine's invariant (70_reset_and_hazards.md R280, 10_state.md R26, 10_state.md R27). -/
def Obligations.ResetHasInvariant : Prop :=
  State.reset.Inv

/-- What reset leaves in every register and buffer (PIX reading 0 is the model's choice, log entry 2) (70_reset_and_hazards.md R280, 70_reset_and_hazards.md R282, 10_state.md R32). -/
def Obligations.ResetValues : Prop :=
  State.reset.freq = List.replicate 257 1 ∧
  State.reset.ae = { low := 0#48, high := 0xFFFFFFFFFFFF#48, pending := 0, done := false } ∧
  State.reset.ad = { low := 0#48, high := 0xFFFFFFFFFFFF#48, code := 0#48, primed := false, finished := false } ∧
  State.reset.x = ⟨0#64, 0#64, 0#64⟩ ∧ State.reset.conf = ⟨0#32, 0#32, 0#16⟩ ∧
  State.reset.flt = ⟨false, 0#8, 0#64⟩ ∧ State.reset.bw = ⟨0#8, 0⟩ ∧ State.reset.br = ⟨0, 0⟩ ∧
  State.reset.prPos = 0 ∧ State.reset.res = ⟨[], 0⟩ ∧ State.reset.bs = [] ∧
  ∀ a, State.reset.pix.read a = 0#8

/-- Only the commands of R11 write the result registers (10_state.md R11). -/
def Obligations.ResultRegistersWrittenAsTabled : Prop :=
  ∀ (i : Instr) (s t : State), exec i s = .next t →
    (writesX0 i = false → t.x.x0 = s.x.x0) ∧ (writesX12 i = false → t.x.x1 = s.x.x1 ∧ t.x.x2 = s.x.x2)

/-- Only the commands of R48 write PIX, RES and BS, and no command touches the host's list or the capacities (20_memory.md R48, 20_memory.md R53, 46_system_ops.md R221). -/
def Obligations.BuffersWrittenAsTabled : Prop :=
  ∀ (i : Instr) (s t : State), exec i s = .next t →
    (writesPix i = false → t.pix = s.pix) ∧ (writesRes i = false → t.res.bytes = s.res.bytes) ∧
    (writesBs i = false → t.bs = s.bs) ∧ t.host = s.host ∧ t.caps = s.caps

/-- The host's writes between commands become the state the next command starts from (refusals and the idle step are the model's choices, log entries 4 and 1) (20_memory.md R51). -/
def Obligations.HostMovesReachBuffers : Prop :=
  ∀ (s : State) (rest : List HostAction) (bytes : List Byte) (a : Nat),
    (s.host = .loadRes bytes :: rest → fits s.caps.resCap bytes.length = true →
      step s = .next ((s.setHost rest).setRes ⟨bytes, s.res.rcur⟩)) ∧
    (s.host = .loadRes bytes :: rest → fits s.caps.resCap bytes.length = false → step s = .refused .hostBeyondCapacity) ∧
    (s.host = .loadBs bytes :: rest → fits s.caps.bsCap bytes.length = true → step s = .next ((s.setHost rest).setBs bytes)) ∧
    (s.host = .loadBs bytes :: rest → fits s.caps.bsCap bytes.length = false → step s = .refused .hostBeyondCapacity) ∧
    (s.host = .storePix a bytes :: rest → s.pix.wf → bytes = [] ∨ fits s.caps.pixCap (a + bytes.length) = true →
      ∃ m, step s = .next ((s.setHost rest).setPix m) ∧ m.wf ∧
        ∀ b, m.read b = if a ≤ b ∧ b < a + bytes.length then bytes.getD (b - a) 0#8 else s.pix.read b) ∧
    (s.host = .storePix a bytes :: rest → bytes ≠ [] → fits s.caps.pixCap (a + bytes.length) = false →
      step s = .refused .hostBeyondCapacity) ∧
    (s.host = [] → step s = .next s)

/-- Power-on takes any contents of PIX and resets the rest (a byte given none reads 0 and the refusal: the model's choices, log entries 2, 4) (70_reset_and_hazards.md R280, 10_state.md R32). -/
def Obligations.PowerOnTakesAnyPix : Prop :=
  ∀ (s : State) (rest : List HostAction) (cells : List Host.Cell), s.host = .powerOn cells :: rest →
    ((∀ c ∈ cells, fits s.caps.pixCap (c.1 + 1) = true) →
      ∃ m, step s = .next (((State.reset.setPix m).withCaps s.caps).setHost rest) ∧ m.wf ∧
        ∀ a, m.read a = ((cells.reverse.find? (fun c => c.1 == a)).map Prod.snd).getD 0#8) ∧
    (∀ c ∈ cells, fits s.caps.pixCap (c.1 + 1) = false → step s = .refused .hostBeyondCapacity)

/-- NOP is the all-zero word and changes nothing, in the fault state too (R220). -/
def Obligations.NopDoesNothing : Prop :=
  decode 0#64 = .ok .nop ∧
  (∀ w : Word, opField w = 0x00#8 → w ≠ 0#64 → ∃ r, decode w = .error r ∧ rejectCause r = .illegalCommand) ∧
  ∀ s : State, exec .nop s = .next s

/-- RESET gives every element of state its reset value except PIX (46_system_ops.md R221, 60_exceptions.md R247). -/
def Obligations.ResetRestoresAllButPix : Prop :=
  ∀ s : State, exec .reset s = .next { State.reset with pix := s.pix, caps := s.caps, host := s.host }

/-- CSR.RD puts each register's content in x[0] and changes nothing else, in the fault state too (10_state.md R20, 10_state.md R22, 10_state.md R23, 46_system_ops.md R222). -/
def Obligations.CsrReadsAsTabled : Prop :=
  ∀ s : State, ∀ row ∈ ([(.width, 0x00#8, s.conf.width.toNat), (.height, 0x01#8, s.conf.height.toNat),
    (.pred, 0x02#8, s.conf.pred.toNat), (.channels, 0x03#8, 3), (.precision, 0x04#8, 48), (.maxTotal, 0x05#8, 65535),
    (.nsym, 0x06#8, 257), (.eosSym, 0x07#8, 256),
    (.status, 0x08#8, s.flt.fault.toNat + 2 * s.ae.done.toNat + 4 * s.ad.primed.toNat + 8 * s.ad.finished.toNat),
    (.cause, 0x09#8, s.flt.cause.toNat), (.info, 0x0A#8, s.flt.info.toNat), (.smTotal, 0x10#8, (s.freq.take 257).sum),
    (.aeLow, 0x20#8, s.ae.low.toNat), (.aeHigh, 0x21#8, s.ae.high.toNat), (.aePending, 0x22#8, s.ae.pending),
    (.adLow, 0x28#8, s.ad.low.toNat), (.adHigh, 0x29#8, s.ad.high.toNat), (.adCode, 0x2A#8, s.ad.code.toNat),
    (.bwAcc, 0x30#8, s.bw.acc.toNat), (.bwNbits, 0x31#8, s.bw.nbits.val), (.bsLen, 0x32#8, s.bs.length),
    (.brPos, 0x38#8, s.br.pos), (.brPast, 0x39#8, s.br.past), (.prPos, 0x40#8, s.prPos),
    (.resLen, 0x41#8, s.res.bytes.length), (.resRcur, 0x42#8, s.res.rcur)] : List (Csr × BitVec 8 × Nat)),
    row.1.number = row.2.1 ∧ exec (.csrRd row.1) s = .next (s.setX0 (BitVec.ofNat 64 row.2.2))

/-- CSR.WR stores the value in WIDTH, HEIGHT or PRED and changes nothing else (a term for no legal word faults as its word does: the model's choice, log entry 6) (46_system_ops.md R223, 10_state.md R21). -/
def Obligations.CsrWriteStoresValue : Prop :=
  ∀ (s : State) (v : Imm), s.flt.fault = false →
    exec (.csrWr .width v) s = .next (s.setConf ⟨v, s.conf.height, s.conf.pred⟩) ∧
    exec (.csrWr .height v) s = .next (s.setConf ⟨s.conf.width, v, s.conf.pred⟩) ∧
    (v.toNat ≤ 65535 →
      exec (.csrWr .pred v) s = .next (s.setConf ⟨s.conf.width, s.conf.height, BitVec.ofNat 16 v.toNat⟩)) ∧
    (65535 < v.toNat → exec (.csrWr .pred v) s = .next (s.faulted 2#8 (encode (.csrWr .pred v)))) ∧
    ∀ r : Csr, r ≠ .width → r ≠ .height → r ≠ .pred →
      exec (.csrWr r v) s = .next (s.faulted 1#8 (encode (.csrWr r v)))

/-- SM.INIT makes every count 1, so cum(k) = k and total = 257 (R92). -/
def Obligations.SmInitGivesFreshModel : Prop :=
  (∀ s : State, s.flt.fault = false → exec .smInit s = .next (s.setFreq (List.replicate 257 1))) ∧
  ∀ k, k ≤ 257 → cum (List.replicate 257 1) k = k

/-- SM.RANGE returns the symbol's non-empty slice and the total (40_symbol_model.md R91, 40_symbol_model.md R93, 40_symbol_model.md R98). -/
def Obligations.SmRangeReturnsSlice : Prop :=
  ∀ (s : State) (sym : Imm), s.flt.fault = false → ModelOk s.freq →
    (sym.toNat ≤ 256 →
      exec (.smRange sym) s = .next (s.setX ⟨BitVec.ofNat 64 (s.freq.take sym.toNat).sum,
        BitVec.ofNat 64 (s.freq.take (sym.toNat + 1)).sum, BitVec.ofNat 64 (s.freq.take 257).sum⟩) ∧
      (s.freq.take sym.toNat).sum < (s.freq.take (sym.toNat + 1)).sum ∧
      (s.freq.take (sym.toNat + 1)).sum ≤ (s.freq.take 257).sum) ∧
    (256 < sym.toNat → exec (.smRange sym) s = .next (s.faulted 2#8 (encode (.smRange sym))))

/-- SM.FIND returns the one symbol whose slice holds the value (40_symbol_model.md R94, 40_symbol_model.md R95, 40_symbol_model.md R99). -/
def Obligations.SmFindInvertsRange : Prop :=
  ∀ (s : State) (v : Imm), s.flt.fault = false → ModelOk s.freq →
    (v.toNat < (s.freq.take 257).sum →
      ∃ sym, sym ≤ 256 ∧ (s.freq.take sym).sum ≤ v.toNat ∧ v.toNat < (s.freq.take (sym + 1)).sum ∧
        (∀ k, k ≤ 256 → (s.freq.take k).sum ≤ v.toNat → v.toNat < (s.freq.take (k + 1)).sum → k = sym) ∧
        exec (.smFind v) s = .next (s.setX0 (BitVec.ofNat 64 sym))) ∧
    ((s.freq.take 257).sum ≤ v.toNat → exec (.smFind v) s = .next (s.faulted 2#8 (encode (.smFind v))))

/-- SM.UPDATE adds 1 to the symbol's count and halves all counts once past the threshold (40_symbol_model.md R96, 40_symbol_model.md R100, 10_state.md R26). -/
def Obligations.SmUpdateCountsAndRescales : Prop :=
  ∀ (s : State) (sym : Imm), s.flt.fault = false → s.freq.length = 257 →
    (sym.toNat ≤ 256 →
      ∃ f : List Nat, exec (.smUpdate sym) s = .next (s.setFreq f) ∧ f.length = 257 ∧ (ModelOk s.freq → ModelOk f) ∧
        ∀ j, j < 257 →
          f.getD j 0 =
            if 65535 < s.freq.sum + 1 then max 1 ((s.freq.getD j 0 + if j = sym.toNat then 1 else 0) / 2)
            else s.freq.getD j 0 + if j = sym.toNat then 1 else 0) ∧
    (256 < sym.toNat → exec (.smUpdate sym) s = .next (s.faulted 2#8 (encode (.smUpdate sym))))

/-- A total above MAX_TOTAL raises MODEL_INVARIANT_VIOLATION before anything changes (40_symbol_model.md R93, 41_arith_encoder.md R114, 42_arith_decoder.md R138). -/
def Obligations.OverfullModelIsRefusedByCoders : Prop :=
  ∀ (s : State) (sym : Imm), s.flt.fault = false → 65535 < (s.freq.take 257).sum → sym.toNat ≤ 256 →
    exec (.smRange sym) s = .next (s.faulted 7#8 (encode (.smRange sym))) ∧
    (s.ae.done = false → exec (.aeEncode sym) s = .next (s.faulted 7#8 (encode (.aeEncode sym)))) ∧
    (s.ad.primed = true → s.ad.finished = false → exec .adDecode s = .next (s.faulted 7#8 (encode .adDecode)))

/-- AE.INIT sets low 0, high 2^48 - 1, pending 0, done 0, and touches nothing else (R111). -/
def Obligations.AeInitStartsFullInterval : Prop :=
  ∀ s : State, s.flt.fault = false →
    exec .aeInit s = .next (s.setAe { low := 0#48, high := 0xFFFFFFFFFFFF#48, pending := 0, done := false })

/-- AE.ENCODE is exact interval narrowing, or raises CAPACITY when BS has no room for what it writes (41_arith_encoder.md R112, 41_arith_encoder.md R113, 41_arith_encoder.md R115, 41_arith_encoder.md R116, 41_arith_encoder.md R117, 20_memory.md R49). -/
def Obligations.AeEncodeNarrowsExactly : Prop :=
  ∀ (s : State) (sym : Imm), s.flt.fault = false → ModelOk s.freq → s.ae.done = false →
    IntervalOk s.ae.toInterval → sym.toNat ≤ 256 →
    ∃ (e : Encoder) (w : Writer) (k : Nat),
      (AppendsFit s.caps.bsCap s.bs.length w.bs.length → exec (.aeEncode sym) s = .next ((s.setAe e).setWriter w)) ∧
      (¬AppendsFit s.caps.bsCap s.bs.length w.bs.length →
        exec (.aeEncode sym) s = .next (s.faulted 10#8 (encode (.aeEncode sym)))) ∧
      k ≤ 48 ∧ e.done = false ∧ IntervalOk e.toInterval ∧
      writtenBits s.writer <+: writtenBits w ∧
      bitCount w + e.pending = bitCount s.writer + s.ae.pending + k ∧
      exactLow e w = 2 ^ k * (exactLow s.ae s.writer +
        (s.ae.high.toNat - s.ae.low.toNat + 1) * (s.freq.take sym.toNat).sum / (s.freq.take 257).sum) ∧
      exactEnd e w = 2 ^ k * (exactLow s.ae s.writer +
        (s.ae.high.toNat - s.ae.low.toNat + 1) * (s.freq.take (sym.toNat + 1)).sum / (s.freq.take 257).sum)

/-- AE.FINISH writes b, its complement pending + 1 times, then zero bits to a byte boundary, or raises CAPACITY (41_arith_encoder.md R119, 41_arith_encoder.md R122, 20_memory.md R49). -/
def Obligations.AeFinishWritesDisambiguatingBits : Prop :=
  ∀ s : State, s.flt.fault = false → s.ae.done = false →
    ∃ (bs : List Byte) (pad : Nat),
      (fits s.caps.bsCap bs.length = true → exec .aeFinish s = .next
        (((s.setAe { low := s.ae.low, high := s.ae.high, pending := 0, done := true }).setBw ⟨0#8, 0⟩).setBs bs)) ∧
      (fits s.caps.bsCap bs.length = false → exec .aeFinish s = .next (s.faulted 10#8 (encode .aeFinish))) ∧
      pad < 8 ∧
      writtenBits ⟨0#8, 0, bs⟩ = writtenBits s.writer ++ [decide (2 ^ 46 ≤ s.ae.low.toNat)] ++
        List.replicate (s.ae.pending + 1) (!decide (2 ^ 46 ≤ s.ae.low.toNat)) ++ List.replicate pad false

/-- Coding after the finish, and decoding before priming or after end of stream, raise SEQUENCE_ERROR (41_arith_encoder.md R121, 41_arith_encoder.md R122, 42_arith_decoder.md R138, 70_reset_and_hazards.md R292). -/
def Obligations.CodersOutOfSequence : Prop :=
  ∀ (s : State) (sym : Imm), s.flt.fault = false →
    (s.ae.done = true → sym.toNat ≤ 256 → exec (.aeEncode sym) s = .next (s.faulted 3#8 (encode (.aeEncode sym)))) ∧
    (s.ae.done = true → exec .aeFinish s = .next (s.faulted 3#8 (encode .aeFinish))) ∧
    (256 < sym.toNat → exec (.aeEncode sym) s = .next (s.faulted 2#8 (encode (.aeEncode sym)))) ∧
    (s.ad.primed = false ∨ s.ad.finished = true → exec .adDecode s = .next (s.faulted 3#8 (encode .adDecode)))

/-- AD.INIT reads 48 bits from BR.pos on into code, first bit highest, zeros past the end (42_arith_decoder.md R131, 42_arith_decoder.md R139, 43_bitstream.md R156). -/
def Obligations.AdInitPrimesFromStream : Prop :=
  ∀ s : State, s.flt.fault = false →
    ∃ code : Bound,
      exec .adInit s = .next ((s.setAd { low := 0#48, high := 0xFFFFFFFFFFFF#48, code := code, primed := true, finished := false }).setBr
        ⟨s.br.pos + 48, s.br.past + bitsBeyond s.bs s.br.pos 48⟩) ∧
      ∀ k, k < 48 → code.getLsbD (47 - k) = streamBit s.bs (s.br.pos + k)

/-- AD.DECODE returns the symbol whose narrowed interval holds code, and scales interval and code alike (42_arith_decoder.md R132, 42_arith_decoder.md R133, 42_arith_decoder.md R134, 42_arith_decoder.md R135, 42_arith_decoder.md R136, 42_arith_decoder.md R137, 42_arith_decoder.md R138). -/
def Obligations.AdDecodeFindsSymbolOfCode : Prop :=
  ∀ s : State, s.flt.fault = false → s.ad.primed = true → s.ad.finished = false → ModelOk s.freq →
    IntervalOk s.ad.toInterval → s.ad.low.toNat ≤ s.ad.code.toNat → s.ad.code.toNat ≤ s.ad.high.toNat →
    let bound := fun k =>
      s.ad.low.toNat + (s.ad.high.toNat - s.ad.low.toNat + 1) * (s.freq.take k).sum / (s.freq.take 257).sum
    ∃ (sym n m : Nat) (d : Decoder),
      sym ≤ 256 ∧ n ≤ 48 ∧
      exec .adDecode s = .next (((s.setAd d).setBr ⟨s.br.pos + n, s.br.past + bitsBeyond s.bs s.br.pos n⟩).setX0
        (BitVec.ofNat 64 sym)) ∧
      bound sym ≤ s.ad.code.toNat ∧ s.ad.code.toNat < bound (sym + 1) ∧
      d.low.toNat + m * 2 ^ 47 = 2 ^ n * bound sym ∧
      d.high.toNat + 1 + m * 2 ^ 47 = 2 ^ n * bound (sym + 1) ∧
      d.code.toNat + m * 2 ^ 47 = 2 ^ n * s.ad.code.toNat + bitsValue (streamBits s.bs s.br.pos n) ∧
      d.primed = true ∧ d.finished = decide (sym = 256) ∧ IntervalOk d.toInterval ∧
      d.low.toNat ≤ d.code.toNat ∧ d.code.toNat ≤ d.high.toNat

/-- Decoding a symbol and encoding it move the interval alike (42_arith_decoder.md R134, 42_arith_decoder.md R135, 45_stream_ops.md R210). -/
def Obligations.DecodeMirrorsEncode : Prop :=
  ∀ s t u : State, s.flt.fault = false → s.ad.toInterval = s.ae.toInterval → ModelOk s.freq →
    exec .adDecode s = .next t → t.flt.fault = false →
    exec (.aeEncode (t.x.x0.setWidth 32)) s = .next u → u.flt.fault = false →
    t.ad.toInterval = u.ae.toInterval

/-- AD.FINISHED returns AD.finished in x[0] and changes nothing else (42_arith_decoder.md R140). -/
def Obligations.AdFinishedReturnsFlag : Prop :=
  ∀ s : State, s.flt.fault = false → exec .adFinished s = .next (s.setX0 (if s.ad.finished then 1#64 else 0#64))

/-- BW.INIT empties BS and the byte being assembled (R151). -/
def Obligations.BwInitEmpties : Prop :=
  ∀ s : State, s.flt.fault = false → exec .bwInit s = .next ((s.setBw ⟨0#8, 0⟩).setBs [])

/-- BW.PUT writes one bit after the bits written so far; the eighth completes a byte of BS (43_bitstream.md R152, 43_bitstream.md R159, 20_memory.md R49). -/
def Obligations.BwPutAppendsBit : Prop :=
  ∀ (s : State) (b : Imm), s.flt.fault = false →
    (b.toNat ≤ 1 → ∀ h : s.bw.nbits.val + 1 < 8,
      exec (.bwPut b) s = .next (s.setBw ⟨s.bw.acc <<< 1 ||| b.setWidth 8, ⟨s.bw.nbits.val + 1, h⟩⟩) ∧
      writtenBits ⟨s.bw.acc <<< 1 ||| b.setWidth 8, ⟨s.bw.nbits.val + 1, h⟩, s.bs⟩ = writtenBits s.writer ++ [decide (b = 1#32)]) ∧
    (b.toNat ≤ 1 → s.bw.nbits.val = 7 → fits s.caps.bsCap (s.bs.length + 1) = true →
      exec (.bwPut b) s = .next ((s.setBw ⟨0#8, 0⟩).setBs (s.bs ++ [s.bw.acc <<< 1 ||| b.setWidth 8])) ∧
      writtenBits ⟨0#8, 0, s.bs ++ [s.bw.acc <<< 1 ||| b.setWidth 8]⟩ = writtenBits s.writer ++ [decide (b = 1#32)]) ∧
    (b.toNat ≤ 1 → s.bw.nbits.val = 7 → fits s.caps.bsCap (s.bs.length + 1) = false →
      exec (.bwPut b) s = .next (s.faulted 10#8 (encode (.bwPut b)))) ∧
    (1 < b.toNat → exec (.bwPut b) s = .next (s.faulted 2#8 (encode (.bwPut b))))

/-- BW.FINISH pads a partial byte with zero bits and appends it, and does nothing on a byte boundary (43_bitstream.md R153, 43_bitstream.md R160). -/
def Obligations.BwFinishPadsToByte : Prop :=
  ∀ s : State, s.flt.fault = false →
    (s.bw.nbits.val = 0 → exec .bwFinish s = .next s) ∧
    (s.bw.nbits.val ≠ 0 → fits s.caps.bsCap (s.bs.length + 1) = true →
      exec .bwFinish s = .next ((s.setBw ⟨0#8, 0⟩).setBs (s.bs ++ [s.bw.acc <<< (8 - s.bw.nbits.val)]))) ∧
    (s.bw.nbits.val ≠ 0 → fits s.caps.bsCap (s.bs.length + 1) = false →
      exec .bwFinish s = .next (s.faulted 10#8 (encode .bwFinish)))

/-- BR.INIT sets BR.pos and BR.past to 0 and leaves BS (R155). -/
def Obligations.BrInitRewinds : Prop :=
  ∀ s : State, s.flt.fault = false → exec .brInit s = .next (s.setBr ⟨0, 0⟩)

/-- BR.GET returns the stream bit at BR.pos, or 0 past the end, and advances (R156). -/
def Obligations.BrGetReadsStreamBit : Prop :=
  ∀ s : State, s.flt.fault = false →
    (∀ h : s.br.pos / 8 < s.bs.length,
      exec .brGet s = .next ((s.setBr ⟨s.br.pos + 1, s.br.past⟩).setX0
        (if (s.bs[s.br.pos / 8]'h).getLsbD (7 - s.br.pos % 8) then 1#64 else 0#64))) ∧
    (s.bs.length ≤ s.br.pos / 8 → exec .brGet s = .next ((s.setBr ⟨s.br.pos + 1, s.br.past + 1⟩).setX0 0#64))

/-- PR.INIT sets the two cursors to 0; RES.CLR empties RES and its cursor (44_predictor.md R178, 44_predictor.md R184). -/
def Obligations.PrInitAndResClrRewind : Prop :=
  ∀ s : State, s.flt.fault = false →
    exec .prInit s = .next ((s.setPrPos 0).setRes ⟨s.res.bytes, 0⟩) ∧ exec .resClr s = .next (s.setRes ⟨[], 0⟩)

/-- RES.PUSH appends its byte, or raises CAPACITY or ILLEGAL_OPERAND (44_predictor.md R185, 20_memory.md R42, 20_memory.md R49). -/
def Obligations.ResPushAppendsByte : Prop :=
  ∀ (s : State) (b : Imm), s.flt.fault = false →
    (b.toNat ≤ 255 → fits s.caps.resCap (s.res.bytes.length + 1) = true →
      exec (.resPush b) s = .next (s.setRes ⟨s.res.bytes ++ [BitVec.ofNat 8 b.toNat], s.res.rcur⟩)) ∧
    (b.toNat ≤ 255 → fits s.caps.resCap (s.res.bytes.length + 1) = false →
      exec (.resPush b) s = .next (s.faulted 10#8 (encode (.resPush b)))) ∧
    (255 < b.toNat → exec (.resPush b) s = .next (s.faulted 2#8 (encode (.resPush b))))

/-- PR.PREDICT returns the Left or Average prediction of the pixel at PR.pos (CAPACITY for a neighbour beyond PIX is DEDUCED, log entry 5) (44_predictor.md R172, 44_predictor.md R173, 44_predictor.md R174, 44_predictor.md R179, 20_memory.md R49). -/
def Obligations.PrPredictReturnsPrediction : Prop :=
  ∀ s : State, s.flt.fault = false → s.prPos < s.conf.width.toNat * s.conf.height.toNat →
    (s.conf.pred = 0#16 ∨ s.conf.pred = 1#16) →
    let fit := fits s.caps.pixCap (predictionEnd s.conf.pred s.conf.width.toNat s.prPos)
    (fit = true → exec .prPredict s = .next (s.setX0 (packChannels
      (predictedChannel s.conf.pred s.conf.width.toNat s.pix s.prPos 0)
      (predictedChannel s.conf.pred s.conf.width.toNat s.pix s.prPos 1)
      (predictedChannel s.conf.pred s.conf.width.toNat s.pix s.prPos 2)))) ∧
    (fit = false → exec .prPredict s = .next (s.faulted 10#8 (encode .prPredict))) ∧
    (s.Inv → fit = true)

/-- PR.ENC appends the three residuals of the pixel at PR.pos and advances, or raises CAPACITY (44_predictor.md R175, 44_predictor.md R176, 44_predictor.md R180, 20_memory.md R49). -/
def Obligations.PrEncAppendsResiduals : Prop :=
  ∀ s : State, s.flt.fault = false → s.prPos < s.conf.width.toNat * s.conf.height.toNat →
    (s.conf.pred = 0#16 ∨ s.conf.pred = 1#16) →
    let r := residualChannel s.conf.pred s.conf.width.toNat s.pix s.prPos
    let fit := fits s.caps.pixCap (3 * s.prPos + 3) && fits s.caps.resCap (s.res.bytes.length + 3)
    (fit = true → exec .prEnc s = .next (((s.setRes
      ⟨s.res.bytes ++ [BitVec.ofNat 8 (r 0), BitVec.ofNat 8 (r 1), BitVec.ofNat 8 (r 2)], s.res.rcur⟩).setPrPos
        (s.prPos + 1)).setX0 (packChannels (r 0) (r 1) (r 2)))) ∧
    (fit = false → exec .prEnc s = .next (s.faulted 10#8 (encode .prEnc)))

/-- PR.DEC writes the three bytes of the pixel at PR.pos, and no other byte of PIX, and advances, or raises CAPACITY (44_predictor.md R175, 44_predictor.md R177, 44_predictor.md R181, 20_memory.md R41, 20_memory.md R49). -/
def Obligations.PrDecRestoresPixel : Prop :=
  ∀ s : State, s.flt.fault = false → s.pix.wf →
    s.prPos < s.conf.width.toNat * s.conf.height.toNat → s.res.rcur + 3 ≤ s.res.bytes.length →
    (s.conf.pred = 0#16 ∨ s.conf.pred = 1#16) →
    let a := fun c => (predictedChannel s.conf.pred s.conf.width.toNat s.pix s.prPos c +
      (s.res.bytes.getD (s.res.rcur + c) 0#8).toNat) % 256
    (fits s.caps.pixCap (3 * s.prPos + 3) = true →
      ∃ m : Memory,
        exec .prDec s = .next ((((s.setPix m).setRes ⟨s.res.bytes, s.res.rcur + 3⟩).setPrPos (s.prPos + 1)).setX0
          (packChannels (a 0) (a 1) (a 2))) ∧
        m.wf ∧ (∀ c, c < 3 → (m.read (3 * s.prPos + c)).toNat = a c) ∧
        ∀ b, (b < 3 * s.prPos ∨ 3 * s.prPos + 3 ≤ b) → m.read b = s.pix.read b) ∧
    (fits s.caps.pixCap (3 * s.prPos + 3) = false → exec .prDec s = .next (s.faulted 10#8 (encode .prDec)))

/-- PR.FWD replaces RES by the residuals of the whole grid in raster order, or raises CAPACITY at the first pixel without room (44_predictor.md R182, 44_predictor.md R176, 30_encoding.md R73, 20_memory.md R49, 60_exceptions.md R244). -/
def Obligations.PrFwdMakesResiduals : Prop :=
  ∀ s : State, s.flt.fault = false → (s.conf.pred = 0#16 ∨ s.conf.pred = 1#16) →
    let n := s.conf.width.toNat * s.conf.height.toNat
    let fit := fun k => fits s.caps.pixCap (3 * k) && fits s.caps.resCap (3 * k)
    ∃ (j : Nat) (bytes : List Byte),
      (fit n = true → j = n ∧ exec .prFwd s = .next ((s.setRes ⟨bytes, 0⟩).setPrPos n)) ∧
      (fit n = false → j < n ∧ fit j = true ∧ fit (j + 1) = false ∧
        exec .prFwd s = .next (((s.setRes ⟨bytes, 0⟩).setPrPos j).faulted 10#8 (encode .prFwd))) ∧
      bytes.length = 3 * j ∧
      ∀ i, i < j → ∀ c, c < 3 →
        (bytes.getD (3 * i + c) 0#8).toNat = residualChannel s.conf.pred s.conf.width.toNat s.pix i c

/-- PR.INV rebuilds the grid from RES, predicting from the grid being rebuilt, or raises LENGTH_MISMATCH or CAPACITY (44_predictor.md R183, 44_predictor.md R177, 20_memory.md R54, 20_memory.md R49, 60_exceptions.md R244). -/
def Obligations.PrInvRestoresGrid : Prop :=
  ∀ s : State, s.flt.fault = false → s.pix.wf → (s.conf.pred = 0#16 ∨ s.conf.pred = 1#16) →
    let n := s.conf.width.toNat * s.conf.height.toNat
    (s.res.bytes.length = 3 * n →
      ∃ (j : Nat) (m : Memory),
        (fits s.caps.pixCap (3 * n) = true →
          j = n ∧ exec .prInv s = .next (((s.setPix m).setRes ⟨s.res.bytes, 3 * n⟩).setPrPos n)) ∧
        (fits s.caps.pixCap (3 * n) = false →
          j < n ∧ fits s.caps.pixCap (3 * j) = true ∧ fits s.caps.pixCap (3 * (j + 1)) = false ∧
          exec .prInv s = .next ((((s.setPix m).setRes ⟨s.res.bytes, 3 * j⟩).setPrPos j).faulted 10#8 (encode .prInv))) ∧
        Rebuilt s.conf.pred s.conf.width.toNat s.pix s.res.bytes m j) ∧
    (s.res.bytes.length ≠ 3 * n → exec .prInv s = .next (s.faulted 8#8 (encode .prInv)))

/-- PR.INV after PR.FWD leaves the same pixels, whatever overwrote PIX in between (R187). -/
def Obligations.PrInvUndoesPrFwd : Prop :=
  ∀ (s t : State) (m : Memory), s.flt.fault = false → m.wf → exec .prFwd s = .next t → t.flt.fault = false →
    ∃ u, exec .prInv (t.setPix m) = .next u ∧ u.flt.fault = false ∧
      ∀ b, b < 3 * (s.conf.width.toNat * s.conf.height.toNat) → u.pix.read b = s.pix.read b

/-- A predictor id other than 0 and 1 raises FORMAT_UNKNOWN_PREDICTOR before anything changes (44_predictor.md R172, 44_predictor.md R182, 44_predictor.md R183, 45_stream_ops.md R203, 45_stream_ops.md R204). -/
def Obligations.UnknownPredictorFaults : Prop :=
  ∀ s : State, s.flt.fault = false → s.conf.pred ≠ 0#16 → s.conf.pred ≠ 1#16 →
    exec .prFwd s = .next (s.faulted 4#8 (encode .prFwd)) ∧ exec .prInv s = .next (s.faulted 4#8 (encode .prInv)) ∧
    exec .encGrid s = .next (s.faulted 4#8 (encode .encGrid)) ∧ exec .decGrid s = .next (s.faulted 4#8 (encode .decGrid)) ∧
    (s.prPos < s.conf.width.toNat * s.conf.height.toNat →
      exec .prPredict s = .next (s.faulted 4#8 (encode .prPredict)) ∧ exec .prEnc s = .next (s.faulted 4#8 (encode .prEnc)) ∧
      (s.res.rcur + 3 ≤ s.res.bytes.length → exec .prDec s = .next (s.faulted 4#8 (encode .prDec))))

/-- The per-pixel commands raise SEQUENCE_ERROR with no pixel left, PR.DEC also with too few residuals (44_predictor.md R179, 44_predictor.md R180, 44_predictor.md R181). -/
def Obligations.PixelCommandsOutOfSequence : Prop :=
  ∀ s : State, s.flt.fault = false →
    (s.conf.width.toNat * s.conf.height.toNat ≤ s.prPos →
      exec .prPredict s = .next (s.faulted 3#8 (encode .prPredict)) ∧ exec .prEnc s = .next (s.faulted 3#8 (encode .prEnc)) ∧
      exec .prDec s = .next (s.faulted 3#8 (encode .prDec))) ∧
    (s.res.bytes.length < s.res.rcur + 3 → exec .prDec s = .next (s.faulted 3#8 (encode .prDec)))

/-- ENC.BYTES reaches the state its micro-operations reach one by one, or raises CAPACITY where they do (45_stream_ops.md R201, 45_stream_ops.md R205, 70_reset_and_hazards.md R285, 20_memory.md R49, 60_exceptions.md R244). -/
def Obligations.EncBytesIsTheMicroOperations : Prop :=
  ∀ s : State, s.flt.fault = false →
    ∃ t, runCommands (encodeProgram s.res.bytes) (s.withCaps ⟨none, none, none⟩) = .next t ∧
      t.flt.fault = false ∧ t.ae.done = true ∧ t.bw = ⟨0#8, 0⟩ ∧ SameOutsideCoding s t ∧
      (fits s.caps.bsCap t.bs.length = true →
        runCommands (encodeProgram s.res.bytes) s = .next (t.withCaps s.caps) ∧
        exec .encBytes s = .next ((t.withCaps s.caps).setX0 (BitVec.ofNat 64 t.bs.length))) ∧
      (fits s.caps.bsCap t.bs.length = false →
        ∃ u, runCommands (encodeProgram s.res.bytes) s = .next u ∧ u.flt.fault = true ∧ u.flt.cause = 10#8 ∧
          fits s.caps.bsCap u.bs.length = true ∧ SameOutsideCoding s u ∧
          exec .encBytes s = .next (u.setFlt ⟨true, 10#8, encode .encBytes⟩))

/-- ENC.GRID is PR.FWD followed by ENC.BYTES, and raises CAPACITY where one of them does (45_stream_ops.md R203, 45_stream_ops.md R207, 20_memory.md R49, 60_exceptions.md R244). -/
def Obligations.EncGridIsForwardThenBytes : Prop :=
  ∀ s : State, s.flt.fault = false → (s.conf.pred = 0#16 ∨ s.conf.pred = 1#16) →
    let n := s.conf.width.toNat * s.conf.height.toNat
    let fit := fits s.caps.pixCap (3 * n) && fits s.caps.resCap (3 * n)
    ∃ t u, exec .prFwd s = .next t ∧ exec .encBytes t = .next u ∧ (t.flt.fault = false ↔ fit = true) ∧
      (u.flt.fault = false → exec .encGrid s = .next u) ∧
      (u.flt.fault = true → exec .encGrid s = .next (u.setFlt ⟨true, 10#8, encode .encGrid⟩)) ∧
      (fit = true → s.caps.bsCap = none → exec .encGrid s = .next u ∧ u.flt.fault = false)

/-- The coded bytes of ENC.GRID depend on the pixels, W, H and PRED alone (41_arith_encoder.md R123). -/
def Obligations.EncGridIsDeterminedByTheImage : Prop :=
  ∀ s s' t t' : State, s.flt.fault = false → s'.flt.fault = false → s.conf = s'.conf →
    (∀ b, b < 3 * (s.conf.width.toNat * s.conf.height.toNat) → s.pix.read b = s'.pix.read b) →
    exec .encGrid s = .next t → t.flt.fault = false → exec .encGrid s' = .next t' → t'.flt.fault = false →
    t.bs = t'.bs

/-- DEC.BYTES completes when the stream ends within the limit and RES, and raises LENGTH_MISMATCH or CAPACITY at the symbol too many (45_stream_ops.md R202, 45_stream_ops.md R206, 20_memory.md R49, 60_exceptions.md R244). -/
def Obligations.DecBytesFollowsTheDecoder : Prop :=
  ∀ (s t : State) (data : List Byte) (limit : Imm), s.flt.fault = false →
    (DecodesTo (decodeStart s) data t → data.length ≤ limit.toNat → fits s.caps.resCap data.length = true →
      exec (.decBytes limit) s = .next ((t.setRes ⟨data, 0⟩).setX0 (BitVec.ofNat 64 data.length))) ∧
    (DecodesData (decodeStart s) data t → data.length = limit.toNat + 1 → fits s.caps.resCap limit.toNat = true →
      exec (.decBytes limit) s = .next ((t.setRes ⟨data.dropLast, 0⟩).faulted 8#8 (encode (.decBytes limit)))) ∧
    (DecodesData (decodeStart s) data t → data.length ≤ limit.toNat →
      fits s.caps.resCap (data.length - 1) = true → fits s.caps.resCap data.length = false →
      exec (.decBytes limit) s = .next ((t.setRes ⟨data.dropLast, 0⟩).faulted 10#8 (encode (.decBytes limit))))

/-- DEC.BYTES ends on every content of BS: with the data, with LENGTH_MISMATCH at the limit, or with CAPACITY at the end of RES (45_stream_ops.md R202, 45_stream_ops.md R206, 42_arith_decoder.md R141, 20_memory.md R49). -/
def Obligations.DecBytesEndsOnAnyStream : Prop :=
  ∀ (s : State) (limit : Imm), s.flt.fault = false →
    ∃ t, exec (.decBytes limit) s = .next t ∧
      ((t.flt = s.flt ∧ t.ad.finished = true ∧ t.res.bytes.length ≤ limit.toNat ∧
          t.x = ⟨BitVec.ofNat 64 t.res.bytes.length, s.x.x1, s.x.x2⟩) ∨
        (t.flt = ⟨true, 8#8, encode (.decBytes limit)⟩ ∧ t.ad.finished = false ∧ t.res.bytes.length = limit.toNat ∧
          t.x = s.x) ∨
        (t.flt = ⟨true, 10#8, encode (.decBytes limit)⟩ ∧ t.ad.finished = false ∧ t.res.bytes.length < limit.toNat ∧
          fits s.caps.resCap (t.res.bytes.length + 1) = false ∧ t.x = s.x)) ∧
      fits s.caps.resCap t.res.bytes.length = true ∧
      t.bs = s.bs ∧ t.pix = s.pix ∧ t.ae = s.ae ∧ t.bw = s.bw ∧ t.prPos = s.prPos ∧ t.conf = s.conf

/-- DEC.GRID rebuilds the grid from 3·W·H data symbols, and raises LENGTH_MISMATCH on fewer or more, or CAPACITY (45_stream_ops.md R204, 45_stream_ops.md R208, 44_predictor.md R183, 20_memory.md R49, 60_exceptions.md R244). -/
def Obligations.DecGridRebuildsGrid : Prop :=
  ∀ (s t : State) (data : List Byte), s.flt.fault = false → s.pix.wf → (s.conf.pred = 0#16 ∨ s.conf.pred = 1#16) →
    let n := s.conf.width.toNat * s.conf.height.toNat
    let unwritten := t.pix = s.pix ∧ t.prPos = s.prPos ∧ t.x = s.x
    (DecodesTo (decodeStart s) data t → data.length = 3 * n → fits s.caps.resCap (3 * n) = true →
      ∃ (j : Nat) (m : Memory),
        (fits s.caps.pixCap (3 * n) = true → j = n ∧
          exec .decGrid s = .next ((((t.setPix m).setRes ⟨data, 3 * n⟩).setPrPos n).setX0 (BitVec.ofNat 64 (3 * n)))) ∧
        (fits s.caps.pixCap (3 * n) = false →
          j < n ∧ fits s.caps.pixCap (3 * j) = true ∧ fits s.caps.pixCap (3 * (j + 1)) = false ∧
          exec .decGrid s = .next ((((t.setPix m).setRes ⟨data, 3 * j⟩).setPrPos j).faulted 10#8 (encode .decGrid))) ∧
        Rebuilt s.conf.pred s.conf.width.toNat s.pix data m j) ∧
    (DecodesTo (decodeStart s) data t → data.length < 3 * n → fits s.caps.resCap data.length = true →
      unwritten ∧ exec .decGrid s = .next ((t.setRes ⟨data, 0⟩).faulted 8#8 (encode .decGrid))) ∧
    (DecodesData (decodeStart s) data t → data.length = 3 * n + 1 → fits s.caps.resCap (3 * n) = true →
      unwritten ∧ exec .decGrid s = .next ((t.setRes ⟨data.dropLast, 0⟩).faulted 8#8 (encode .decGrid))) ∧
    (DecodesData (decodeStart s) data t → data.length ≤ 3 * n →
      fits s.caps.resCap (data.length - 1) = true → fits s.caps.resCap data.length = false →
      unwritten ∧ exec .decGrid s = .next ((t.setRes ⟨data.dropLast, 0⟩).faulted 10#8 (encode .decGrid)))

/-- DEC.BYTES of the stream ENC.BYTES made returns the bytes that were coded, on any block (45_stream_ops.md R209, 45_stream_ops.md R210). -/
def Obligations.BytesRoundTrip : Prop :=
  ∀ (s t s' : State) (limit : Imm), s.flt.fault = false → exec .encBytes s = .next t → t.flt.fault = false →
    s.res.bytes.length ≤ limit.toNat → s'.flt.fault = false → s'.bs = t.bs →
    fits s'.caps.resCap s.res.bytes.length = true →
    ∃ u, exec (.decBytes limit) s' = .next u ∧ u.flt.fault = false ∧ u.res.bytes = s.res.bytes ∧
      u.x.x0 = BitVec.ofNat 64 s.res.bytes.length ∧ u.freq = t.freq

/-- DEC.GRID of the stream ENC.GRID made gives the same image (45_stream_ops.md R209). -/
def Obligations.GridRoundTrip : Prop :=
  ∀ s t s' : State, s.flt.fault = false → exec .encGrid s = .next t → t.flt.fault = false →
    s'.flt.fault = false → s'.pix.wf → s'.conf = s.conf → s'.bs = t.bs →
    let n := s.conf.width.toNat * s.conf.height.toNat
    fits s'.caps.pixCap (3 * n) = true → fits s'.caps.resCap (3 * n) = true →
    ∃ u, exec .decGrid s' = .next u ∧ u.flt.fault = false ∧ ∀ b, b < 3 * n → u.pix.read b = s.pix.read b
end

