-- ==== Sys2Proof/Laws/State.lean ====
section
/-! SUPPORT. What each field reads after each update of the state: one lemma per field per update, true by `rfl`. -/

namespace Sys2Proof.Machine

variable (s : State)

/-! ## setX -/

@[simp] theorem setX_x (v : ResultRegs) : (s.setX v).x = v := rfl
@[simp] theorem setX_conf (v : ResultRegs) : (s.setX v).conf = s.conf := rfl
@[simp] theorem setX_flt (v : ResultRegs) : (s.setX v).flt = s.flt := rfl
@[simp] theorem setX_freq (v : ResultRegs) : (s.setX v).freq = s.freq := rfl
@[simp] theorem setX_ae (v : ResultRegs) : (s.setX v).ae = s.ae := rfl
@[simp] theorem setX_ad (v : ResultRegs) : (s.setX v).ad = s.ad := rfl
@[simp] theorem setX_bw (v : ResultRegs) : (s.setX v).bw = s.bw := rfl
@[simp] theorem setX_br (v : ResultRegs) : (s.setX v).br = s.br := rfl
@[simp] theorem setX_prPos (v : ResultRegs) : (s.setX v).prPos = s.prPos := rfl
@[simp] theorem setX_res (v : ResultRegs) : (s.setX v).res = s.res := rfl
@[simp] theorem setX_pix (v : ResultRegs) : (s.setX v).pix = s.pix := rfl
@[simp] theorem setX_bs (v : ResultRegs) : (s.setX v).bs = s.bs := rfl
@[simp] theorem setX_caps (v : ResultRegs) : (s.setX v).caps = s.caps := rfl
@[simp] theorem setX_host (v : ResultRegs) : (s.setX v).host = s.host := rfl
@[simp] theorem setX_self : s.setX s.x = s := rfl
@[simp] theorem setX_setX (v w : ResultRegs) : (s.setX v).setX w = s.setX w := rfl

/-! ## setConf -/

@[simp] theorem setConf_x (v : ConfRegs) : (s.setConf v).x = s.x := rfl
@[simp] theorem setConf_conf (v : ConfRegs) : (s.setConf v).conf = v := rfl
@[simp] theorem setConf_flt (v : ConfRegs) : (s.setConf v).flt = s.flt := rfl
@[simp] theorem setConf_freq (v : ConfRegs) : (s.setConf v).freq = s.freq := rfl
@[simp] theorem setConf_ae (v : ConfRegs) : (s.setConf v).ae = s.ae := rfl
@[simp] theorem setConf_ad (v : ConfRegs) : (s.setConf v).ad = s.ad := rfl
@[simp] theorem setConf_bw (v : ConfRegs) : (s.setConf v).bw = s.bw := rfl
@[simp] theorem setConf_br (v : ConfRegs) : (s.setConf v).br = s.br := rfl
@[simp] theorem setConf_prPos (v : ConfRegs) : (s.setConf v).prPos = s.prPos := rfl
@[simp] theorem setConf_res (v : ConfRegs) : (s.setConf v).res = s.res := rfl
@[simp] theorem setConf_pix (v : ConfRegs) : (s.setConf v).pix = s.pix := rfl
@[simp] theorem setConf_bs (v : ConfRegs) : (s.setConf v).bs = s.bs := rfl
@[simp] theorem setConf_caps (v : ConfRegs) : (s.setConf v).caps = s.caps := rfl
@[simp] theorem setConf_host (v : ConfRegs) : (s.setConf v).host = s.host := rfl
@[simp] theorem setConf_self : s.setConf s.conf = s := rfl
@[simp] theorem setConf_setConf (v w : ConfRegs) : (s.setConf v).setConf w = s.setConf w := rfl

/-! ## setFlt -/

@[simp] theorem setFlt_x (v : FaultRecord) : (s.setFlt v).x = s.x := rfl
@[simp] theorem setFlt_conf (v : FaultRecord) : (s.setFlt v).conf = s.conf := rfl
@[simp] theorem setFlt_flt (v : FaultRecord) : (s.setFlt v).flt = v := rfl
@[simp] theorem setFlt_freq (v : FaultRecord) : (s.setFlt v).freq = s.freq := rfl
@[simp] theorem setFlt_ae (v : FaultRecord) : (s.setFlt v).ae = s.ae := rfl
@[simp] theorem setFlt_ad (v : FaultRecord) : (s.setFlt v).ad = s.ad := rfl
@[simp] theorem setFlt_bw (v : FaultRecord) : (s.setFlt v).bw = s.bw := rfl
@[simp] theorem setFlt_br (v : FaultRecord) : (s.setFlt v).br = s.br := rfl
@[simp] theorem setFlt_prPos (v : FaultRecord) : (s.setFlt v).prPos = s.prPos := rfl
@[simp] theorem setFlt_res (v : FaultRecord) : (s.setFlt v).res = s.res := rfl
@[simp] theorem setFlt_pix (v : FaultRecord) : (s.setFlt v).pix = s.pix := rfl
@[simp] theorem setFlt_bs (v : FaultRecord) : (s.setFlt v).bs = s.bs := rfl
@[simp] theorem setFlt_caps (v : FaultRecord) : (s.setFlt v).caps = s.caps := rfl
@[simp] theorem setFlt_host (v : FaultRecord) : (s.setFlt v).host = s.host := rfl
@[simp] theorem setFlt_self : s.setFlt s.flt = s := rfl
@[simp] theorem setFlt_setFlt (v w : FaultRecord) : (s.setFlt v).setFlt w = s.setFlt w := rfl

/-! ## setFreq -/

@[simp] theorem setFreq_x (v : List Nat) : (s.setFreq v).x = s.x := rfl
@[simp] theorem setFreq_conf (v : List Nat) : (s.setFreq v).conf = s.conf := rfl
@[simp] theorem setFreq_flt (v : List Nat) : (s.setFreq v).flt = s.flt := rfl
@[simp] theorem setFreq_freq (v : List Nat) : (s.setFreq v).freq = v := rfl
@[simp] theorem setFreq_ae (v : List Nat) : (s.setFreq v).ae = s.ae := rfl
@[simp] theorem setFreq_ad (v : List Nat) : (s.setFreq v).ad = s.ad := rfl
@[simp] theorem setFreq_bw (v : List Nat) : (s.setFreq v).bw = s.bw := rfl
@[simp] theorem setFreq_br (v : List Nat) : (s.setFreq v).br = s.br := rfl
@[simp] theorem setFreq_prPos (v : List Nat) : (s.setFreq v).prPos = s.prPos := rfl
@[simp] theorem setFreq_res (v : List Nat) : (s.setFreq v).res = s.res := rfl
@[simp] theorem setFreq_pix (v : List Nat) : (s.setFreq v).pix = s.pix := rfl
@[simp] theorem setFreq_bs (v : List Nat) : (s.setFreq v).bs = s.bs := rfl
@[simp] theorem setFreq_caps (v : List Nat) : (s.setFreq v).caps = s.caps := rfl
@[simp] theorem setFreq_host (v : List Nat) : (s.setFreq v).host = s.host := rfl
@[simp] theorem setFreq_self : s.setFreq s.freq = s := rfl
@[simp] theorem setFreq_setFreq (v w : List Nat) : (s.setFreq v).setFreq w = s.setFreq w := rfl

/-! ## setAe -/

@[simp] theorem setAe_x (v : Encoder) : (s.setAe v).x = s.x := rfl
@[simp] theorem setAe_conf (v : Encoder) : (s.setAe v).conf = s.conf := rfl
@[simp] theorem setAe_flt (v : Encoder) : (s.setAe v).flt = s.flt := rfl
@[simp] theorem setAe_freq (v : Encoder) : (s.setAe v).freq = s.freq := rfl
@[simp] theorem setAe_ae (v : Encoder) : (s.setAe v).ae = v := rfl
@[simp] theorem setAe_ad (v : Encoder) : (s.setAe v).ad = s.ad := rfl
@[simp] theorem setAe_bw (v : Encoder) : (s.setAe v).bw = s.bw := rfl
@[simp] theorem setAe_br (v : Encoder) : (s.setAe v).br = s.br := rfl
@[simp] theorem setAe_prPos (v : Encoder) : (s.setAe v).prPos = s.prPos := rfl
@[simp] theorem setAe_res (v : Encoder) : (s.setAe v).res = s.res := rfl
@[simp] theorem setAe_pix (v : Encoder) : (s.setAe v).pix = s.pix := rfl
@[simp] theorem setAe_bs (v : Encoder) : (s.setAe v).bs = s.bs := rfl
@[simp] theorem setAe_caps (v : Encoder) : (s.setAe v).caps = s.caps := rfl
@[simp] theorem setAe_host (v : Encoder) : (s.setAe v).host = s.host := rfl
@[simp] theorem setAe_self : s.setAe s.ae = s := rfl
@[simp] theorem setAe_setAe (v w : Encoder) : (s.setAe v).setAe w = s.setAe w := rfl

/-! ## setAd -/

@[simp] theorem setAd_x (v : Decoder) : (s.setAd v).x = s.x := rfl
@[simp] theorem setAd_conf (v : Decoder) : (s.setAd v).conf = s.conf := rfl
@[simp] theorem setAd_flt (v : Decoder) : (s.setAd v).flt = s.flt := rfl
@[simp] theorem setAd_freq (v : Decoder) : (s.setAd v).freq = s.freq := rfl
@[simp] theorem setAd_ae (v : Decoder) : (s.setAd v).ae = s.ae := rfl
@[simp] theorem setAd_ad (v : Decoder) : (s.setAd v).ad = v := rfl
@[simp] theorem setAd_bw (v : Decoder) : (s.setAd v).bw = s.bw := rfl
@[simp] theorem setAd_br (v : Decoder) : (s.setAd v).br = s.br := rfl
@[simp] theorem setAd_prPos (v : Decoder) : (s.setAd v).prPos = s.prPos := rfl
@[simp] theorem setAd_res (v : Decoder) : (s.setAd v).res = s.res := rfl
@[simp] theorem setAd_pix (v : Decoder) : (s.setAd v).pix = s.pix := rfl
@[simp] theorem setAd_bs (v : Decoder) : (s.setAd v).bs = s.bs := rfl
@[simp] theorem setAd_caps (v : Decoder) : (s.setAd v).caps = s.caps := rfl
@[simp] theorem setAd_host (v : Decoder) : (s.setAd v).host = s.host := rfl
@[simp] theorem setAd_self : s.setAd s.ad = s := rfl
@[simp] theorem setAd_setAd (v w : Decoder) : (s.setAd v).setAd w = s.setAd w := rfl

/-! ## setBw -/

@[simp] theorem setBw_x (v : BitWriter) : (s.setBw v).x = s.x := rfl
@[simp] theorem setBw_conf (v : BitWriter) : (s.setBw v).conf = s.conf := rfl
@[simp] theorem setBw_flt (v : BitWriter) : (s.setBw v).flt = s.flt := rfl
@[simp] theorem setBw_freq (v : BitWriter) : (s.setBw v).freq = s.freq := rfl
@[simp] theorem setBw_ae (v : BitWriter) : (s.setBw v).ae = s.ae := rfl
@[simp] theorem setBw_ad (v : BitWriter) : (s.setBw v).ad = s.ad := rfl
@[simp] theorem setBw_bw (v : BitWriter) : (s.setBw v).bw = v := rfl
@[simp] theorem setBw_br (v : BitWriter) : (s.setBw v).br = s.br := rfl
@[simp] theorem setBw_prPos (v : BitWriter) : (s.setBw v).prPos = s.prPos := rfl
@[simp] theorem setBw_res (v : BitWriter) : (s.setBw v).res = s.res := rfl
@[simp] theorem setBw_pix (v : BitWriter) : (s.setBw v).pix = s.pix := rfl
@[simp] theorem setBw_bs (v : BitWriter) : (s.setBw v).bs = s.bs := rfl
@[simp] theorem setBw_caps (v : BitWriter) : (s.setBw v).caps = s.caps := rfl
@[simp] theorem setBw_host (v : BitWriter) : (s.setBw v).host = s.host := rfl
@[simp] theorem setBw_self : s.setBw s.bw = s := rfl
@[simp] theorem setBw_setBw (v w : BitWriter) : (s.setBw v).setBw w = s.setBw w := rfl

/-! ## setBr -/

@[simp] theorem setBr_x (v : BitReader) : (s.setBr v).x = s.x := rfl
@[simp] theorem setBr_conf (v : BitReader) : (s.setBr v).conf = s.conf := rfl
@[simp] theorem setBr_flt (v : BitReader) : (s.setBr v).flt = s.flt := rfl
@[simp] theorem setBr_freq (v : BitReader) : (s.setBr v).freq = s.freq := rfl
@[simp] theorem setBr_ae (v : BitReader) : (s.setBr v).ae = s.ae := rfl
@[simp] theorem setBr_ad (v : BitReader) : (s.setBr v).ad = s.ad := rfl
@[simp] theorem setBr_bw (v : BitReader) : (s.setBr v).bw = s.bw := rfl
@[simp] theorem setBr_br (v : BitReader) : (s.setBr v).br = v := rfl
@[simp] theorem setBr_prPos (v : BitReader) : (s.setBr v).prPos = s.prPos := rfl
@[simp] theorem setBr_res (v : BitReader) : (s.setBr v).res = s.res := rfl
@[simp] theorem setBr_pix (v : BitReader) : (s.setBr v).pix = s.pix := rfl
@[simp] theorem setBr_bs (v : BitReader) : (s.setBr v).bs = s.bs := rfl
@[simp] theorem setBr_caps (v : BitReader) : (s.setBr v).caps = s.caps := rfl
@[simp] theorem setBr_host (v : BitReader) : (s.setBr v).host = s.host := rfl
@[simp] theorem setBr_self : s.setBr s.br = s := rfl
@[simp] theorem setBr_setBr (v w : BitReader) : (s.setBr v).setBr w = s.setBr w := rfl

/-! ## setPrPos -/

@[simp] theorem setPrPos_x (v : Nat) : (s.setPrPos v).x = s.x := rfl
@[simp] theorem setPrPos_conf (v : Nat) : (s.setPrPos v).conf = s.conf := rfl
@[simp] theorem setPrPos_flt (v : Nat) : (s.setPrPos v).flt = s.flt := rfl
@[simp] theorem setPrPos_freq (v : Nat) : (s.setPrPos v).freq = s.freq := rfl
@[simp] theorem setPrPos_ae (v : Nat) : (s.setPrPos v).ae = s.ae := rfl
@[simp] theorem setPrPos_ad (v : Nat) : (s.setPrPos v).ad = s.ad := rfl
@[simp] theorem setPrPos_bw (v : Nat) : (s.setPrPos v).bw = s.bw := rfl
@[simp] theorem setPrPos_br (v : Nat) : (s.setPrPos v).br = s.br := rfl
@[simp] theorem setPrPos_prPos (v : Nat) : (s.setPrPos v).prPos = v := rfl
@[simp] theorem setPrPos_res (v : Nat) : (s.setPrPos v).res = s.res := rfl
@[simp] theorem setPrPos_pix (v : Nat) : (s.setPrPos v).pix = s.pix := rfl
@[simp] theorem setPrPos_bs (v : Nat) : (s.setPrPos v).bs = s.bs := rfl
@[simp] theorem setPrPos_caps (v : Nat) : (s.setPrPos v).caps = s.caps := rfl
@[simp] theorem setPrPos_host (v : Nat) : (s.setPrPos v).host = s.host := rfl
@[simp] theorem setPrPos_self : s.setPrPos s.prPos = s := rfl
@[simp] theorem setPrPos_setPrPos (v w : Nat) : (s.setPrPos v).setPrPos w = s.setPrPos w := rfl

/-! ## setRes -/

@[simp] theorem setRes_x (v : Residuals) : (s.setRes v).x = s.x := rfl
@[simp] theorem setRes_conf (v : Residuals) : (s.setRes v).conf = s.conf := rfl
@[simp] theorem setRes_flt (v : Residuals) : (s.setRes v).flt = s.flt := rfl
@[simp] theorem setRes_freq (v : Residuals) : (s.setRes v).freq = s.freq := rfl
@[simp] theorem setRes_ae (v : Residuals) : (s.setRes v).ae = s.ae := rfl
@[simp] theorem setRes_ad (v : Residuals) : (s.setRes v).ad = s.ad := rfl
@[simp] theorem setRes_bw (v : Residuals) : (s.setRes v).bw = s.bw := rfl
@[simp] theorem setRes_br (v : Residuals) : (s.setRes v).br = s.br := rfl
@[simp] theorem setRes_prPos (v : Residuals) : (s.setRes v).prPos = s.prPos := rfl
@[simp] theorem setRes_res (v : Residuals) : (s.setRes v).res = v := rfl
@[simp] theorem setRes_pix (v : Residuals) : (s.setRes v).pix = s.pix := rfl
@[simp] theorem setRes_bs (v : Residuals) : (s.setRes v).bs = s.bs := rfl
@[simp] theorem setRes_caps (v : Residuals) : (s.setRes v).caps = s.caps := rfl
@[simp] theorem setRes_host (v : Residuals) : (s.setRes v).host = s.host := rfl
@[simp] theorem setRes_self : s.setRes s.res = s := rfl
@[simp] theorem setRes_setRes (v w : Residuals) : (s.setRes v).setRes w = s.setRes w := rfl

/-! ## setPix -/

@[simp] theorem setPix_x (v : Memory) : (s.setPix v).x = s.x := rfl
@[simp] theorem setPix_conf (v : Memory) : (s.setPix v).conf = s.conf := rfl
@[simp] theorem setPix_flt (v : Memory) : (s.setPix v).flt = s.flt := rfl
@[simp] theorem setPix_freq (v : Memory) : (s.setPix v).freq = s.freq := rfl
@[simp] theorem setPix_ae (v : Memory) : (s.setPix v).ae = s.ae := rfl
@[simp] theorem setPix_ad (v : Memory) : (s.setPix v).ad = s.ad := rfl
@[simp] theorem setPix_bw (v : Memory) : (s.setPix v).bw = s.bw := rfl
@[simp] theorem setPix_br (v : Memory) : (s.setPix v).br = s.br := rfl
@[simp] theorem setPix_prPos (v : Memory) : (s.setPix v).prPos = s.prPos := rfl
@[simp] theorem setPix_res (v : Memory) : (s.setPix v).res = s.res := rfl
@[simp] theorem setPix_pix (v : Memory) : (s.setPix v).pix = v := rfl
@[simp] theorem setPix_bs (v : Memory) : (s.setPix v).bs = s.bs := rfl
@[simp] theorem setPix_caps (v : Memory) : (s.setPix v).caps = s.caps := rfl
@[simp] theorem setPix_host (v : Memory) : (s.setPix v).host = s.host := rfl
@[simp] theorem setPix_self : s.setPix s.pix = s := rfl
@[simp] theorem setPix_setPix (v w : Memory) : (s.setPix v).setPix w = s.setPix w := rfl

/-! ## setBs -/

@[simp] theorem setBs_x (v : List Byte) : (s.setBs v).x = s.x := rfl
@[simp] theorem setBs_conf (v : List Byte) : (s.setBs v).conf = s.conf := rfl
@[simp] theorem setBs_flt (v : List Byte) : (s.setBs v).flt = s.flt := rfl
@[simp] theorem setBs_freq (v : List Byte) : (s.setBs v).freq = s.freq := rfl
@[simp] theorem setBs_ae (v : List Byte) : (s.setBs v).ae = s.ae := rfl
@[simp] theorem setBs_ad (v : List Byte) : (s.setBs v).ad = s.ad := rfl
@[simp] theorem setBs_bw (v : List Byte) : (s.setBs v).bw = s.bw := rfl
@[simp] theorem setBs_br (v : List Byte) : (s.setBs v).br = s.br := rfl
@[simp] theorem setBs_prPos (v : List Byte) : (s.setBs v).prPos = s.prPos := rfl
@[simp] theorem setBs_res (v : List Byte) : (s.setBs v).res = s.res := rfl
@[simp] theorem setBs_pix (v : List Byte) : (s.setBs v).pix = s.pix := rfl
@[simp] theorem setBs_bs (v : List Byte) : (s.setBs v).bs = v := rfl
@[simp] theorem setBs_caps (v : List Byte) : (s.setBs v).caps = s.caps := rfl
@[simp] theorem setBs_host (v : List Byte) : (s.setBs v).host = s.host := rfl
@[simp] theorem setBs_self : s.setBs s.bs = s := rfl
@[simp] theorem setBs_setBs (v w : List Byte) : (s.setBs v).setBs w = s.setBs w := rfl

/-! ## setHost -/

@[simp] theorem setHost_x (v : List HostAction) : (s.setHost v).x = s.x := rfl
@[simp] theorem setHost_conf (v : List HostAction) : (s.setHost v).conf = s.conf := rfl
@[simp] theorem setHost_flt (v : List HostAction) : (s.setHost v).flt = s.flt := rfl
@[simp] theorem setHost_freq (v : List HostAction) : (s.setHost v).freq = s.freq := rfl
@[simp] theorem setHost_ae (v : List HostAction) : (s.setHost v).ae = s.ae := rfl
@[simp] theorem setHost_ad (v : List HostAction) : (s.setHost v).ad = s.ad := rfl
@[simp] theorem setHost_bw (v : List HostAction) : (s.setHost v).bw = s.bw := rfl
@[simp] theorem setHost_br (v : List HostAction) : (s.setHost v).br = s.br := rfl
@[simp] theorem setHost_prPos (v : List HostAction) : (s.setHost v).prPos = s.prPos := rfl
@[simp] theorem setHost_res (v : List HostAction) : (s.setHost v).res = s.res := rfl
@[simp] theorem setHost_pix (v : List HostAction) : (s.setHost v).pix = s.pix := rfl
@[simp] theorem setHost_bs (v : List HostAction) : (s.setHost v).bs = s.bs := rfl
@[simp] theorem setHost_caps (v : List HostAction) : (s.setHost v).caps = s.caps := rfl
@[simp] theorem setHost_host (v : List HostAction) : (s.setHost v).host = v := rfl
@[simp] theorem setHost_self : s.setHost s.host = s := rfl
@[simp] theorem setHost_setHost (v w : List HostAction) : (s.setHost v).setHost w = s.setHost w := rfl

/-! ## setX0 -/

@[simp] theorem setX0_conf (v : Word) : (s.setX0 v).conf = s.conf := rfl
@[simp] theorem setX0_flt (v : Word) : (s.setX0 v).flt = s.flt := rfl
@[simp] theorem setX0_freq (v : Word) : (s.setX0 v).freq = s.freq := rfl
@[simp] theorem setX0_ae (v : Word) : (s.setX0 v).ae = s.ae := rfl
@[simp] theorem setX0_ad (v : Word) : (s.setX0 v).ad = s.ad := rfl
@[simp] theorem setX0_bw (v : Word) : (s.setX0 v).bw = s.bw := rfl
@[simp] theorem setX0_br (v : Word) : (s.setX0 v).br = s.br := rfl
@[simp] theorem setX0_prPos (v : Word) : (s.setX0 v).prPos = s.prPos := rfl
@[simp] theorem setX0_res (v : Word) : (s.setX0 v).res = s.res := rfl
@[simp] theorem setX0_pix (v : Word) : (s.setX0 v).pix = s.pix := rfl
@[simp] theorem setX0_bs (v : Word) : (s.setX0 v).bs = s.bs := rfl
@[simp] theorem setX0_caps (v : Word) : (s.setX0 v).caps = s.caps := rfl
@[simp] theorem setX0_host (v : Word) : (s.setX0 v).host = s.host := rfl
@[simp] theorem setX0_x0 (v : Word) : (s.setX0 v).x.x0 = v := rfl
@[simp] theorem setX0_x1 (v : Word) : (s.setX0 v).x.x1 = s.x.x1 := rfl
@[simp] theorem setX0_x2 (v : Word) : (s.setX0 v).x.x2 = s.x.x2 := rfl

/-! ## setWriter, faulted, withCaps -/

@[simp] theorem setWriter_x (w : Writer) : (s.setWriter w).x = s.x := rfl
@[simp] theorem setWriter_conf (w : Writer) : (s.setWriter w).conf = s.conf := rfl
@[simp] theorem setWriter_flt (w : Writer) : (s.setWriter w).flt = s.flt := rfl
@[simp] theorem setWriter_freq (w : Writer) : (s.setWriter w).freq = s.freq := rfl
@[simp] theorem setWriter_ae (w : Writer) : (s.setWriter w).ae = s.ae := rfl
@[simp] theorem setWriter_ad (w : Writer) : (s.setWriter w).ad = s.ad := rfl
@[simp] theorem setWriter_bw (w : Writer) : (s.setWriter w).bw = ⟨w.acc, w.nbits⟩ := rfl
@[simp] theorem setWriter_br (w : Writer) : (s.setWriter w).br = s.br := rfl
@[simp] theorem setWriter_prPos (w : Writer) : (s.setWriter w).prPos = s.prPos := rfl
@[simp] theorem setWriter_res (w : Writer) : (s.setWriter w).res = s.res := rfl
@[simp] theorem setWriter_pix (w : Writer) : (s.setWriter w).pix = s.pix := rfl
@[simp] theorem setWriter_bs (w : Writer) : (s.setWriter w).bs = w.bs := rfl
@[simp] theorem setWriter_caps (w : Writer) : (s.setWriter w).caps = s.caps := rfl
@[simp] theorem setWriter_host (w : Writer) : (s.setWriter w).host = s.host := rfl
@[simp] theorem writer_setWriter (w : Writer) : (s.setWriter w).writer = w := rfl
@[simp] theorem setWriter_writer : s.setWriter s.writer = s := rfl
@[simp] theorem faulted_x (c : BitVec 8) (w : Word) : (s.faulted c w).x = s.x := rfl
@[simp] theorem faulted_conf (c : BitVec 8) (w : Word) : (s.faulted c w).conf = s.conf := rfl
@[simp] theorem faulted_flt (c : BitVec 8) (w : Word) : (s.faulted c w).flt = ⟨true, c, w⟩ := rfl
@[simp] theorem faulted_freq (c : BitVec 8) (w : Word) : (s.faulted c w).freq = s.freq := rfl
@[simp] theorem faulted_ae (c : BitVec 8) (w : Word) : (s.faulted c w).ae = s.ae := rfl
@[simp] theorem faulted_ad (c : BitVec 8) (w : Word) : (s.faulted c w).ad = s.ad := rfl
@[simp] theorem faulted_bw (c : BitVec 8) (w : Word) : (s.faulted c w).bw = s.bw := rfl
@[simp] theorem faulted_br (c : BitVec 8) (w : Word) : (s.faulted c w).br = s.br := rfl
@[simp] theorem faulted_prPos (c : BitVec 8) (w : Word) : (s.faulted c w).prPos = s.prPos := rfl
@[simp] theorem faulted_res (c : BitVec 8) (w : Word) : (s.faulted c w).res = s.res := rfl
@[simp] theorem faulted_pix (c : BitVec 8) (w : Word) : (s.faulted c w).pix = s.pix := rfl
@[simp] theorem faulted_bs (c : BitVec 8) (w : Word) : (s.faulted c w).bs = s.bs := rfl
@[simp] theorem faulted_caps (c : BitVec 8) (w : Word) : (s.faulted c w).caps = s.caps := rfl
@[simp] theorem faulted_host (c : BitVec 8) (w : Word) : (s.faulted c w).host = s.host := rfl
@[simp] theorem withCaps_x (c : Capacities) : (s.withCaps c).x = s.x := rfl
@[simp] theorem withCaps_conf (c : Capacities) : (s.withCaps c).conf = s.conf := rfl
@[simp] theorem withCaps_flt (c : Capacities) : (s.withCaps c).flt = s.flt := rfl
@[simp] theorem withCaps_freq (c : Capacities) : (s.withCaps c).freq = s.freq := rfl
@[simp] theorem withCaps_ae (c : Capacities) : (s.withCaps c).ae = s.ae := rfl
@[simp] theorem withCaps_ad (c : Capacities) : (s.withCaps c).ad = s.ad := rfl
@[simp] theorem withCaps_bw (c : Capacities) : (s.withCaps c).bw = s.bw := rfl
@[simp] theorem withCaps_br (c : Capacities) : (s.withCaps c).br = s.br := rfl
@[simp] theorem withCaps_prPos (c : Capacities) : (s.withCaps c).prPos = s.prPos := rfl
@[simp] theorem withCaps_res (c : Capacities) : (s.withCaps c).res = s.res := rfl
@[simp] theorem withCaps_pix (c : Capacities) : (s.withCaps c).pix = s.pix := rfl
@[simp] theorem withCaps_bs (c : Capacities) : (s.withCaps c).bs = s.bs := rfl
@[simp] theorem withCaps_host (c : Capacities) : (s.withCaps c).host = s.host := rfl
@[simp] theorem withCaps_caps (c : Capacities) : (s.withCaps c).caps = c := rfl
@[simp] theorem withCaps_self : s.withCaps s.caps = s := rfl
@[simp] theorem withCaps_withCaps (c d : Capacities) : (s.withCaps c).withCaps d = s.withCaps d := rfl
@[simp] theorem withCaps_writer (c : Capacities) : (s.withCaps c).writer = s.writer := rfl
@[simp] theorem setX_writer (v : ResultRegs) : (s.setX v).writer = s.writer := rfl
@[simp] theorem setConf_writer (v : ConfRegs) : (s.setConf v).writer = s.writer := rfl
@[simp] theorem setFlt_writer (v : FaultRecord) : (s.setFlt v).writer = s.writer := rfl
@[simp] theorem setFreq_writer (v : List Nat) : (s.setFreq v).writer = s.writer := rfl
@[simp] theorem setAe_writer (v : Encoder) : (s.setAe v).writer = s.writer := rfl
@[simp] theorem setAd_writer (v : Decoder) : (s.setAd v).writer = s.writer := rfl
@[simp] theorem setBr_writer (v : BitReader) : (s.setBr v).writer = s.writer := rfl
@[simp] theorem setPrPos_writer (v : Nat) : (s.setPrPos v).writer = s.writer := rfl
@[simp] theorem setRes_writer (v : Residuals) : (s.setRes v).writer = s.writer := rfl
@[simp] theorem setPix_writer (v : Memory) : (s.setPix v).writer = s.writer := rfl
@[simp] theorem setHost_writer (v : List HostAction) : (s.setHost v).writer = s.writer := rfl
@[simp] theorem setX0_writer (v : Word) : (s.setX0 v).writer = s.writer := rfl

end Sys2Proof.Machine
end

