-- ==== Sys2Proof/Laws/Memory.lean ====
section
/-! SUPPORT. PIX: a read after a write, and the canonical form is kept by every operation (20_memory.md R40, R50). -/

namespace Sys2Proof.Machine

/-- An entry reads as its byte at its address. -/
theorem read_entry_append_same (a : Nat) (v : Byte) (rest : Memory) (h : rest.read a = Memory.unlisted) :
    (Memory.entry a v ++ rest).read a = v := by
  unfold Memory.entry
  split
  · simp_all
  · simp [Memory.read]

/-- An entry leaves every other address to the rest. -/
theorem read_entry_append_other (a b : Nat) (v : Byte) (rest : Memory) (h : a ≠ b) :
    (Memory.entry a v ++ rest).read b = rest.read b := by
  unfold Memory.entry
  split
  · rfl
  · simp [Memory.read, h]

/-- An address below every listed one reads as unlisted. -/
theorem read_below {m : Memory} {a : Nat} (h : ∀ c ∈ m, a < c.1) : m.read a = Memory.unlisted := by
  induction m with
  | nil => rfl
  | cons c rest ih =>
    have hc := h c (by simp)
    simp only [Memory.read]
    rw [if_neg (by omega)]
    exact ih fun d hd => h d (by simp [hd])

theorem wf_cons {c : Host.Cell} {rest : Memory} :
    Memory.wf (c :: rest) ↔ (∀ d ∈ rest, c.1 < d.1) ∧ c.2 ≠ Memory.unlisted ∧ Memory.wf rest := by
  simp only [Memory.wf, List.pairwise_cons, List.mem_cons, forall_eq_or_imp]
  tauto

/-- A write is read back. -/
theorem read_write_same {m : Memory} (h : m.wf) (a : Nat) (v : Byte) : (m.write a v).read a = v := by
  induction m with
  | nil => simpa [Memory.write] using read_entry_append_same a v [] rfl
  | cons c rest ih =>
    obtain ⟨k, b⟩ := c
    obtain ⟨below, -, hr⟩ := wf_cons.1 h
    simp only [Memory.write]
    split
    · apply read_entry_append_same
      apply read_below
      intro d hd
      rcases List.mem_cons.1 hd with rfl | hd
      · assumption
      · exact lt_trans ‹a < k› (below d hd)
    · split
      · subst_vars
        exact read_entry_append_same _ v rest (read_below below)
      · simp only [Memory.read]
        rw [if_neg (by omega)]
        exact ih hr

/-- A write leaves every other byte as it was. -/
theorem read_write_other (m : Memory) {a b : Nat} (v : Byte) (h : a ≠ b) : (m.write a v).read b = m.read b := by
  induction m with
  | nil => simpa [Memory.write] using read_entry_append_other a b v [] h
  | cons c rest ih =>
    obtain ⟨k, w⟩ := c
    simp only [Memory.write]
    split
    · exact read_entry_append_other a b v _ h
    · split
      · subst_vars
        rw [read_entry_append_other _ b v rest h]
        simp [Memory.read, h]
      · simp only [Memory.read]
        split
        · rfl
        · exact ih

/-- The addresses a memory lists after a write. -/
theorem mem_write {m : Memory} {a : Nat} {v : Byte} {c : Host.Cell} (h : c ∈ m.write a v) : c.1 = a ∨ c ∈ m := by
  induction m with
  | nil =>
    simp only [Memory.write, Memory.entry] at h
    split at h <;> simp_all
  | cons d rest ih =>
    simp only [Memory.write, Memory.entry] at h
    split at h
    · split at h <;> aesop
    · split at h
      · split at h <;> aesop
      · rcases List.mem_cons.1 h with rfl | h
        · simp
        · rcases ih h with h | h <;> simp [h]

/-- An entry before rising addresses keeps the canonical form. -/
theorem wf_entry_append {a : Nat} {v : Byte} {rest : Memory} (h : rest.wf) (below : ∀ d ∈ rest, a < d.1) :
    (Memory.entry a v ++ rest).wf := by
  unfold Memory.entry
  split
  · simpa using h
  · exact wf_cons.2 ⟨below, ‹_›, h⟩

/-- A write keeps the canonical form. -/
theorem wf_write {m : Memory} (h : m.wf) (a : Nat) (v : Byte) : (m.write a v).wf := by
  induction m with
  | nil => simpa [Memory.write] using wf_entry_append (a := a) (v := v) h (by simp)
  | cons c rest ih =>
    obtain ⟨k, b⟩ := c
    obtain ⟨below, nz, hr⟩ := wf_cons.1 h
    simp only [Memory.write]
    split
    · apply wf_entry_append h
      intro d hd
      rcases List.mem_cons.1 hd with rfl | hd
      · assumption
      · exact lt_trans ‹a < k› (below d hd)
    · split
      · subst_vars
        exact wf_entry_append hr below
      · refine wf_cons.2 ⟨fun d hd => ?_, nz, ih hr⟩
        rcases mem_write hd with e | e
        · simp only [e]
          omega
        · exact below d e

/-- Consecutive writes keep the canonical form. -/
theorem wf_writeBytes {m : Memory} (h : m.wf) (a : Nat) (bytes : List Byte) : (m.writeBytes a bytes).wf := by
  induction bytes generalizing m a with
  | nil => exact h
  | cons v rest ih => exact ih (wf_write h a v) (a + 1)

/-- Consecutive writes leave the addresses outside as they were. -/
theorem read_writeBytes_other (m : Memory) (a b : Nat) (bytes : List Byte) (h : b < a ∨ a + bytes.length ≤ b) :
    (m.writeBytes a bytes).read b = m.read b := by
  induction bytes generalizing m a with
  | nil => rfl
  | cons v rest ih =>
    simp only [List.length_cons] at h
    simp only [Memory.writeBytes]
    rw [ih _ _ (by omega), read_write_other _ _ (by omega)]

/-- Consecutive writes are read back. -/
theorem read_writeBytes_inside {m : Memory} (h : m.wf) (a i : Nat) (bytes : List Byte) (hi : i < bytes.length) :
    (m.writeBytes a bytes).read (a + i) = bytes.getD i 0#8 := by
  induction bytes generalizing m a i with
  | nil => simp at hi
  | cons v rest ih =>
    simp only [Memory.writeBytes]
    cases i with
    | zero =>
      rw [read_writeBytes_other _ _ _ _ (by omega)]
      simpa using read_write_same h a v
    | succ i =>
      have := ih (wf_write h a v) (a + 1) i (by simpa using hi)
      simpa [Nat.add_assoc, Nat.add_comm 1 i] using this

/-- The addresses a memory lists after consecutive writes. -/
theorem mem_writeBytes {m : Memory} {a : Nat} {bytes : List Byte} {c : Host.Cell} (h : c ∈ m.writeBytes a bytes) :
    (a ≤ c.1 ∧ c.1 < a + bytes.length) ∨ c ∈ m := by
  induction bytes generalizing m a with
  | nil => exact .inr h
  | cons v rest ih =>
    simp only [Memory.writeBytes] at h
    simp only [List.length_cons]
    rcases ih h with h | h
    · left
      omega
    · rcases mem_write h with h | h
      · left
        omega
      · exact .inr h

theorem wf_nil : Memory.wf [] := by simp [Memory.wf]

/-- Cells written one after the other make a canonical memory. -/
theorem wf_ofCells (cells : List Host.Cell) : (Memory.ofCells cells).wf := by
  suffices ∀ m : Memory, m.wf → (cells.foldl (fun m c => m.write c.1 c.2) m).wf from this [] wf_nil
  induction cells with
  | nil => exact fun m h => h
  | cons c rest ih => exact fun m h => ih _ (wf_write h _ _)

/-- The reset memory has the canonical form. -/
theorem wf_reset : State.reset.pix.wf := wf_nil

end Sys2Proof.Machine
end

