-- ==== Sys2Proof/Laws/Ops.lean ====
section
/-! SUPPORT. What each shared operation can do: tests, faults taken, commands, the host's moves. -/

namespace Sys2Proof.Machine

@[simp] theorem need_true (c : Cause) (s : State) : need true c s = .ok () := rfl
@[simp] theorem need_false (c : Cause) (s : State) : need false c s = .error ⟨c, s⟩ := rfl

/-- A test that passes lets the procedure go on. -/
@[simp] theorem need_true_bind {α : Type} (c : Cause) (s : State) (k : Unit → Proc α) : (need true c s >>= k) = k () := rfl

/-- A test that fails raises in the state it is given. -/
@[simp] theorem need_false_bind {α : Type} (c : Cause) (s : State) (k : Unit → Proc α) :
    (need false c s >>= k) = .error ⟨c, s⟩ := rfl

@[simp] theorem ok_bind {α β : Type} (a : α) (k : α → Proc β) : ((.ok a : Proc α) >>= k) = k a := rfl
@[simp] theorem error_bind {α β : Type} (r : Raised) (k : α → Proc β) : ((.error r : Proc α) >>= k) = .error r := rfl

/-- What a sequence of two procedures can do. -/
theorem bind_cases {α β : Type} (p : Proc α) (k : α → Proc β) :
    (∃ r, p = .error r ∧ (p >>= k) = .error r) ∨ ∃ a, p = .ok a ∧ (p >>= k) = k a := by
  cases p with
  | error r => exact .inl ⟨r, rfl, rfl⟩
  | ok a => exact .inr ⟨a, rfl, rfl⟩

@[simp] theorem fits_none (n : Nat) : fits none n = true := rfl
@[simp] theorem fits_some (c n : Nat) : fits (some c) n = decide (n ≤ c) := rfl

/-- A buffer that has the addresses below `n` has those below any smaller number. -/
theorem fits_mono {cap : Option Nat} {m n : Nat} (h : fits cap n = true) (le : m ≤ n) : fits cap m = true := by
  cases cap with
  | none => rfl
  | some c => simp only [fits_some, decide_eq_true_eq] at h ⊢; omega

/-- What `raise` does: a record of the first fault, and nothing while one stands (60_exceptions.md R244). -/
theorem raise_clear {s : State} (h : s.flt.fault = false) (c : Cause) (w : Word) : raise c w s = s.faulted c.code w := by
  simp only [raise, h, State.setFlt, State.faulted]
  rfl

theorem raise_standing {s : State} (h : s.flt.fault = true) (c : Cause) (w : Word) : raise c w s = s := by
  simp [raise, h]

/-- `raise` changes the fault record at most. -/
theorem raise_eq_setFlt (s : State) (c : Cause) (w : Word) : raise c w s = s.setFlt (raise c w s).flt := by
  unfold raise
  split <;> rfl

/-- Everything `conclude` can answer. -/
theorem conclude_cases (w : Word) (p : Proc State) :
    (∃ t, p = .ok t ∧ conclude w p = .next t) ∨
    ∃ r, p = .error r ∧ conclude w p = .next (raise r.cause w r.state) := by
  cases p with
  | ok t => exact .inl ⟨t, rfl, rfl⟩
  | error r => exact .inr ⟨r, rfl, rfl⟩

@[simp] theorem conclude_ok (w : Word) (t : State) : conclude w (.ok t) = .next t := rfl
@[simp] theorem conclude_error (w : Word) (r : Raised) : conclude w (.error r) = .next (raise r.cause w r.state) := rfl

/-- In the fault state a command is dropped (60_exceptions.md R245). -/
theorem command_dropped {s : State} (h : s.flt.fault = true) (i : Instr) (p : State → Proc State) :
    command i p s = .next s := by
  simp [command, h]

/-- A command with a defect raises (30_encoding.md R61). -/
theorem command_defect {s : State} (h : s.flt.fault = false) {i : Instr} {r : Reject} (d : i.defect = some r)
    (p : State → Proc State) : command i p s = .next (s.faulted (rejectCause r).code (encode i)) := by
  simp [command, h, d, raise_clear h]

/-- A well-formed command outside the fault state is its procedure. -/
theorem command_runs {s : State} (h : s.flt.fault = false) {i : Instr} (d : i.WellFormed) (p : State → Proc State) :
    command i p s = conclude (encode i) (p s) := by
  simp [command, h, d]

/-- Everything a command can answer: dropped, refused for a defect, done, or faulted on the way. -/
theorem command_cases {i : Instr} {p : State → Proc State} {s t : State} (h : command i p s = .next t) :
    (s.flt.fault = true ∧ t = s) ∨
    (s.flt.fault = false ∧ ∃ r, i.defect = some r ∧ t = s.faulted (rejectCause r).code (encode i)) ∨
    (s.flt.fault = false ∧ i.defect = none ∧ p s = .ok t) ∨
    (s.flt.fault = false ∧ i.defect = none ∧ ∃ r, p s = .error r ∧ t = raise r.cause (encode i) r.state) := by
  cases hf : s.flt.fault with
  | true =>
    rw [command_dropped hf] at h
    cases h
    exact .inl ⟨rfl, rfl⟩
  | false =>
    cases hd : i.defect with
    | some r =>
      rw [command_defect hf hd] at h
      cases h
      exact .inr (.inl ⟨rfl, r, rfl, rfl⟩)
    | none =>
      rw [command_runs hf hd] at h
      rcases conclude_cases (encode i) (p s) with ⟨u, e, e'⟩ | ⟨r, e, e'⟩
      · rw [e'] at h
        cases h
        exact .inr (.inr (.inl ⟨rfl, rfl, e⟩))
      · rw [e'] at h
        cases h
        exact .inr (.inr (.inr ⟨rfl, rfl, r, e, rfl⟩))

/-- Everything a command that runs in the fault state too can answer. -/
theorem commandAlways_cases {i : Instr} {p : State → Proc State} {s t : State} (h : commandAlways i p s = .next t) :
    p s = .ok t ∨ ∃ r, p s = .error r ∧ t = raise r.cause (encode i) r.state := by
  rcases conclude_cases (encode i) (p s) with ⟨u, e, e'⟩ | ⟨r, e, e'⟩
  · rw [commandAlways, e'] at h
    cases h
    exact .inl e
  · rw [commandAlways, e'] at h
    cases h
    exact .inr ⟨r, e, rfl⟩

/-- A command always answers a next state (60_exceptions.md R244). -/
theorem command_next (i : Instr) (p : State → Proc State) (s : State) : ∃ t, command i p s = .next t := by
  cases hf : s.flt.fault with
  | true => exact ⟨s, command_dropped hf i p⟩
  | false =>
    cases hd : i.defect with
    | some r => exact ⟨_, command_defect hf hd p⟩
    | none =>
      rcases conclude_cases (encode i) (p s) with ⟨u, -, e⟩ | ⟨r, -, e⟩
      · exact ⟨u, (command_runs hf hd p).trans e⟩
      · exact ⟨_, (command_runs hf hd p).trans e⟩

theorem commandAlways_next (i : Instr) (p : State → Proc State) (s : State) : ∃ t, commandAlways i p s = .next t := by
  rcases conclude_cases (encode i) (p s) with ⟨u, -, e⟩ | ⟨r, -, e⟩
  · exact ⟨u, e⟩
  · exact ⟨_, e⟩

/-- A host move is made or refused. -/
theorem hostMove_cases {ok : Bool} {s t : State} (h : hostMove ok s = .next t) : ok = true ∧ t = s := by
  cases ok with
  | true => cases h; exact ⟨rfl, rfl⟩
  | false => cases h

/-! ## leaveFault -/

@[simp] theorem leaveFault_flt (s : State) : (leaveFault s).flt = ⟨false, 0, 0⟩ := rfl
@[simp] theorem leaveFault_pix (s : State) : (leaveFault s).pix = s.pix := rfl
@[simp] theorem leaveFault_caps (s : State) : (leaveFault s).caps = s.caps := rfl
@[simp] theorem leaveFault_host (s : State) : (leaveFault s).host = s.host := rfl

end Sys2Proof.Machine
end

