-- ==== Sys2Proof/Laws/BitStream.lean ====
section
/-! SUPPORT. The bit writer and the bit reader: one put, the padding, the commit of what was written, one get. -/

namespace Sys2Proof.Machine

/-- Below seven bits a put only shifts the bit in (43_bitstream.md R152). -/
theorem put_partial {w : Writer} (b : Bool) (h : w.nbits.val + 1 < 8) :
    w.put b = ⟨(w.acc <<< 1) ||| (BitVec.ofBool b).setWidth 8, ⟨w.nbits.val + 1, h⟩, w.bs⟩ := by
  simp [Writer.put, h]

/-- The eighth bit completes a byte (43_bitstream.md R152). -/
theorem put_full {w : Writer} (b : Bool) (h : ¬w.nbits.val + 1 < 8) :
    w.put b = ⟨0, 0, w.bs ++ [(w.acc <<< 1) ||| (BitVec.ofBool b).setWidth 8]⟩ := by
  simp [Writer.put, h]

/-- A put adds one to the number of bits written (10_state.md R29). -/
@[simp] theorem bitCount_put (b : Bool) (w : Writer) : bitCount (w.put b) = bitCount w + 1 := by
  by_cases h : w.nbits.val + 1 < 8
  · simp only [put_partial b h, bitCount]
    omega
  · have := w.nbits.isLt
    simp only [put_full b h, bitCount, List.length_append, List.length_singleton, Fin.val_zero]
    omega

@[simp] theorem putMany_zero (b : Bool) (w : Writer) : Writer.putMany 0 b w = w := rfl
theorem putMany_succ (n : Nat) (b : Bool) (w : Writer) :
    Writer.putMany (n + 1) b w = Writer.putMany n b (w.put b) := rfl

@[simp] theorem bitCount_putMany (n : Nat) (b : Bool) (w : Writer) :
    bitCount (Writer.putMany n b w) = bitCount w + n := by
  induction n generalizing w with
  | zero => rfl
  | succ n ih => rw [putMany_succ, ih, bitCount_put]; omega

/-- A put never shortens BS. -/
theorem bs_prefix_put (b : Bool) (w : Writer) : w.bs <+: (w.put b).bs := by
  by_cases h : w.nbits.val + 1 < 8
  · simp [put_partial b h]
  · simp [put_full b h]

theorem bs_prefix_putMany (n : Nat) (b : Bool) (w : Writer) : w.bs <+: (Writer.putMany n b w).bs := by
  induction n generalizing w with
  | zero => simp
  | succ n ih => exact (bs_prefix_put b w).trans (ih _)

/-- On a byte boundary `bw_finish` does nothing (43_bitstream.md R153). -/
theorem finish_aligned {w : Writer} (h : w.nbits = 0) : w.finish = w := by
  simp [Writer.finish, Writer.padWithin, h]

/-- What putting back a writer can do: only BW and BS change, or CAPACITY with nothing changed. -/
theorem commitWriter_cases (w : Writer) (s : State) :
    ((w.bs.length = s.bs.length ∨ fits s.caps.bsCap w.bs.length = true) ∧ commitWriter w s = .ok (s.setWriter w)) ∨
    (w.bs.length ≠ s.bs.length ∧ fits s.caps.bsCap w.bs.length = false ∧ commitWriter w s = .error ⟨.capacity, s⟩) := by
  unfold commitWriter
  cases h : (decide (w.bs.length = s.bs.length) || fits s.caps.bsCap w.bs.length) with
  | true =>
    left
    simp only [Bool.or_eq_true, decide_eq_true_eq] at h
    exact ⟨h, rfl⟩
  | false =>
    right
    simp only [Bool.or_eq_false_iff, decide_eq_false_iff_not] at h
    exact ⟨h.1, h.2, rfl⟩

theorem commitWriter_unbounded (w : Writer) {s : State} (h : s.caps.bsCap = none) :
    commitWriter w s = .ok (s.setWriter w) := by
  simp [commitWriter, h]

/-- One bit read: the stream's bit at the cursor, which advances; past the end it is 0 and is counted
(43_bitstream.md R156). -/
theorem brGet_eq (bs : List Byte) (r : BitReader) :
    brGet bs r = (streamBit bs r.pos, ⟨r.pos + 1, r.past + if r.pos < 8 * bs.length then 0 else 1⟩) := by
  unfold brGet streamBit
  by_cases h : r.pos / 8 < bs.length
  · simp [h, show r.pos < 8 * bs.length by omega]
  · simp [List.getElem?_eq_none (Nat.le_of_not_lt h), show ¬r.pos < 8 * bs.length by omega]

end Sys2Proof.Machine
end

