-- ==== Sys2Proof/Laws/SymbolModel.lean ====
section
/-! SUPPORT. The symbol model: cumulative sums, the scan of `sm_find`, the counts after an update. -/

namespace Sys2Proof.Machine

@[simp] theorem cum_zero (freq : List Nat) : cum freq 0 = 0 := by simp [cum]

/-- The next cumulative sum adds the symbol's count (40_symbol_model.md R91). -/
theorem cum_succ (freq : List Nat) (k : Nat) : cum freq (k + 1) = cum freq k + freq.getD k 0 := by
  simp only [cum, List.take_add_one, List.sum_append]
  cases h : freq[k]? <;> simp [h]

theorem cum_mono (freq : List Nat) {j k : Nat} (h : j ≤ k) : cum freq j ≤ cum freq k := by
  induction k with
  | zero => simp [Nat.le_zero.1 h]
  | succ k ih =>
    rcases Nat.lt_or_ge j (k + 1) with hj | hj
    · have := ih (by omega)
      rw [cum_succ]
      omega
    · rw [Nat.le_antisymm h hj]

/-- With every count at least 1 the cumulative table is strictly increasing (10_state.md R26). -/
theorem cum_lt_succ {freq : List Nat} (pos : ∀ c ∈ freq, 1 ≤ c) {k : Nat} (h : k < freq.length) :
    cum freq k < cum freq (k + 1) := by
  rw [cum_succ]
  have : 1 ≤ freq.getD k 0 := by
    rw [List.getD_eq_getElem _ _ h]
    exact pos _ (List.getElem_mem h)
  omega

theorem total_eq_sum {freq : List Nat} (h : freq.length = 257) : total freq = freq.sum := by
  simp [total, cum, Config.nsym, List.take_of_length_le (Nat.le_of_eq h)]

/-- What the scan finds: for `v` below the sum of the rest, the symbol whose slice holds `v`. -/
theorem findFrom_spec (rest : List Nat) (below sym v : Nat) (lo : below ≤ v) (hi : v < below + rest.sum) :
    sym ≤ findFrom rest below sym v ∧ findFrom rest below sym v < sym + rest.length ∧
    below + cum rest (findFrom rest below sym v - sym) ≤ v ∧
    v < below + cum rest (findFrom rest below sym v - sym + 1) := by
  induction rest generalizing below sym with
  | nil => simp at hi; omega
  | cons c cs ih =>
    simp only [List.sum_cons] at hi
    simp only [findFrom, List.length_cons]
    split
    · simp [cum, lo]; omega
    · obtain ⟨h1, h2, h3, h4⟩ := ih (below + c) (sym + 1) (by omega) (by omega)
      have e : findFrom cs (below + c) (sym + 1) v - sym = (findFrom cs (below + c) (sym + 1) v - (sym + 1)) + 1 := by
        omega
      refine ⟨by omega, by omega, ?_, ?_⟩
      · rw [e]
        simp only [cum, List.take_succ_cons, List.sum_cons] at h3 ⊢
        omega
      · rw [e]
        simp only [cum, List.take_succ_cons, List.sum_cons] at h4 ⊢
        omega

/-- `sm_find` returns the symbol whose slice holds the value (40_symbol_model.md R94). -/
theorem findSymbol_spec {freq : List Nat} (len : freq.length = 257) {v : Nat} (h : v < total freq) :
    findSymbol freq v ≤ 256 ∧ cum freq (findSymbol freq v) ≤ v ∧ v < cum freq (findSymbol freq v + 1) := by
  rw [total_eq_sum len] at h
  obtain ⟨-, h2, h3, h4⟩ := findFrom_spec freq 0 0 v (Nat.zero_le _) (by omega)
  simp only [Nat.zero_add, Nat.sub_zero] at h2 h3 h4
  exact ⟨by simp only [findSymbol]; omega, h3, h4⟩

@[simp] theorem length_updateCounts (threshold : Nat) (freq : List Nat) (sym : Nat) :
    (updateCounts threshold freq sym).length = freq.length := by
  unfold updateCounts
  dsimp only
  split <;> simp

/-- Counting a symbol of the alphabet adds 1 to the sum. -/
theorem sum_modify (freq : List Nat) {sym : Nat} (h : sym < freq.length) :
    (freq.modify sym (· + 1)).sum = freq.sum + 1 := by
  induction freq generalizing sym with
  | nil => simp at h
  | cons c cs ih =>
    cases sym with
    | zero => simp; omega
    | succ n =>
      simp only [List.modify_succ_cons, List.sum_cons]
      rw [ih (by simpa using h)]
      omega

/-- Twice the halved sum is at most the sum plus the number of counts (00_scope.md R6 (a)). -/
theorem sum_halve_le (freq : List Nat) : 2 * (freq.map halveCount).sum ≤ freq.sum + 2 * freq.length := by
  induction freq with
  | nil => simp
  | cons c cs ih =>
    simp only [List.map_cons, List.sum_cons, List.length_cons, halveCount]
    omega

/-- With every count at least 1, the bound of 00_scope.md R6 (a): at most (sum + number of counts)/2. -/
theorem sum_halve_le_of_pos {freq : List Nat} (pos : ∀ c ∈ freq, 1 ≤ c) :
    2 * (freq.map halveCount).sum ≤ freq.sum + freq.length := by
  induction freq with
  | nil => simp
  | cons c cs ih =>
    have hc : 1 ≤ c := pos c (by simp)
    have := ih fun d hd => pos d (by simp [hd])
    simp only [List.map_cons, List.sum_cons, List.length_cons, halveCount]
    omega

/-- What `sm_range` can do: the slice, or MODEL_INVARIANT_VIOLATION (40_symbol_model.md R93). -/
theorem smRange_cases (sym : Nat) (s : State) :
    (total s.freq ≤ 65535 ∧ smRange sym s = .ok (sliceOf s.freq sym)) ∨
    (65535 < total s.freq ∧ smRange sym s = .error ⟨.modelInvariantViolation, s⟩) := by
  unfold smRange
  by_cases h : total s.freq ≤ Config.maxTotal
  · left
    simp only [h, decide_true, need_true_bind]
    exact ⟨h, trivial⟩
  · right
    simp only [h, decide_false, need_false_bind]
    exact ⟨Nat.lt_of_not_le h, trivial⟩

end Sys2Proof.Machine
end

