-- ==== Sys2Proof/Laws/Coder.lean ====
section
/-! SUPPORT. The interval: which normalisation step is taken when, what a step makes of the bounds, and one turn of each
loop (41_arith_encoder.md R113, R116, 42_arith_decoder.md R135). -/

namespace Sys2Proof.Machine

/-- The top bit of a bound says which half it lies in. -/
theorem top_bit (v : Bound) : v.getLsbD 47 = decide (2 ^ 47 ≤ v.toNat) := by
  have := v.isLt
  rw [← BitVec.testBit_toNat, Nat.testBit_eq_decide_div_mod_eq]
  congr 1
  apply propext
  omega

/-- The second-highest bit of a bound. -/
theorem second_bit (v : Bound) : v.getLsbD 46 = decide (2 ^ 46 ≤ v.toNat % 2 ^ 47) := by
  have := v.isLt
  rw [← BitVec.testBit_toNat, Nat.testBit_eq_decide_div_mod_eq]
  congr 1
  apply propext
  omega

/-- The loop ends on a normalised interval, if low ≤ high (41_arith_encoder.md R117). -/
theorem shift?_none {iv : Interval} (le : iv.low.toNat ≤ iv.high.toNat) : iv.shift? = none ↔ IntervalOk iv := by
  have hl := iv.low.isLt
  have hh := iv.high.isLt
  unfold Interval.shift? IntervalOk
  simp only [top_bit, second_bit]
  split
  · rename_i h
    simp only [decide_eq_decide] at h
    simp only [reduceCtorEq, false_iff]
    omega
  · rename_i h
    simp only [decide_eq_decide] at h
    split
    · rename_i h'
      simp only [Bool.and_eq_true, Bool.not_eq_true', decide_eq_true_eq, decide_eq_false_iff_not] at h'
      simp only [reduceCtorEq, false_iff]
      omega
    · rename_i h'
      simp only [Bool.and_eq_true, Bool.not_eq_true', decide_eq_true_eq, decide_eq_false_iff_not] at h'
      simp only [true_iff]
      omega

/-- When the top bits agree (41_arith_encoder.md R113). -/
theorem shift?_top {iv : Interval} {b : Bool} (h : iv.shift? = some (.top b)) :
    b = decide (2 ^ 47 ≤ iv.low.toNat) ∧ b = decide (2 ^ 47 ≤ iv.high.toNat) := by
  unfold Interval.shift? at h
  simp only [top_bit] at h
  split at h
  · simp only [Option.some.injEq, Shift.top.injEq] at h
    rename_i e
    exact ⟨h.symm, by rw [← e]; exact h.symm⟩
  · split at h <;> simp at h

/-- When the underflow step is taken, if low ≤ high (41_arith_encoder.md R113). -/
theorem shift?_underflow {iv : Interval} (le : iv.low.toNat ≤ iv.high.toNat) (h : iv.shift? = some .underflow) :
    iv.low.toNat < 2 ^ 47 ∧ 2 ^ 46 ≤ iv.low.toNat ∧ 2 ^ 47 ≤ iv.high.toNat ∧ iv.high.toNat < 2 ^ 47 + 2 ^ 46 := by
  have hl := iv.low.isLt
  have hh := iv.high.isLt
  unfold Interval.shift? at h
  simp only [top_bit, second_bit] at h
  split at h
  · simp at h
  · rename_i e
    simp only [decide_eq_decide] at e
    split at h
    · rename_i h'
      simp only [Bool.and_eq_true, Bool.not_eq_true', decide_eq_true_eq, decide_eq_false_iff_not] at h'
      omega
    · simp at h

/-- A bound doubled, with a bit entering at the bottom. -/
theorem toNat_double (v : Bound) : (v <<< 1).toNat = 2 * v.toNat % 2 ^ 48 := by
  rw [BitVec.toNat_shiftLeft, Nat.shiftLeft_eq]
  congr 1
  omega

theorem toNat_double_or_one (v : Bound) : ((v <<< 1) ||| 1#48).toNat = 2 * v.toNat % 2 ^ 48 + 1 := by
  have e : (v <<< 1).toNat % 2 = 0 := by rw [toNat_double]; omega
  rw [BitVec.toNat_or, ← toNat_double]
  generalize (v <<< 1).toNat = n at e
  obtain ⟨k, rfl⟩ : ∃ k, n = 2 * k := ⟨n / 2, by omega⟩
  exact (Nat.two_pow_add_eq_or_of_lt (i := 1) (b := 1) (by omega) k).symm

/-- What a top step makes of the bounds: both doubled, the shared top bit dropped (41_arith_encoder.md R116 (c)). -/
theorem shifted_top (iv : Interval) (b : Bool) :
    (iv.shifted (.top b)).low.toNat = 2 * iv.low.toNat % 2 ^ 48 ∧
    (iv.shifted (.top b)).high.toNat = 2 * iv.high.toNat % 2 ^ 48 + 1 :=
  ⟨toNat_double _, toNat_double_or_one _⟩

theorem toNat_sub_quarter {v : Bound} (h : 2 ^ 46 ≤ v.toNat) : (v - Config.quarter).toNat = v.toNat - 2 ^ 46 := by
  have := v.isLt
  rw [BitVec.toNat_sub]
  simp only [Config.quarter, BitVec.toNat_ofNat]
  omega

/-- What an underflow step makes of the bounds: QUARTER taken off, then doubled (41_arith_encoder.md R116 (c)). -/
theorem shifted_underflow {iv : Interval} (hl : 2 ^ 46 ≤ iv.low.toNat) (hl' : iv.low.toNat < 2 ^ 47)
    (hh : 2 ^ 47 ≤ iv.high.toNat) (hh' : iv.high.toNat < 2 ^ 47 + 2 ^ 46) :
    (iv.shifted .underflow).low.toNat = 2 * (iv.low.toNat - 2 ^ 46) ∧
    (iv.shifted .underflow).high.toNat = 2 * (iv.high.toNat - 2 ^ 46) + 1 := by
  constructor
  · simp only [Interval.shifted]
    rw [toNat_double, toNat_sub_quarter hl]
    omega
  · simp only [Interval.shifted]
    rw [toNat_double_or_one, toNat_sub_quarter (by omega)]
    omega

/-- Every step doubles the width (41_arith_encoder.md R116 (c)). -/
theorem shifted_width {iv : Interval} (le : iv.low.toNat ≤ iv.high.toNat) {k : Shift} (h : iv.shift? = some k) :
    (iv.shifted k).low.toNat ≤ (iv.shifted k).high.toNat ∧
    (iv.shifted k).high.toNat - (iv.shifted k).low.toNat + 1 = 2 * (iv.high.toNat - iv.low.toNat + 1) := by
  have hl := iv.low.isLt
  have hh := iv.high.isLt
  cases k with
  | top b =>
    obtain ⟨e1, e2⟩ := shift?_top h
    obtain ⟨l, u⟩ := shifted_top iv b
    rw [l, u]
    cases b
    · simp only [Bool.false_eq, decide_eq_false_iff_not] at e1 e2
      omega
    · simp only [Bool.true_eq, decide_eq_true_eq] at e1 e2
      omega
  | underflow =>
    obtain ⟨a, b, c, d⟩ := shift?_underflow le h
    obtain ⟨l, u⟩ := shifted_underflow b a c d
    rw [l, u]
    omega

/-! ## One turn of each loop -/

@[simp] theorem normalise_zero (e : Encoder) (w : Writer) : normalise 0 e w = (e, w) := rfl

theorem normalise_stop {n : Nat} {e : Encoder} (w : Writer) (h : e.toInterval.shift? = none) :
    normalise n e w = (e, w) := by
  cases n with
  | zero => rfl
  | succ n => simp [normalise, h]

theorem normalise_top {n : Nat} {e : Encoder} {b : Bool} (w : Writer) (h : e.toInterval.shift? = some (.top b)) :
    normalise (n + 1) e w =
      normalise n { e with toInterval := e.toInterval.shifted (.top b), pending := 0 } (emitBit b e.pending w) := by
  simp [normalise, h]

theorem normalise_underflow {n : Nat} {e : Encoder} (w : Writer) (h : e.toInterval.shift? = some .underflow) :
    normalise (n + 1) e w =
      normalise n { e with toInterval := e.toInterval.shifted .underflow, pending := e.pending + 1 } w := by
  simp [normalise, h]

@[simp] theorem normaliseDecoder_zero (bs : List Byte) (d : Decoder) (r : BitReader) :
    normaliseDecoder bs 0 d r = (d, r) := rfl

theorem normaliseDecoder_stop {bs : List Byte} {n : Nat} {d : Decoder} (r : BitReader) (h : d.toInterval.shift? = none) :
    normaliseDecoder bs n d r = (d, r) := by
  cases n with
  | zero => rfl
  | succ n => simp [normaliseDecoder, h]

theorem normaliseDecoder_step {bs : List Byte} {n : Nat} {d : Decoder} {k : Shift} (r : BitReader)
    (h : d.toInterval.shift? = some k) :
    normaliseDecoder bs (n + 1) d r =
      normaliseDecoder bs n
        { d with toInterval := d.toInterval.shifted k, code := shiftCode d.code (brGet bs r).1 k } (brGet bs r).2 := by
  simp [normaliseDecoder, h]

/-- The loop leaves `done` alone. -/
@[simp] theorem normalise_done (n : Nat) (e : Encoder) (w : Writer) : (normalise n e w).1.done = e.done := by
  induction n generalizing e w with
  | zero => rfl
  | succ n ih =>
    cases h : e.toInterval.shift? with
    | none => rw [normalise_stop w h]
    | some k =>
      cases k with
      | top b => rw [normalise_top w h, ih]
      | underflow => rw [normalise_underflow w h, ih]

/-- The loop leaves `primed` and `finished` alone. -/
@[simp] theorem normaliseDecoder_flags (bs : List Byte) (n : Nat) (d : Decoder) (r : BitReader) :
    (normaliseDecoder bs n d r).1.primed = d.primed ∧ (normaliseDecoder bs n d r).1.finished = d.finished := by
  induction n generalizing d r with
  | zero => exact ⟨rfl, rfl⟩
  | succ n ih =>
    cases h : d.toInterval.shift? with
    | none => rw [normaliseDecoder_stop r h]; exact ⟨rfl, rfl⟩
    | some k => rw [normaliseDecoder_step r h]; exact ih _ _

end Sys2Proof.Machine
end

