-- ==== Sys2Proof/Laws/Decode.lean ====
section
/-! SUPPORT. The fields of a packed word, the rows of the opcode map and the control register numbers. -/

namespace Sys2Proof

/-- The bits of a packed word (30_encoding.md R60). -/
theorem getLsbD_packWord (op idx : BitVec 8) (imm : Imm) (i : Nat) :
    (packWord op idx imm).getLsbD i =
      if i < 32 then imm.getLsbD i else if i < 48 then false
      else if i < 56 then idx.getLsbD (i - 48) else op.getLsbD (i - 56) := by
  have h1 : (packWord op idx imm).getLsbD i =
      if i < 32 then imm.getLsbD i else (op ++ idx ++ 0#16).getLsbD (i - 32) := BitVec.getLsbD_append
  have h2 : (op ++ idx ++ 0#16).getLsbD (i - 32) =
      if i - 32 < 16 then (0#16).getLsbD (i - 32) else (op ++ idx).getLsbD (i - 32 - 16) :=
    BitVec.getLsbD_append
  have h3 : (op ++ idx).getLsbD (i - 32 - 16) =
      if i - 32 - 16 < 8 then idx.getLsbD (i - 32 - 16) else op.getLsbD (i - 32 - 16 - 8) :=
    BitVec.getLsbD_append
  rw [h1, h2, h3, BitVec.getLsbD_zero]
  simp only [Nat.sub_sub]
  split_ifs <;> first | rfl | omega

@[simp] theorem opField_packWord (op idx : BitVec 8) (imm : Imm) : opField (packWord op idx imm) = op := by
  apply BitVec.eq_of_getLsbD_eq
  intro i hi
  simp [opField, getLsbD_packWord, hi, show ¬56 + i < 32 by omega, show ¬56 + i < 48 by omega]

@[simp] theorem idxField_packWord (op idx : BitVec 8) (imm : Imm) : idxField (packWord op idx imm) = idx := by
  apply BitVec.eq_of_getLsbD_eq
  intro i hi
  simp [idxField, getLsbD_packWord, hi, show ¬48 + i < 32 by omega, show 48 + i < 56 by omega]

@[simp] theorem rsvField_packWord (op idx : BitVec 8) (imm : Imm) : rsvField (packWord op idx imm) = 0#16 := by
  apply BitVec.eq_of_getLsbD_eq
  intro i hi
  simp [rsvField, getLsbD_packWord, show 32 + i < 48 by omega]

@[simp] theorem immField_packWord (op idx : BitVec 8) (imm : Imm) : immField (packWord op idx imm) = imm := by
  apply BitVec.eq_of_getLsbD_eq
  intro i hi
  simp [immField, getLsbD_packWord, hi]

/-- A word with `rsv` = 0 is the packing of its fields. -/
theorem packWord_fields {w : Word} (h : rsvField w = 0#16) : packWord (opField w) (idxField w) (immField w) = w := by
  apply BitVec.eq_of_getLsbD_eq
  intro i hi
  have bit : ∀ j, j < 16 → w.getLsbD (32 + j) = false := by
    intro j hj
    have := congrArg (fun v : BitVec 16 => v.getLsbD j) h
    simpa [rsvField, hj] using this
  rw [getLsbD_packWord]
  split_ifs with h1 h2 h3
  · simp [immField, h1]
  · have := bit (i - 32) (by omega)
    rw [show 32 + (i - 32) = i by omega] at this
    exact this.symm
  · simp [idxField, show i - 48 < 8 by omega, show 48 + (i - 48) = i by omega]
  · simp [opField, show i - 56 < 8 by omega, show 56 + (i - 56) = i by omega]

/-- No two rows of the opcode map share an operation code (30_encoding.md R63). -/
theorem opTable_distinct : (opTable.map Prod.fst).Nodup := by decide

/-- A register's number names it (10_state.md R20). -/
@[simp] theorem ofNumber_number (r : Csr) : Csr.ofNumber r.number = some r := by
  cases r <;> rfl

/-- Only a register's own number names it. -/
theorem number_of_ofNumber {n : BitVec 8} {r : Csr} (h : Csr.ofNumber n = some r) : r.number = n := by
  have := List.find?_some h
  simpa using this

/-- `checked` accepts exactly the well-formed command it is given. -/
theorem checked_ok {i j : Instr} : checked i = .ok j ↔ i = j ∧ i.WellFormed := by
  unfold checked
  cases h : i.defect <;> simp [h, Instr.WellFormed]

theorem aboveRange_none {v : Imm} {limit : Nat} : aboveRange v limit = none ↔ v.toNat ≤ limit := by
  unfold aboveRange
  split <;> simp_all

theorem aboveRange_some {v : Imm} {limit : Nat} {r : Reject} :
    aboveRange v limit = some r ↔ limit < v.toNat ∧ r = .operandAboveRange := by
  unfold aboveRange
  split <;> simp_all [eq_comm]

end Sys2Proof
end

