-- ==== Sys2Proof/Laws/PerInstr.lean ====
section
/-! SUPPORT. Statements about each instruction as syntax: the word of each command against the row of
spec/opcode_table.json. -/

namespace Sys2Proof.Laws.EncodingFields

/-- The `match` and `mask` of a command's row of spec/opcode_table.json. -/
def row : Instr → Word × Word
  | .nop => (0x0000000000000000#64, 0xFFFFFFFFFFFFFFFF#64)
  | .reset => (0x0100000000000000#64, 0xFFFFFFFFFFFFFFFF#64)
  | .csrRd _ => (0x0200000000000000#64, 0xFF00FFFFFFFFFFFF#64)
  | .csrWr _ _ => (0x0300000000000000#64, 0xFF00FFFF00000000#64)
  | .smInit => (0x1000000000000000#64, 0xFFFFFFFFFFFFFFFF#64)
  | .smRange _ => (0x1100000000000000#64, 0xFFFFFFFF00000000#64)
  | .smFind _ => (0x1200000000000000#64, 0xFFFFFFFF00000000#64)
  | .smUpdate _ => (0x1300000000000000#64, 0xFFFFFFFF00000000#64)
  | .aeInit => (0x2000000000000000#64, 0xFFFFFFFFFFFFFFFF#64)
  | .aeEncode _ => (0x2100000000000000#64, 0xFFFFFFFF00000000#64)
  | .aeFinish => (0x2200000000000000#64, 0xFFFFFFFFFFFFFFFF#64)
  | .adInit => (0x3000000000000000#64, 0xFFFFFFFFFFFFFFFF#64)
  | .adDecode => (0x3100000000000000#64, 0xFFFFFFFFFFFFFFFF#64)
  | .adFinished => (0x3200000000000000#64, 0xFFFFFFFFFFFFFFFF#64)
  | .bwInit => (0x4000000000000000#64, 0xFFFFFFFFFFFFFFFF#64)
  | .bwPut _ => (0x4100000000000000#64, 0xFFFFFFFF00000000#64)
  | .bwFinish => (0x4200000000000000#64, 0xFFFFFFFFFFFFFFFF#64)
  | .brInit => (0x4800000000000000#64, 0xFFFFFFFFFFFFFFFF#64)
  | .brGet => (0x4900000000000000#64, 0xFFFFFFFFFFFFFFFF#64)
  | .prInit => (0x5000000000000000#64, 0xFFFFFFFFFFFFFFFF#64)
  | .prPredict => (0x5100000000000000#64, 0xFFFFFFFFFFFFFFFF#64)
  | .prEnc => (0x5200000000000000#64, 0xFFFFFFFFFFFFFFFF#64)
  | .prDec => (0x5300000000000000#64, 0xFFFFFFFFFFFFFFFF#64)
  | .prFwd => (0x5400000000000000#64, 0xFFFFFFFFFFFFFFFF#64)
  | .prInv => (0x5500000000000000#64, 0xFFFFFFFFFFFFFFFF#64)
  | .resClr => (0x5800000000000000#64, 0xFFFFFFFFFFFFFFFF#64)
  | .resPush _ => (0x5900000000000000#64, 0xFFFFFFFF00000000#64)
  | .encBytes => (0x6000000000000000#64, 0xFFFFFFFFFFFFFFFF#64)
  | .decBytes _ => (0x6100000000000000#64, 0xFFFFFFFF00000000#64)
  | .encGrid => (0x6200000000000000#64, 0xFFFFFFFFFFFFFFFF#64)
  | .decGrid => (0x6300000000000000#64, 0xFFFFFFFFFFFFFFFF#64)

/-- The word of a command matches its own row, whatever its operands. -/
def Statement (i : Instr) : Prop := encode i &&& (row i).2 = (row i).1

/-- A packed word masked field by field (30_encoding.md R60). -/
theorem packWord_and (op idx : BitVec 8) (imm : Imm) (a b : BitVec 8) (c : BitVec 16) (d : BitVec 32) :
    packWord op idx imm &&& (a ++ b ++ c ++ d) = (op &&& a) ++ (idx &&& b) ++ (0#16 &&& c) ++ (imm &&& d) := by
  unfold packWord
  rw [BitVec.and_append, BitVec.and_append, BitVec.and_append]

/-- A word whose row leaves `imm` free. -/
theorem imm_row (op : BitVec 8) (imm : Imm) :
    packWord op 0#8 imm &&& 0xFFFFFFFF00000000#64 = packWord op 0#8 0#32 := by
  have h := packWord_and op 0#8 imm 0xFF#8 0xFF#8 0xFFFF#16 0#32
  rw [BitVec.and_zero, show op &&& 0xFF#8 = op from BitVec.and_allOnes] at h
  exact h

theorem nop : Statement .nop := rfl
theorem reset : Statement .reset := rfl
theorem csrRd (r : Csr) : Statement (.csrRd r) := by cases r <;> rfl
theorem csrWr (r : Csr) (v : Imm) : Statement (.csrWr r v) := by
  have h := packWord_and 0x03#8 r.number v 0xFF#8 0#8 0xFFFF#16 0#32
  rw [BitVec.and_zero, BitVec.and_zero] at h
  exact h
theorem smInit : Statement .smInit := rfl
theorem smRange (v : Imm) : Statement (.smRange v) := imm_row 0x11#8 v
theorem smFind (v : Imm) : Statement (.smFind v) := imm_row 0x12#8 v
theorem smUpdate (v : Imm) : Statement (.smUpdate v) := imm_row 0x13#8 v
theorem aeInit : Statement .aeInit := rfl
theorem aeEncode (v : Imm) : Statement (.aeEncode v) := imm_row 0x21#8 v
theorem aeFinish : Statement .aeFinish := rfl
theorem adInit : Statement .adInit := rfl
theorem adDecode : Statement .adDecode := rfl
theorem adFinished : Statement .adFinished := rfl
theorem bwInit : Statement .bwInit := rfl
theorem bwPut (v : Imm) : Statement (.bwPut v) := imm_row 0x41#8 v
theorem bwFinish : Statement .bwFinish := rfl
theorem brInit : Statement .brInit := rfl
theorem brGet : Statement .brGet := rfl
theorem prInit : Statement .prInit := rfl
theorem prPredict : Statement .prPredict := rfl
theorem prEnc : Statement .prEnc := rfl
theorem prDec : Statement .prDec := rfl
theorem prFwd : Statement .prFwd := rfl
theorem prInv : Statement .prInv := rfl
theorem resClr : Statement .resClr := rfl
theorem resPush (v : Imm) : Statement (.resPush v) := imm_row 0x59#8 v
theorem encBytes : Statement .encBytes := rfl
theorem decBytes (v : Imm) : Statement (.decBytes v) := imm_row 0x61#8 v
theorem encGrid : Statement .encGrid := rfl
theorem decGrid : Statement .decGrid := rfl

end Sys2Proof.Laws.EncodingFields
end

