-- ==== Sys2Proof/Laws/Predictor.lean ====
section
/-! SUPPORT. The predictor: which pixels a prediction reads, what one pixel's procedures can do, one turn of a traversal. -/

namespace Sys2Proof.Machine

/-- Left: black at the first pixel, else the pixel before (44_predictor.md R172, R174). -/
theorem predictSource_left (w i : Nat) :
    predictSource 0#16 w i = some (if i = 0 then .black else .copy (i - 1)) := by simp [predictSource]

/-- Average, in its four cases (44_predictor.md R172). -/
theorem predictSource_average (w i : Nat) :
    predictSource 1#16 w i = some (
      if i % w = 0 ∧ i / w = 0 then .black
      else if i % w = 0 then .copy (i - w)
      else if i / w = 0 then .copy (i - 1)
      else .average (i - 1) (i - w) (i - w - 1)) := by simp [predictSource]

/-- Any other id is unknown (44_predictor.md R172). -/
theorem predictSource_unknown {p : BitVec 16} (h0 : p ≠ 0#16) (h1 : p ≠ 1#16) (w i : Nat) :
    predictSource p w i = none := by simp [predictSource, h0, h1]

/-- Every pixel a prediction reads lies before the pixel predicted (44_predictor.md R172, 20_memory.md R54). -/
theorem reach_le {p : BitVec 16} {w i : Nat} {src : Source} (hw : 0 < w) (h : predictSource p w i = some src) :
    src.reach ≤ 3 * i := by
  have key : i / w ≠ 0 → w ≤ i := fun hne => by
    by_contra hlt
    exact hne (Nat.div_eq_of_lt (by omega))
  have first : i % w ≠ 0 → 0 < i := fun hne => by
    rcases Nat.eq_zero_or_pos i with rfl | hi
    · simp at hne
    · exact hi
  unfold predictSource at h
  split at h
  · simp only [Option.some.injEq] at h
    subst h
    split <;> simp only [Source.reach] <;> omega
  · split at h
    · simp only [Option.some.injEq] at h
      subst h
      split
      · simp [Source.reach]
      · split
        · have := key (by tauto)
          simp only [Source.reach]
          omega
        · have := first ‹_›
          split
          · simp only [Source.reach]
            omega
          · have := key ‹_›
            simp only [Source.reach]
            omega
    · simp at h

/-- A known prediction reads up to `predictionEnd` (44_predictor.md R172). -/
theorem reach_eq_predictionEnd {p : BitVec 16} {w i : Nat} {src : Source} (hw : 0 < w) (h : predictSource p w i = some src) :
    src.reach = predictionEnd p w i := by
  unfold predictSource at h
  split at h
  · simp only [Option.some.injEq] at h
    subst h
    split
    · simp [Source.reach, predictionEnd, *]
    · simp only [Source.reach, predictionEnd, *, if_true]
      omega
  · split at h
    · simp only [Option.some.injEq] at h
      subst h
      rename_i h0 h1
      simp only [predictionEnd, if_neg h0]
      split
      · rfl
      · split
        · rfl
        · have hi : i ≠ 0 := by
            rintro rfl
            simp at *
          split
          · simp only [Source.reach]
            omega
          · rename_i hne
            have : w ≤ i := by
              by_contra hlt
              exact hne (Nat.div_eq_of_lt (by omega))
            simp only [Source.reach]
            omega
    · simp at h

/-- What appending to RES can do (20_memory.md R42, R49). -/
theorem appendRes_cases (bytes : List Byte) (s : State) :
    (fits s.caps.resCap (s.res.bytes.length + bytes.length) = true ∧
      appendRes bytes s = .ok (s.setRes ⟨s.res.bytes ++ bytes, s.res.rcur⟩)) ∨
    (fits s.caps.resCap (s.res.bytes.length + bytes.length) = false ∧ appendRes bytes s = .error ⟨.capacity, s⟩) := by
  unfold appendRes
  cases h : fits s.caps.resCap (s.res.bytes.length + bytes.length) with
  | true => exact .inl ⟨rfl, rfl⟩
  | false => exact .inr ⟨rfl, rfl⟩

/-- What `pr_enc` can do (44_predictor.md R176). -/
theorem prEnc_cases (s : State) :
    (predictSource s.conf.pred s.conf.width.toNat s.prPos = none ∧ prEnc s = .error ⟨.formatUnknownPredictor, s⟩) ∨
    prEnc s = .error ⟨.capacity, s⟩ ∨
    ∃ src, predictSource s.conf.pred s.conf.width.toNat s.prPos = some src ∧
      fits s.caps.pixCap (3 * s.prPos + 3) = true ∧ fits s.caps.resCap (s.res.bytes.length + 3) = true ∧
      let r := (pixelAt s.pix s.prPos).residual (src.pixel s.pix)
      prEnc s = .ok (r, (s.setRes ⟨s.res.bytes ++ r.bytes, s.res.rcur⟩).setPrPos (s.prPos + 1)) := by
  unfold prEnc sourceHere
  cases h : predictSource s.conf.pred s.conf.width.toNat s.prPos with
  | none => exact .inl ⟨rfl, rfl⟩
  | some src =>
    right
    simp only [ok_bind]
    cases hf : fits s.caps.pixCap (max src.reach (3 * s.prPos + 3)) with
    | false => exact .inl rfl
    | true =>
      simp only [need_true_bind]
      rcases appendRes_cases ((pixelAt s.pix s.prPos).residual (src.pixel s.pix)).bytes s with ⟨ha, e⟩ | ⟨-, e⟩
      · right
        rw [e]
        exact ⟨src, rfl, fits_mono hf (le_max_right _ _), ha, rfl⟩
      · left
        rw [e]
        rfl

/-- What `pr_dec` can do (44_predictor.md R177). -/
theorem prDec_cases (s : State) :
    (predictSource s.conf.pred s.conf.width.toNat s.prPos = none ∧ prDec s = .error ⟨.formatUnknownPredictor, s⟩) ∨
    prDec s = .error ⟨.capacity, s⟩ ∨
    ∃ src, predictSource s.conf.pred s.conf.width.toNat s.prPos = some src ∧
      fits s.caps.pixCap (3 * s.prPos + 3) = true ∧
      let a := (src.pixel s.pix).restored (residualAt s.res)
      prDec s = .ok (a, ((s.setPix (s.pix.writeBytes (3 * s.prPos) a.bytes)).setRes
        ⟨s.res.bytes, s.res.rcur + 3⟩).setPrPos (s.prPos + 1)) := by
  unfold prDec sourceHere
  cases h : predictSource s.conf.pred s.conf.width.toNat s.prPos with
  | none => exact .inl ⟨rfl, rfl⟩
  | some src =>
    right
    simp only [ok_bind]
    cases hf : fits s.caps.pixCap (max src.reach (3 * s.prPos + 3)) with
    | false => exact .inl rfl
    | true => exact .inr ⟨src, rfl, fits_mono hf (le_max_right _ _), rfl⟩

@[simp] theorem repeatProc_zero (f : State → Proc State) (s : State) : repeatProc f 0 s = .ok s := rfl

/-- One turn of a traversal. -/
theorem repeatProc_succ (f : State → Proc State) (n : Nat) (s : State) :
    repeatProc f (n + 1) s = f s >>= repeatProc f n := rfl

end Sys2Proof.Machine
end

