-- ==== Sys2Proof/Laws/Stream.lean ====
section
/-! SUPPORT. What coding and decoding one symbol can do, and one turn of each stream loop (45_stream_ops.md R201, R202). -/

namespace Sys2Proof.Machine

/-- What `ae_encode` can do: only AE, BW and BS change, or a raise with nothing changed (41_arith_encoder.md R112). -/
theorem aeEncode_cases (sym : Nat) (s : State) :
    aeEncode sym s = .error ⟨.modelInvariantViolation, s⟩ ∨ aeEncode sym s = .error ⟨.capacity, s⟩ ∨
    (total s.freq ≤ 65535 ∧
      let p := normalise shiftBound { s.ae with toInterval := s.ae.toInterval.narrow (sliceOf s.freq sym) } s.writer;
      (p.2.bs.length = s.bs.length ∨ fits s.caps.bsCap p.2.bs.length = true) ∧
      aeEncode sym s = .ok ((s.setWriter p.2).setAe p.1)) := by
  unfold aeEncode
  rcases smRange_cases sym s with ⟨ht, e⟩ | ⟨-, e⟩
  · rw [e]
    simp only [ok_bind]
    rcases commitWriter_cases (normalise shiftBound
      { s.ae with toInterval := s.ae.toInterval.narrow (sliceOf s.freq sym) } s.writer).2 s with ⟨hc, e'⟩ | ⟨-, -, e'⟩
    · rw [e']
      exact .inr (.inr ⟨ht, hc, rfl⟩)
    · rw [e']
      exact .inr (.inl rfl)
  · rw [e]
    exact .inl rfl

/-- What `ae_finish` can do (41_arith_encoder.md R119). -/
theorem aeFinish_cases (s : State) :
    aeFinish s = .error ⟨.capacity, s⟩ ∨
    (let w := (finishBits s.ae s.writer).finish;
      (w.bs.length = s.bs.length ∨ fits s.caps.bsCap w.bs.length = true) ∧
      aeFinish s = .ok ((s.setWriter w).setAe { s.ae with pending := 0, done := true })) := by
  unfold aeFinish
  rcases commitWriter_cases (finishBits s.ae s.writer).finish s with ⟨hc, e⟩ | ⟨-, -, e⟩
  · rw [e]
    exact .inr ⟨hc, rfl⟩
  · rw [e]
    exact .inl rfl

/-- What `ad_decode` can do: only AD and BR change, or a raise with nothing changed (42_arith_decoder.md R132 to R136). -/
theorem adDecode_cases (s : State) :
    (65535 < total s.freq ∧ adDecode s = .error ⟨.modelInvariantViolation, s⟩) ∨
    (total s.freq ≤ 65535 ∧
      let sym := findSymbol s.freq (scaledValue s.ad (total s.freq))
      let p := normaliseDecoder s.bs shiftBound
        { s.ad with toInterval := s.ad.toInterval.narrow (sliceOf s.freq sym) } s.br
      adDecode s = .ok (sym, (s.setAd (markFinished sym p.1)).setBr p.2)) := by
  unfold adDecode
  by_cases h : total s.freq ≤ Config.maxTotal
  · right
    refine ⟨h, ?_⟩
    simp only [h, decide_true, need_true_bind]
  · left
    simp only [h, decide_false, need_false_bind]
    exact ⟨Nat.lt_of_not_le h, trivial⟩

@[simp] theorem encSymbols_nil (s : State) : encSymbols [] s = .ok s := rfl

/-- One symbol of a stream coded (45_stream_ops.md R201). -/
theorem encSymbols_cons (sym : Nat) (rest : List Nat) (s : State) :
    encSymbols (sym :: rest) s = encSymbol sym s >>= encSymbols rest := rfl

theorem encSymbol_eq (sym : Nat) (s : State) : encSymbol sym s = (aeEncode sym s >>= fun t => .ok (smUpdate sym t)) := rfl

theorem decSymbol_eq (s : State) : decSymbol s = (adDecode s >>= fun r => .ok (r.1, smUpdate r.1 r.2)) := rfl

/-- The last symbol the limit allows must be the end of the stream (45_stream_ops.md R202). -/
theorem decLoop_zero (s : State) :
    decLoop 0 s = decSymbol s >>= fun r => if r.1 = 256 then .ok r.2 else .error ⟨.lengthMismatch, r.2⟩ := rfl

/-- One turn of the loop of `dec_bytes` (45_stream_ops.md R202). -/
theorem decLoop_succ (room : Nat) (s : State) :
    decLoop (room + 1) s = decSymbol s >>= fun r =>
      if r.1 = 256 then .ok r.2 else appendRes [BitVec.ofNat 8 r.1] r.2 >>= decLoop room := rfl

end Sys2Proof.Machine
end

