-- ==== Sys2Proof/Laws/Step.lean ====
section
/-! SUPPORT. Everything a step can do. -/

namespace Sys2Proof.Machine

/-- If a step answers a next state, it was idle, ran a command, faulted on a rejected word, or made a host move. -/
theorem step_cases {s t : State} (h : step s = .next t) :
    (s.host = [] ∧ t = s) ∨
    (∃ w rest i, s.host = .command w :: rest ∧ decode w = .ok i ∧ exec i (s.setHost rest) = .next t) ∨
    (∃ w rest r, s.host = .command w :: rest ∧ decode w = .error r ∧ t = raise (rejectCause r) w (s.setHost rest)) ∨
    (∃ a bytes rest, s.host = .storePix a bytes :: rest ∧ (bytes.isEmpty || fits s.caps.pixCap (a + bytes.length)) = true ∧
      t = (s.setHost rest).setPix (s.pix.writeBytes a bytes)) ∨
    (∃ bytes rest, s.host = .loadRes bytes :: rest ∧ fits s.caps.resCap bytes.length = true ∧
      t = (s.setHost rest).setRes ⟨bytes, s.res.rcur⟩) ∨
    (∃ bytes rest, s.host = .loadBs bytes :: rest ∧ fits s.caps.bsCap bytes.length = true ∧
      t = (s.setHost rest).setBs bytes) ∨
    (∃ cells rest, s.host = .powerOn cells :: rest ∧ (cells.all fun c => fits s.caps.pixCap (c.1 + 1)) = true ∧
      t = (leaveFault (s.setHost rest)).setPix (Memory.ofCells cells)) := by
  unfold step at h
  cases hh : s.host with
  | nil =>
    rw [hh] at h
    cases h
    exact .inl ⟨rfl, rfl⟩
  | cons a rest =>
    right
    rw [hh] at h
    cases a with
    | command w =>
      simp only [issue] at h
      cases hd : decode w with
      | ok i =>
        rw [hd] at h
        exact .inl ⟨w, rest, i, rfl, hd, h⟩
      | error r =>
        rw [hd] at h
        cases h
        exact .inr (.inl ⟨w, rest, r, rfl, hd, rfl⟩)
    | storePix a bytes =>
      obtain ⟨hf, e⟩ := hostMove_cases h
      exact .inr (.inr (.inl ⟨a, bytes, rest, rfl, hf, e⟩))
    | loadRes bytes =>
      obtain ⟨hf, e⟩ := hostMove_cases h
      exact .inr (.inr (.inr (.inl ⟨bytes, rest, rfl, hf, e⟩)))
    | loadBs bytes =>
      obtain ⟨hf, e⟩ := hostMove_cases h
      exact .inr (.inr (.inr (.inr (.inl ⟨bytes, rest, rfl, hf, e⟩))))
    | powerOn cells =>
      obtain ⟨hf, e⟩ := hostMove_cases h
      exact .inr (.inr (.inr (.inr (.inr ⟨cells, rest, rfl, hf, e⟩))))

/-- The word a fetch takes is the one placed. -/
theorem withFetchWord_host (s : State) (nbits w : Nat) :
    (s.withFetchWord nbits w).host = .command (BitVec.ofNat 64 (w % 2 ^ nbits)) :: s.host := rfl

end Sys2Proof.Machine
end

