-- ==== Sys2Proof/Tests/Slice0.lean ====
section
/-! SUPPORT. The model's own tests. Words, start states and expected results are those of 95_test_vectors.md; each
theorem names the vector it is taken from. Then, for each statement with hypotheses, a concrete case that meets them. -/

namespace Sys2Proof.Tests

open Sys2Proof.Machine

set_option Elab.async false

/-- The state a command answers, if it answers one. -/
def answer (o : Host.Outcome State Fault Refusal) : Option State :=
  match o with
  | .next t => some t
  | .fault _ => none
  | .refused _ => none

/-- What `f` reads of the state after one command. -/
def after {α : Type} (i : Instr) (s : State) (f : State → α) : Option α := (answer (exec i s)).map f

/-- The reset state with the given image parameters and pixel bytes. -/
def image (w h : BitVec 32) (pred : BitVec 16) (bytes : List Byte) : State :=
  (State.reset.setConf ⟨w, h, pred⟩).setPix (State.reset.pix.writeBytes 0 bytes)

/-- The reset state with the given content of BS. -/
def stream (bytes : List Byte) : State := State.reset.setBs bytes

/-- The reset state with the given content of RES. -/
def residuals (bytes : List Byte) : State := State.reset.setRes ⟨bytes, 0⟩

/-- A state in which a fault stands (V-SYS-3). -/
def inFault : State := State.reset.faulted 2#8 0x2100000000000101#64

/-- The model after `SM.UPDATE 3` (V-SM-2). -/
def updated3 : State := State.reset.setFreq (List.replicate 3 1 ++ [2] ++ List.replicate 253 1)

/-! ## Well-formedness: a term that each check refuses -/

theorem test_wf_refuses_write_of_readOnly_csr : ¬(Instr.csrWr .channels 5#32).WellFormed := by decide
theorem test_wf_refuses_wide_pred : ¬(Instr.csrWr .pred 65536#32).WellFormed ∧ (Instr.csrWr .pred 65535#32).WellFormed := by
  decide
theorem test_wf_refuses_symbol_257 :
    ¬(Instr.smRange 257#32).WellFormed ∧ ¬(Instr.smUpdate 257#32).WellFormed ∧ ¬(Instr.aeEncode 257#32).WellFormed := by
  decide
theorem test_wf_refuses_bit_2 : ¬(Instr.bwPut 2#32).WellFormed ∧ (Instr.bwPut 1#32).WellFormed := by decide
theorem test_wf_refuses_byte_256 : ¬(Instr.resPush 256#32).WellFormed ∧ (Instr.resPush 255#32).WellFormed := by decide
theorem test_wf_takes_every_limit :
    (Instr.decBytes 0xFFFFFFFF#32).WellFormed ∧ (Instr.smFind 0xFFFFFFFF#32).WellFormed := by decide

/-! ## Decoding: the words of 95_test_vectors.md, and one word per family bit by bit from 30_encoding.md R60, R63 -/

theorem test_decode_system :
    decodeTableWord 64 0x0000000000000000 = some .nop ∧ decodeTableWord 64 0x0100000000000000 = some .reset ∧
    decodeTableWord 64 0x0221000000000000 = some (.csrRd .aeHigh) ∧
    decodeTableWord 64 0x0300000000000280 = some (.csrWr .width 640#32) ∧
    decodeTableWord 64 0x030200000000FFFF = some (.csrWr .pred 65535#32) := by decide

theorem test_decode_symbol_model :
    decodeTableWord 64 0x1000000000000000 = some .smInit ∧ decodeTableWord 64 0x1100000000000100 = some (.smRange 256#32) ∧
    decodeTableWord 64 0x1200000000000101 = some (.smFind 257#32) ∧
    decodeTableWord 64 0x1300000000000003 = some (.smUpdate 3#32) := by decide

theorem test_decode_encoder :
    decodeTableWord 64 0x2000000000000000 = some .aeInit ∧ decodeTableWord 64 0x2100000000000080 = some (.aeEncode 128#32) ∧
    decodeTableWord 64 0x2200000000000000 = some .aeFinish := by decide

theorem test_decode_decoder :
    decodeTableWord 64 0x3000000000000000 = some .adInit ∧ decodeTableWord 64 0x3100000000000000 = some .adDecode ∧
    decodeTableWord 64 0x3200000000000000 = some .adFinished := by decide

theorem test_decode_bit_stream :
    decodeTableWord 64 0x4000000000000000 = some .bwInit ∧ decodeTableWord 64 0x4100000000000001 = some (.bwPut 1#32) ∧
    decodeTableWord 64 0x4200000000000000 = some .bwFinish ∧ decodeTableWord 64 0x4800000000000000 = some .brInit ∧
    decodeTableWord 64 0x4900000000000000 = some .brGet := by decide

theorem test_decode_predictor :
    decodeTableWord 64 0x5000000000000000 = some .prInit ∧ decodeTableWord 64 0x5100000000000000 = some .prPredict ∧
    decodeTableWord 64 0x5200000000000000 = some .prEnc ∧ decodeTableWord 64 0x5300000000000000 = some .prDec ∧
    decodeTableWord 64 0x5400000000000000 = some .prFwd ∧ decodeTableWord 64 0x5500000000000000 = some .prInv ∧
    decodeTableWord 64 0x5800000000000000 = some .resClr ∧
    decodeTableWord 64 0x5900000000000041 = some (.resPush 0x41#32) := by decide

theorem test_decode_streams :
    decodeTableWord 64 0x6000000000000000 = some .encBytes ∧
    decodeTableWord 64 0x610000000000000B = some (.decBytes 11#32) ∧
    decodeTableWord 64 0x6200000000000000 = some .encGrid ∧ decodeTableWord 64 0x6300000000000000 = some .decGrid := by decide

theorem test_decode_bit_by_bit :
    decode 0b0000001000100000000000000000000000000000000000000000000000000000#64 = .ok (.csrRd .aeLow) ∧
    decode 0b0001000100000000000000000000000000000000000000000000000001000001#64 = .ok (.smRange 65#32) ∧
    decode 0b0010000100000000000000000000000000000000000000000000000100000000#64 = .ok (.aeEncode 256#32) ∧
    decode 0b0011000100000000000000000000000000000000000000000000000000000000#64 = .ok .adDecode ∧
    decode 0b0100000100000000000000000000000000000000000000000000000000000001#64 = .ok (.bwPut 1#32) ∧
    decode 0b0101100100000000000000000000000000000000000000000000000011111111#64 = .ok (.resPush 255#32) ∧
    decode 0b0110000100000000000000000000000010000000000000000000000000000001#64 = .ok (.decBytes 0x80000001#32) := by
  decide

/-- V-SYS-2, each word rejected with its reason. -/
theorem test_decode_rejects_illegal_words :
    decode 0x0400000000000000#64 = .error .reservedOp ∧ decode 0x0000000100000000#64 = .error .nonzeroRsv ∧
    decode 0x1001000000000000#64 = .error .unusedIdx ∧ decode 0x1000000000000001#64 = .error .unusedImm ∧
    decode 0x0303000000000005#64 = .error .readOnlyCsr ∧ decode 0x020B000000000000#64 = .error .unknownCsr ∧
    decode 0x0302000000010000#64 = .error .operandAboveRange ∧ decode 0x0200000000000001#64 = .error .unusedImm ∧
    decode 0xFF00000000000000#64 = .error .reservedOp := by decide

/-! ## One step of each instruction -/

/-- V-SYS-1; in the fault state too. -/
theorem test_nop : after .nop inFault id = some inFault := by decide +kernel

/-- V-SYS-3. -/
theorem test_reset : after .reset (inFault.setPix [(0, 77#8)]) id = some (State.reset.setPix [(0, 77#8)]) := by decide +kernel

/-- V-SYS-1. -/
theorem test_csrRd_aeHigh : after (.csrRd .aeHigh) State.reset (·.x) = some ⟨0x0000FFFFFFFFFFFF#64, 0, 0⟩ := by decide +kernel

/-- V-AD-2: `STATUS` 1100, read in the fault state of the third line: 1101. -/
theorem test_csrRd_status :
    after (.csrRd .status) ((inFault.setAd ⟨⟨0, 0⟩, 0, true, true⟩)) (·.x.x0) = some 0b1101#64 := by decide +kernel

/-- V-SYS-1. -/
theorem test_csrWr_width : after (.csrWr .width 640#32) State.reset id = some (State.reset.setConf ⟨640, 0, 0⟩) := by
  decide +kernel

theorem test_csrWr_pred : after (.csrWr .pred 65535#32) State.reset (·.conf) = some ⟨0, 0, 65535⟩ := by decide +kernel

/-- 40_symbol_model.md R92. -/
theorem test_smInit : after .smInit updated3 id = some State.reset := by decide +kernel

/-- V-SM-1 and V-SM-2. -/
theorem test_smRange : after (.smRange 256#32) State.reset (·.x) = some ⟨256, 257, 257⟩ := by decide +kernel
theorem test_smRange_after_update : after (.smRange 3#32) updated3 (·.x) = some ⟨3, 5, 258⟩ := by decide +kernel

/-- V-SM-2 and V-SM-1. -/
theorem test_smFind : after (.smFind 4#32) updated3 (·.x.x0) = some 3#64 := by decide +kernel
theorem test_smFind_beyond_total :
    after (.smFind 257#32) State.reset id = some (State.reset.faulted 2#8 0x1200000000000101#64) := by decide +kernel

/-- V-SM-2 and V-SM-4. -/
theorem test_smUpdate : after (.smUpdate 3#32) State.reset id = some updated3 := by decide +kernel
theorem test_smUpdate_rescales :
    after (.smUpdate 0#32) (State.reset.setFreq (65279 :: List.replicate 256 1)) (·.freq) =
      some (32640 :: List.replicate 256 1) := by decide +kernel

/-- V-AE-4b. -/
theorem test_aeInit :
    after .aeInit ((stream [0x40]).setAe ⟨⟨5, 9⟩, 3, true⟩) id = some (stream [0x40]) := by decide +kernel

/-- V-AE-1 and V-AE-3. -/
theorem test_aeEncode_eos :
    after (.aeEncode 256#32) State.reset id =
      some ((stream [0xFF]).setAe ⟨⟨0x00FF00FF0000, 0xFFFFFFFFFFFF⟩, 0, false⟩) := by decide +kernel
theorem test_aeEncode_underflow :
    after (.aeEncode 128#32) State.reset id =
      some (State.reset.setAe ⟨⟨0x007F807F8000, 0xFF807F807EFF⟩, 8, false⟩) := by decide +kernel

/-- V-AE-3b and V-AE-6b. -/
theorem test_aeFinish_pending :
    after .aeFinish (State.reset.setAe ⟨⟨0x007F807F8000, 0xFF807F807EFF⟩, 8, false⟩) id =
      some ((stream [0x7F, 0xC0]).setAe ⟨⟨0x007F807F8000, 0xFF807F807EFF⟩, 0, true⟩) := by decide +kernel
theorem test_aeFinish_upper :
    after .aeFinish ((State.reset.setAe ⟨⟨0x4E31CE31CE00, 0xCDB24DB24D7F⟩, 2, false⟩).setBw ⟨0x0C, 5⟩)
      (fun t => (t.bs, t.bw)) = some ([0x64, 0x00], ⟨0, 0⟩) := by decide +kernel

/-- V-AD-1. -/
theorem test_adInit :
    after .adInit (stream [0x00, 0x40]) id =
      some (((stream [0x00, 0x40]).setAd ⟨⟨0, 0xFFFFFFFFFFFF⟩, 0x004000000000, true, false⟩).setBr ⟨48, 32⟩) := by
  decide +kernel

/-- V-AD-5 and V-AD-2. -/
theorem test_adDecode_underflow :
    after .adDecode (((stream [0x80, 0x7F, 0x00]).setAd ⟨⟨0, 0xFFFFFFFFFFFF⟩, 0x807F00000000, true, false⟩).setBr ⟨48, 24⟩)
      (fun t => (t.x.x0, t.ad, t.br)) =
      some (128, ⟨⟨0x007F807F8000, 0xFF807F807EFF⟩, 0xFF0000000000, true, false⟩, ⟨56, 32⟩) := by decide +kernel
theorem test_adDecode_eos :
    after .adDecode (((stream [0xFF, 0x40]).setAd ⟨⟨0, 0xFFFFFFFFFFFF⟩, 0xFF4000000000, true, false⟩).setBr ⟨48, 32⟩)
      (fun t => (t.x.x0, t.ad, t.br)) =
      some (256, ⟨⟨0x00FF00FF0000, 0xFFFFFFFFFFFF⟩, 0x400000000000, true, true⟩, ⟨56, 40⟩) := by decide +kernel

/-- V-AD-2 and V-AD-3. -/
theorem test_adFinished :
    after .adFinished (State.reset.setAd ⟨⟨0, 0⟩, 0, true, true⟩) (·.x.x0) = some 1#64 ∧
    after .adFinished State.reset (·.x.x0) = some 0#64 := by decide +kernel

/-- V-BR-2: the writer's init does not touch the reader. -/
theorem test_bwInit :
    after .bwInit (((stream [0xA0, 0xC3]).setBw ⟨1, 1⟩).setBr ⟨1, 0⟩) id = some (State.reset.setBr ⟨1, 0⟩) := by decide +kernel

/-- V-BW-1 and V-BW-2. -/
theorem test_bwPut :
    after (.bwPut 0#32) (State.reset.setBw ⟨0x01, 1⟩) id = some (State.reset.setBw ⟨0x02, 2⟩) := by decide +kernel
theorem test_bwPut_eighth : after (.bwPut 1#32) (State.reset.setBw ⟨0x62, 7⟩) id = some (stream [0xC5]) := by decide +kernel

/-- V-BW-1. -/
theorem test_bwFinish : after .bwFinish (State.reset.setBw ⟨0x05, 3⟩) id = some (stream [0xA0]) := by decide +kernel
theorem test_bwFinish_on_boundary : after .bwFinish (stream [0xA0]) id = some (stream [0xA0]) := by decide +kernel

/-- 43_bitstream.md R155. -/
theorem test_brInit : after .brInit ((stream [0xA0]).setBr ⟨10, 2⟩) id = some (stream [0xA0]) := by decide +kernel

/-- V-BR-1, third and tenth bit. -/
theorem test_brGet :
    after .brGet ((stream [0xA0]).setBr ⟨2, 0⟩) (fun t => (t.x.x0, t.br)) = some (1, ⟨3, 0⟩) := by decide +kernel
theorem test_brGet_past_end :
    after .brGet ((stream [0xA0]).setBr ⟨9, 1⟩) (fun t => (t.x.x0, t.br, t.flt.fault)) = some (0, ⟨10, 2⟩, false) := by
  decide +kernel

/-- V-PR-12. -/
theorem test_prInit :
    after .prInit (((image 2 1 0 [1, 2, 3]).setRes ⟨[1, 2, 3, 3, 3, 3], 6⟩).setPrPos 2) id =
      some ((image 2 1 0 [1, 2, 3]).setRes ⟨[1, 2, 3, 3, 3, 3], 0⟩) := by decide +kernel

/-- V-PR-1. -/
theorem test_prPredict :
    after .prPredict ((image 2 2 1 [10, 1, 255, 20, 1, 255, 5, 0, 255, 0, 0, 0]).setPrPos 3) (fun t => (t.x.x0, t.prPos)) =
      some (0x0B00FF, 3) := by decide +kernel

/-- V-PR-8: the sequence check comes first. -/
theorem test_prPredict_empty_grid :
    after .prPredict (image 0 2 2 []) (·.flt) = some ⟨true, 3, 0x5100000000000000⟩ := by decide +kernel

/-- V-PR-1: pixels 2 and 3. -/
theorem test_prEnc_first_column :
    after .prEnc ((image 2 2 1 [10, 1, 255, 20, 1, 255, 5, 0, 255, 0, 0, 0]).setPrPos 2)
      (fun t => (t.x.x0, t.res.bytes, t.prPos)) = some (0xFBFF00, [251, 255, 0], 3) := by decide +kernel
theorem test_prEnc_average :
    after .prEnc ((image 2 2 1 [10, 1, 255, 20, 1, 255, 5, 0, 255, 0, 0, 0]).setPrPos 3)
      (fun t => (t.x.x0, t.res.bytes, t.prPos)) = some (0xF50001, [245, 0, 1], 4) := by decide +kernel

/-- V-PR-9. -/
theorem test_prDec :
    after .prDec ((image 1 1 0 []).setRes ⟨[1, 2, 255], 0⟩) id =
      some (((((image 1 1 0 [1, 2, 255]).setRes ⟨[1, 2, 255], 3⟩).setPrPos 1)).setX0 0x0102FF) := by decide +kernel
theorem test_prDec_too_few_residuals :
    after .prDec ((image 1 1 0 []).setRes ⟨[1, 2], 0⟩) (fun t => (t.flt.cause, t.pix)) = some (3, []) := by decide +kernel

/-- V-PR-5 and V-PR-6. -/
theorem test_prFwd_average :
    after .prFwd (image 3 2 1 [200, 100, 0, 10, 250, 0, 255, 255, 255, 0, 0, 1, 90, 30, 2, 7, 7, 7])
      (fun t => (t.res, t.prPos, t.x.x0)) =
      some (⟨[200, 100, 0, 66, 150, 0, 245, 5, 255, 56, 156, 1, 20, 170, 2, 145, 85, 178], 0⟩, 6, 0) := by decide +kernel
theorem test_prFwd_left :
    after .prFwd (image 3 2 0 [200, 100, 0, 10, 250, 0, 255, 255, 255, 0, 0, 1, 90, 30, 2, 7, 7, 7]) (·.res.bytes) =
      some [200, 100, 0, 66, 150, 0, 245, 5, 255, 1, 1, 2, 90, 30, 1, 173, 233, 5] := by decide +kernel

/-- V-PR-5 over pixels overwritten with 99, and V-PR-9. -/
theorem test_prInv :
    after .prInv ((image 3 2 1 (List.replicate 18 99)).setRes
      ⟨[200, 100, 0, 66, 150, 0, 245, 5, 255, 56, 156, 1, 20, 170, 2, 145, 85, 178], 7⟩) (fun t => (t.pix, t.res.rcur)) =
      some ((image 3 2 1 [200, 100, 0, 10, 250, 0, 255, 255, 255, 0, 0, 1, 90, 30, 2, 7, 7, 7]).pix, 18) := by decide +kernel
theorem test_prInv_wrong_length :
    after .prInv ((image 1 1 0 []).setRes ⟨[1, 2], 0⟩) (·.flt) = some ⟨true, 8, 0x5500000000000000⟩ := by decide +kernel

/-- V-PR-11. -/
theorem test_resClr : after .resClr (State.reset.setRes ⟨[65, 66], 1⟩) id = some State.reset := by decide +kernel
theorem test_resPush : after (.resPush 0x42#32) (residuals [65]) id = some (residuals [65, 66]) := by decide +kernel

/-- V-ST-1 and V-ST-2. -/
theorem test_encBytes_empty :
    after .encBytes State.reset (fun t => (t.bs, t.x.x0, total t.freq, t.ae.done)) = some ([0xFF, 0x40], 2, 258, true) := by
  decide +kernel
theorem test_encBytes :
    after .encBytes (residuals [0x41]) (fun t => (t.bs, t.x.x0, t.ae)) =
      some ([0x41, 0xBD, 0x80], 3, ⟨⟨0x225BA84F9F00, 0xA0DF20DEFFFF⟩, 0, true⟩) := by decide +kernel

/-- V-ST-3b and V-ST-3. -/
theorem test_decBytes :
    after (.decBytes 1#32) (stream [0x41, 0xBD, 0x80]) (fun t => (t.res, t.x.x0, t.ad.finished, t.br, total t.freq)) =
      some (⟨[0x41], 0⟩, 1, true, ⟨63, 39⟩, 259) := by decide +kernel
theorem test_decBytes_limit :
    after (.decBytes 0#32) (stream [0x41, 0xBD, 0x80]) (fun t => (t.flt, t.res, t.ad, t.br, total t.freq)) =
      some (⟨true, 8, 0x6100000000000000⟩, ⟨[], 0⟩, ⟨⟨0x5FA05FA05F80, 0xDF20DF20DEFF⟩, 0xDEC000000000, true, false⟩, ⟨55, 31⟩,
        258) := by decide +kernel

/-- P1 and P7. -/
theorem test_encGrid_left :
    after .encGrid (image 2 2 0 [1, 2, 3, 4, 5, 6, 7, 8, 9, 10, 11, 12]) (fun t => (t.bs, t.x.x0, t.prPos, t.ae)) =
      some ([0x01, 0x01, 0xFC, 0xFB, 0x28, 0x68, 0xC2, 0xC1, 0x78, 0x44, 0x00], 11, 4,
        ⟨⟨0x5C6A63C11800, 0xF896FE473FFF⟩, 0, true⟩) := by decide +kernel
theorem test_encGrid_average :
    after .encGrid (image 2 2 1 [1, 2, 3, 4, 5, 6, 7, 8, 9, 10, 11, 12]) (·.bs) =
      some [0x01, 0x01, 0xFC, 0xFB, 0x28, 0x69, 0x58, 0x68, 0x7C, 0x79, 0xA9, 0x30] := by decide +kernel

/-- P2, and P8 with W, H, PRED = 2, 1, 0. -/
theorem test_decGrid :
    after .decGrid ((image 2 2 0 []).setBs [0x01, 0x01, 0xFC, 0xFB, 0x28, 0x68, 0xC2, 0xC1, 0x78, 0x44, 0x00])
      (fun t => (t.pix, t.x.x0, t.res.rcur, t.br, t.flt.fault)) =
      some ((image 2 2 0 [1, 2, 3, 4, 5, 6, 7, 8, 9, 10, 11, 12]).pix, 12, 12, ⟨130, 42⟩, false) := by decide +kernel
theorem test_decGrid_wrong_size :
    after .decGrid ((image 2 1 0 []).setBs [0x01, 0x01, 0xFC, 0xFB, 0x28, 0x68, 0xC2, 0xC1, 0x78, 0x44, 0x00])
      (fun t => (t.flt, t.res.bytes, t.prPos, total t.freq)) =
      some (⟨true, 8, 0x6300000000000000⟩, [1, 2, 3, 3, 3, 3], 0, 264) := by decide +kernel

/-! ## Words given to the block -/

/-- V-SYS-3: in the fault state a command is dropped and the first fault is kept. -/
theorem test_step_drops_in_fault_state :
    answer (step (inFault.withFetchWord 64 0x1300000000000005)) = some inFault ∧
    answer (step (inFault.withFetchWord 64 0x0400000000000000)) = some inFault ∧
    answer (step (inFault.withFetchWord 64 0x0100000000000001)) = some inFault := by decide +kernel

/-- V-SYS-2. -/
theorem test_step_faults_on_reserved_word :
    answer (step (State.reset.withFetchWord 64 0x0400000000000000)) =
      some (State.reset.faulted 1#8 0x0400000000000000#64) := by decide +kernel

/-! ## Witnesses: for each statement with hypotheses, states and operands that meet them together, clause by clause -/

theorem next_of_answer {o : Host.Outcome State Fault Refusal} {t : State} (h : answer o = some t) : o = .next t := by
  cases o with
  | next s => exact congrArg _ (Option.some.inj h)
  | fault _ => cases h
  | refused _ => cases h

/-- A next state with a decidable property. -/
theorem ends {o : Host.Outcome State Fault Refusal} {p : State → Prop} [DecidablePred p]
    (h : (answer o).any (fun t => decide (p t)) = true) : ∃ t, o = .next t ∧ p t := by
  obtain ⟨t, e, ht⟩ := Option.any_eq_true _ _ |>.mp h
  exact ⟨t, next_of_answer e, of_decide_eq_true ht⟩

/-- The decoder and the model run on the expected data symbols. -/
def decoded : List Byte → State → Option State
  | [], s => some s
  | b :: rest, s =>
    match decSymbol s with
    | .ok (n, t) => if n = b.toNat then decoded rest t else none
    | .error _ => none

/-- Whether the next symbol is the end of the stream. -/
def atEnd (s : State) : Bool :=
  match decSymbol s with
  | .ok (n, _) => decide (n = 256)
  | .error _ => false

theorem decodesData_of_decoded {data : List Byte} {s t : State} (h : decoded data s = some t) : DecodesData s data t := by
  induction data generalizing s with
  | nil =>
    cases h
    exact .nil _
  | cons b rest ih =>
    unfold decoded at h
    split at h
    · split at h
      · rename_i e hn
        exact .cons (hn ▸ e) (ih h)
      · cases h
    · cases h

theorem decodesData_of_isSome {data : List Byte} {s : State} (h : (decoded data s).isSome = true) :
    ∃ t, DecodesData s data t := by
  obtain ⟨t, e⟩ := Option.isSome_iff_exists.mp h
  exact ⟨t, decodesData_of_decoded e⟩

theorem decodesTo_of_atEnd {data : List Byte} {s : State} (h : (decoded data s).any atEnd = true) :
    ∃ t, DecodesTo s data t := by
  obtain ⟨u, e, he⟩ := Option.any_eq_true _ _ |>.mp h
  unfold atEnd at he
  split at he
  · rename_i n t es
    exact ⟨t, u, decodesData_of_decoded e, of_decide_eq_true he ▸ es⟩
  · cases he

/-- The encoder in the middle of a stream: V-AE-3 after its first two lines. -/
def midStream : State :=
  (State.reset.setAe ⟨⟨0x007F807F8000, 0xFF807F807EFF⟩, 8, false⟩).setFreq
    (List.replicate 128 1 ++ [2] ++ List.replicate 128 1)

/-- The decoder primed on V-AD-5's stream. -/
def primed : State :=
  ((stream [0x80, 0x7F, 0x00]).setAd ⟨⟨0, 0xFFFFFFFFFFFF⟩, 0x807F00000000, true, false⟩).setBr ⟨48, 24⟩

/-- The reset state with buffers of one byte each. -/
def tiny : State := State.reset.withCaps ⟨some 1, some 1, some 1⟩

theorem witness_DecodeOfEncodeIsIdentity :
    (Instr.csrWr .pred 65535#32).WellFormed ∧ (Instr.aeEncode 256#32).WellFormed ∧ Instr.decGrid.WellFormed := by decide +kernel

theorem witness_EncodeOfDecodeIsIdentity : decode 0x030200000000FFFF#64 = .ok (.csrWr .pred 65535#32) := by decide +kernel

theorem witness_DecoderSortsEveryWord :
    IllegalWord 0x0303000000000005#64 ∧
    (¬IllegalWord 0x2100000000000101#64 ∧ OperandTooLarge 0x2100000000000101#64) ∧
    (¬IllegalWord 0x2100000000000100#64 ∧ ¬OperandTooLarge 0x2100000000000100#64) := by
  refine ⟨?_, ⟨?_, ?_⟩, ?_, ?_⟩ <;> simp only [IllegalWord, OperandTooLarge] <;> decide +kernel

theorem witness_StepRunsDecodedCommand :
    (midStream.withFetchWord 64 0x2100000000000100).host = .command 0x2100000000000100#64 :: [] ∧
    decode 0x2100000000000100#64 = .ok (.aeEncode 256#32) := by decide +kernel

theorem witness_StepFaultsOnRejectedWord :
    (midStream.withFetchWord 64 0x2100000000000101).host = .command 0x2100000000000101#64 :: [] ∧
    decode 0x2100000000000101#64 = .error .operandAboveRange ∧
    (midStream.withFetchWord 64 0x0400000000000000).host = .command 0x0400000000000000#64 :: [] ∧
    decode 0x0400000000000000#64 = .error .reservedOp ∧ midStream.flt.fault = false := by decide +kernel

theorem witness_FaultStateDropsWords :
    (inFault.withFetchWord 64 0x1300000000000005).host = .command 0x1300000000000005#64 :: [] ∧
    inFault.flt.fault = true ∧
    (opField 0x1300000000000005#64 ≠ 0x00#8 ∧ opField 0x1300000000000005#64 ≠ 0x01#8 ∧ opField 0x1300000000000005#64 ≠ 0x02#8) ∧
    decode 0x0100000000000001#64 = .error .unusedImm := by decide +kernel

theorem witness_OnlyResetLeavesFaultState :
    (∃ t, step (inFault.withFetchWord 64 0x0209000000000000) = .next t ∧ t.flt = inFault.flt) ∧
    (∃ t, step (inFault.withFetchWord 64 0x0100000000000000) = .next t ∧ t.flt.fault = false) ∧
    (∃ t, step (inFault.setHost [.powerOn [(0, 7#8)]]) = .next t ∧ t.flt.fault = false) ∧ inFault.flt.fault = true :=
  ⟨ends (by decide +kernel), ends (by decide +kernel), ends (by decide +kernel), rfl⟩

theorem witness_RaiseRecordsFirstFaultOnly : midStream.flt.fault = false ∧ inFault.flt.fault = true := by decide +kernel

theorem witness_FaultsArePreciseAndReturnNothing :
    midStream.flt.fault = false ∧
    (∃ t, exec (.smFind 258#32) midStream = .next t ∧ t.flt.fault = true ∧ isMicroOp (.smFind 258#32) = true) ∧
    (∃ t, exec (.decBytes 0#32) (stream [0x41, 0xBD, 0x80]) = .next t ∧ t.flt.fault = true) :=
  ⟨by decide +kernel, ends (by decide +kernel), ends (by decide +kernel)⟩

theorem witness_FaultCausesAsTabled :
    Instr.prEnc.WellFormed ∧ midStream.Inv ∧ midStream.flt.fault = false ∧
    ∃ t, exec .prEnc midStream = .next t ∧ t.flt.fault = true :=
  ⟨by decide +kernel, by decide +kernel, rfl, ends (by decide +kernel)⟩

theorem witness_UnboundedBuffersNeverOverflow :
    midStream.Unbounded ∧ midStream.flt.fault = false ∧ ∃ t, exec .prEnc midStream = .next t ∧ t.flt.fault = true :=
  ⟨by decide +kernel, rfl, ends (by decide +kernel)⟩

theorem witness_StepKeepsInvariant :
    (midStream.withFetchWord 64 0x2100000000000100).Inv ∧
    (∃ t, step (midStream.withFetchWord 64 0x2100000000000100) = .next t ∧ t.bs = [0x80]) ∧ primed.Inv ∧ inFault.Inv :=
  ⟨by decide +kernel, ends (by decide +kernel), by decide +kernel, by decide +kernel⟩

theorem witness_ResultRegistersWrittenAsTabled :
    ∃ t, exec (.smUpdate 3#32) midStream = .next t ∧ writesX0 (.smUpdate 3#32) = false ∧ writesX12 (.smUpdate 3#32) = false :=
  ends (by decide +kernel)

theorem witness_BuffersWrittenAsTabled :
    ∃ t, exec (.smUpdate 3#32) midStream = .next t ∧ writesPix (.smUpdate 3#32) = false ∧
      writesRes (.smUpdate 3#32) = false ∧ writesBs (.smUpdate 3#32) = false :=
  ends (by decide +kernel)

theorem witness_HostMovesReachBuffers :
    (tiny.setHost [.loadRes [5]]).host = .loadRes [5] :: [] ∧ fits tiny.caps.resCap [(5 : Byte)].length = true ∧
    (tiny.setHost [.loadRes [5, 6]]).host = .loadRes [5, 6] :: [] ∧ fits tiny.caps.resCap [(5 : Byte), 6].length = false ∧
    (tiny.setHost [.loadBs [5]]).host = .loadBs [5] :: [] ∧ fits tiny.caps.bsCap [(5 : Byte)].length = true ∧
    (tiny.setHost [.storePix 9 []]).host = .storePix 9 [] :: [] ∧
    (tiny.setHost [.storePix 1 [5]]).host = .storePix 1 [5] :: [] ∧ [(5 : Byte)] ≠ [] ∧
    fits tiny.caps.pixCap (1 + [(5 : Byte)].length) = false ∧
    (tiny.setHost [.storePix 0 [5]]).host = .storePix 0 [5] :: [] ∧ tiny.pix.wf ∧
    fits tiny.caps.pixCap (0 + [(5 : Byte)].length) = true ∧
    (tiny.setHost [.loadBs [5, 6]]).host = .loadBs [5, 6] :: [] ∧ fits tiny.caps.bsCap [(5 : Byte), 6].length = false ∧
    tiny.host = [] := by decide +kernel

theorem witness_PowerOnTakesAnyPix :
    (tiny.setHost [.powerOn [(0, 1#8), (0, 2#8)]]).host = .powerOn [(0, 1#8), (0, 2#8)] :: [] ∧
    (∀ c ∈ [((0, 1#8) : Host.Cell), (0, 2#8)], fits tiny.caps.pixCap (c.1 + 1) = true) ∧
    (tiny.setHost [.powerOn [(1, 1#8)]]).host = .powerOn [(1, 1#8)] :: [] ∧
    ((1, 1#8) : Host.Cell) ∈ [((1, 1#8) : Host.Cell)] ∧ fits tiny.caps.pixCap (1 + 1) = false := by
  refine ⟨rfl, ?_, rfl, List.mem_singleton_self _, rfl⟩
  simp [tiny]

theorem witness_NopDoesNothing : opField 1#64 = 0x00#8 ∧ (1#64 : Word) ≠ 0#64 := by decide +kernel

/-- For AeInitStartsFullInterval, BwInitEmpties, BrInitRewinds, PrInitAndResClrRewind, AdInitPrimesFromStream,
AdFinishedReturnsFlag, SmInitGivesFreshModel: no hypothesis but this one. -/
theorem witness_no_fault_stands : midStream.flt.fault = false ∧ primed.flt.fault = false := by decide +kernel

theorem witness_CsrWriteStoresValue :
    midStream.flt.fault = false ∧ (65535#32).toNat ≤ 65535 ∧ 65535 < (65536#32).toNat ∧
    (Csr.channels ≠ .width ∧ Csr.channels ≠ .height ∧ Csr.channels ≠ .pred) := by decide +kernel

theorem witness_SmRangeReturnsSlice :
    midStream.flt.fault = false ∧ ModelOk midStream.freq ∧ (256#32).toNat ≤ 256 ∧ 256 < (257#32).toNat := by decide +kernel

theorem witness_SmFindInvertsRange :
    midStream.flt.fault = false ∧ ModelOk midStream.freq ∧ (257#32).toNat < (midStream.freq.take 257).sum ∧
    (midStream.freq.take 257).sum ≤ (258#32).toNat := by decide +kernel

theorem witness_SmUpdateCountsAndRescales :
    midStream.flt.fault = false ∧ midStream.freq.length = 257 ∧ (256#32).toNat ≤ 256 ∧ 256 < (257#32).toNat ∧
    ModelOk (65278 :: List.replicate 256 1) ∧ ¬65535 < (65278 :: List.replicate 256 1).sum + 1 ∧
    ModelOk (65279 :: List.replicate 256 1) ∧ 65535 < (65279 :: List.replicate 256 1).sum + 1 := by decide +kernel

theorem witness_OverfullModelIsRefusedByCoders :
    let s := primed.setFreq (65280 :: List.replicate 256 1)
    s.flt.fault = false ∧ 65535 < (s.freq.take 257).sum ∧ (256#32).toNat ≤ 256 ∧ s.ae.done = false ∧
    s.ad.primed = true ∧ s.ad.finished = false := by decide +kernel

/-- What AeEncodeNarrowsExactly asks of a state. -/
abbrev CanEncode (s : State) : Prop :=
  s.flt.fault = false ∧ ModelOk s.freq ∧ s.ae.done = false ∧ IntervalOk s.ae.toInterval

/-- `midStream` with room for `n` bytes in BS. -/
def midStreamIn (n : Nat) : State := midStream.withCaps ⟨none, none, some n⟩

/-- With room for the one byte AE.ENCODE 256 appends (V-AE-3), and without. -/
theorem witness_AeEncodeNarrowsExactly :
    CanEncode (midStreamIn 1) ∧ CanEncode (midStreamIn 0) ∧ (256#32).toNat ≤ 256 ∧
    (∃ t, exec (.aeEncode 256#32) (midStreamIn 1) = .next t ∧ t.bs = [0x80]) ∧
    (∃ t, exec (.aeEncode 256#32) (midStreamIn 0) = .next t ∧ t.flt.cause = 10#8) :=
  ⟨by decide +kernel, by decide +kernel, by decide +kernel, ends (by decide +kernel), ends (by decide +kernel)⟩

/-- With room for the two bytes AE.FINISH appends (V-AE-3b), and without. -/
theorem witness_AeFinishWritesDisambiguatingBits :
    CanEncode (midStreamIn 2) ∧ CanEncode (midStreamIn 1) ∧
    (∃ t, exec .aeFinish (midStreamIn 2) = .next t ∧ t.bs = [0x7F, 0xC0]) ∧
    (∃ t, exec .aeFinish (midStreamIn 1) = .next t ∧ t.flt.cause = 10#8 ∧ t.bs = []) :=
  ⟨by decide +kernel, by decide +kernel, ends (by decide +kernel), ends (by decide +kernel)⟩

theorem witness_CodersOutOfSequence :
    let s := midStream.setAe ⟨⟨0x007F807F8000, 0xFF807F807EFF⟩, 0, true⟩
    s.flt.fault = false ∧ s.ae.done = true ∧ (256#32).toNat ≤ 256 ∧ 256 < (257#32).toNat ∧ s.ad.primed = false ∧
    (primed.setAd ⟨⟨0, 0⟩, 0, true, true⟩).ad.finished = true := by decide +kernel

/-- What AdDecodeFindsSymbolOfCode asks of a state. -/
abbrev CanDecode (s : State) : Prop :=
  s.flt.fault = false ∧ s.ad.primed = true ∧ s.ad.finished = false ∧ ModelOk s.freq ∧ IntervalOk s.ad.toInterval ∧
  s.ad.low.toNat ≤ s.ad.code.toNat ∧ s.ad.code.toNat ≤ s.ad.high.toNat

/-- With `code` at either end of the interval. -/
theorem witness_AdDecodeFindsSymbolOfCode :
    CanDecode primed ∧ CanDecode (primed.setAd ⟨⟨0x007F807F8000, 0xFF807F807EFF⟩, 0x007F807F8000, true, false⟩) ∧
    CanDecode (primed.setAd ⟨⟨0x007F807F8000, 0xFF807F807EFF⟩, 0xFF807F807EFF, true, false⟩) := by decide +kernel

theorem witness_DecodeMirrorsEncode :
    primed.flt.fault = false ∧ primed.ad.toInterval = primed.ae.toInterval ∧ ModelOk primed.freq ∧
    (∃ t, exec .adDecode primed = .next t ∧ t.flt.fault = false ∧ t.x.x0.setWidth 32 = 128#32) ∧
    (∃ u, exec (.aeEncode 128#32) primed = .next u ∧ u.flt.fault = false) :=
  ⟨rfl, by decide +kernel, by decide +kernel, ends (by decide +kernel), ends (by decide +kernel)⟩

theorem witness_BwPutAppendsBit :
    (0#32).toNat ≤ 1 ∧ (1#32).toNat ≤ 1 ∧ 1 < (2#32).toNat ∧
    (tiny.setBw ⟨0x3F, 6⟩).flt.fault = false ∧ (tiny.setBw ⟨0x3F, 6⟩).bw.nbits.val + 1 < 8 ∧
    (tiny.setBw ⟨0x62, 7⟩).bw.nbits.val = 7 ∧ fits tiny.caps.bsCap ((tiny.setBw ⟨0x62, 7⟩).bs.length + 1) = true ∧
    fits tiny.caps.bsCap (((tiny.setBw ⟨0x62, 7⟩).setBs [1]).bs.length + 1) = false := by decide +kernel

theorem witness_BwFinishPadsToByte :
    tiny.flt.fault = false ∧ tiny.bw.nbits.val = 0 ∧ (tiny.setBw ⟨0x62, 7⟩).bw.nbits.val ≠ 0 ∧
    fits tiny.caps.bsCap (tiny.bs.length + 1) = true ∧ fits tiny.caps.bsCap ((tiny.setBs [1]).bs.length + 1) = false := by
  decide +kernel

theorem witness_BrGetReadsStreamBit :
    let s := stream [0xA0]
    s.flt.fault = false ∧ (s.setBr ⟨7, 0⟩).br.pos / 8 < s.bs.length ∧ s.bs.length ≤ (s.setBr ⟨8, 0⟩).br.pos / 8 := by decide +kernel

theorem witness_ResPushAppendsByte :
    tiny.flt.fault = false ∧ (255#32).toNat ≤ 255 ∧ fits tiny.caps.resCap (tiny.res.bytes.length + 1) = true ∧
    fits tiny.caps.resCap ((tiny.setRes ⟨[1], 0⟩).res.bytes.length + 1) = false ∧ 255 < (256#32).toNat := by decide +kernel

/-- What the grid statements ask of a state: no fault, PIX in canonical form, a known predictor. -/
abbrev CanPredict (s : State) : Prop :=
  s.flt.fault = false ∧ s.pix.wf ∧ (s.conf.pred = 0#16 ∨ s.conf.pred = 1#16)

/-- At the last pixel of a grid, with one pixel of residuals left, and `n` bytes in PIX and in RES. -/
def lastPixel (pred : BitVec 16) (n : Nat) : State :=
  (((image 2 2 pred [1, 2, 3, 4, 5, 6, 7, 8, 9, 10, 11, 12]).setPrPos 3).setRes ⟨[1, 2, 3, 3, 3, 3], 3⟩).withCaps
    ⟨some n, some n, none⟩

/-- What the statements about one pixel ask besides. -/
abbrev PixelLeft (s : State) : Prop :=
  CanPredict s ∧ s.prPos < s.conf.width.toNat * s.conf.height.toNat ∧ s.res.rcur + 3 ≤ s.res.bytes.length

/-- For PrPredictReturnsPrediction, PrEncAppendsResiduals and PrDecRestoresPixel: under either predictor, with just enough
bytes and with one too few. -/
theorem witness_pixel_commands :
    PixelLeft (lastPixel 0 12) ∧ PixelLeft (lastPixel 1 12) ∧ PixelLeft (lastPixel 0 8) ∧ PixelLeft (lastPixel 1 11) ∧
    fits (lastPixel 1 12).caps.pixCap (3 * (lastPixel 1 12).prPos + 3) = true ∧
    fits (lastPixel 1 12).caps.resCap ((lastPixel 1 12).res.bytes.length + 3) = true ∧
    fits (lastPixel 1 11).caps.pixCap (3 * (lastPixel 1 11).prPos + 3) = false ∧
    fits (lastPixel 1 11).caps.pixCap (predictionEnd 1#16 2 3) = true ∧
    fits (lastPixel 0 8).caps.pixCap (predictionEnd 0#16 2 3) = false ∧
    fits (lastPixel 0 8).caps.resCap ((lastPixel 0 8).res.bytes.length + 3) = false := by decide +kernel

/-- An image of two pixels with `n` bytes in PIX, in RES and in BS. -/
def pair (n : Nat) : State := (image 2 1 1 [200, 100, 0, 10, 250, 0]).withCaps ⟨some n, some n, some n⟩

/-- For PrFwdMakesResiduals and EncGridIsForwardThenBytes: with room, without, and on the empty grid. -/
theorem witness_grids :
    CanPredict (pair 6) ∧ CanPredict (pair 5) ∧ CanPredict (image 0 0 0 []) ∧
    (∃ t, exec .prFwd (pair 6) = .next t ∧ t.res.bytes = [200, 100, 0, 66, 150, 0]) ∧
    (∃ t, exec .prFwd (pair 5) = .next t ∧ t.flt.cause = 10#8 ∧ t.res.bytes = [200, 100, 0] ∧ t.prPos = 1) ∧
    (∃ u, exec .encGrid (image 0 0 0 []) = .next u ∧ u.flt.fault = false) ∧
    (∃ u, exec .encGrid (pair 6) = .next u ∧ u.flt.cause = 10#8 ∧ u.prPos = 2) :=
  ⟨by decide +kernel, by decide +kernel, by decide +kernel, ends (by decide +kernel), ends (by decide +kernel),
    ends (by decide +kernel), ends (by decide +kernel)⟩

/-- `pair n` with residuals. -/
def pairWith (n : Nat) (bytes : List Byte) : State := (pair n).setRes ⟨bytes, 4⟩

/-- Complete, with one byte of PIX too few, and with one residual too few. -/
theorem witness_PrInvRestoresGrid :
    (CanPredict (pairWith 6 [1, 2, 3, 4, 5, 6]) ∧ (pairWith 6 [1, 2, 3, 4, 5, 6]).res.bytes.length = 3 * (2 * 1) ∧
      fits (pairWith 6 []).caps.pixCap (3 * (2 * 1)) = true) ∧
    (CanPredict (pairWith 5 [1, 2, 3, 4, 5, 6]) ∧ (pairWith 5 [1, 2, 3, 4, 5, 6]).res.bytes.length = 3 * (2 * 1) ∧
      fits (pairWith 5 []).caps.pixCap (3 * (2 * 1)) = false) ∧
    (CanPredict (pairWith 6 [1, 2, 3, 4, 5]) ∧ (pairWith 6 [1, 2, 3, 4, 5]).res.bytes.length ≠ 3 * (2 * 1)) := by
  decide +kernel

theorem witness_PrInvUndoesPrFwd :
    (pair 6).flt.fault = false ∧ Memory.wf [(0, 99#8), (7, 1#8)] ∧
    ∃ t, exec .prFwd (pair 6) = .next t ∧ t.flt.fault = false :=
  ⟨by decide +kernel, by decide +kernel, ends (by decide +kernel)⟩

theorem witness_UnknownPredictorFaults :
    let s := (image 1 1 2 []).setRes ⟨[1, 2, 3], 0⟩
    s.flt.fault = false ∧ s.conf.pred ≠ 0#16 ∧ s.conf.pred ≠ 1#16 ∧
    s.prPos < s.conf.width.toNat * s.conf.height.toNat ∧ s.res.rcur + 3 ≤ s.res.bytes.length := by decide +kernel

theorem witness_PixelCommandsOutOfSequence :
    let s := (image 2 1 0 []).setRes ⟨[1, 2, 3], 1⟩
    s.flt.fault = false ∧ s.conf.width.toNat * s.conf.height.toNat ≤ (s.setPrPos 2).prPos ∧
    s.res.bytes.length < s.res.rcur + 3 := by decide +kernel

/-- The byte 0x41 in RES, with room for `n` bytes in BS. -/
def oneByteIn (n : Nat) : State := (residuals [0x41]).withCaps ⟨none, none, some n⟩

/-- With room for the three bytes of V-ST-2, and without. -/
theorem witness_EncBytesIsTheMicroOperations :
    (oneByteIn 3).flt.fault = false ∧ (oneByteIn 2).flt.fault = false ∧
    (∃ t, exec .encBytes (oneByteIn 3) = .next t ∧ t.bs = [0x41, 0xBD, 0x80]) ∧
    (∃ t, exec .encBytes (oneByteIn 2) = .next t ∧ t.flt.cause = 10#8 ∧ t.bs = [0x41]) :=
  ⟨by decide +kernel, by decide +kernel, ends (by decide +kernel), ends (by decide +kernel)⟩

theorem witness_EncGridIsDeterminedByTheImage :
    let s := image 1 1 0 [9, 8, 7]
    let s' := (image 1 1 0 [9, 8, 7, 6]).setBw ⟨1, 1⟩
    s.flt.fault = false ∧ s'.flt.fault = false ∧ s.conf = s'.conf ∧
    (∀ b, b < 3 * (s.conf.width.toNat * s.conf.height.toNat) → s.pix.read b = s'.pix.read b) ∧
    (∃ t, exec .encGrid s = .next t ∧ t.flt.fault = false ∧ t.bs = [0x08, 0xFE, 0xF8, 0xFE, 0x80]) ∧
    (∃ t', exec .encGrid s' = .next t' ∧ t'.flt.fault = false) :=
  ⟨by decide +kernel, by decide +kernel, by decide +kernel, by decide +kernel, ends (by decide +kernel),
    ends (by decide +kernel)⟩

/-- V-ST-2's stream, with room for `n` bytes in RES. -/
def oneByteStream (n : Nat) : State := (stream [0x41, 0xBD, 0x80]).withCaps ⟨none, some n, none⟩

/-- Clause by clause: limit 1 with room for one byte, limit 0, and limit 1 with no room. -/
theorem witness_DecBytesFollowsTheDecoder :
    ((oneByteStream 1).flt.fault = false ∧ (∃ t, DecodesTo (decodeStart (oneByteStream 1)) [0x41] t) ∧
      [(0x41 : Byte)].length ≤ (1#32).toNat ∧ fits (oneByteStream 1).caps.resCap [(0x41 : Byte)].length = true) ∧
    ((∃ t, DecodesData (decodeStart (oneByteStream 0)) [0x41] t) ∧ [(0x41 : Byte)].length = (0#32).toNat + 1 ∧
      fits (oneByteStream 0).caps.resCap (0#32).toNat = true) ∧
    ((oneByteStream 0).flt.fault = false ∧ fits (oneByteStream 0).caps.resCap ([(0x41 : Byte)].length - 1) = true ∧
      fits (oneByteStream 0).caps.resCap [(0x41 : Byte)].length = false) :=
  ⟨⟨by decide +kernel, decodesTo_of_atEnd (by decide +kernel), by decide +kernel, by decide +kernel⟩,
    ⟨decodesData_of_isSome (by decide +kernel), by decide +kernel, by decide +kernel⟩, by decide +kernel⟩

/-- Each of the three ends. -/
theorem witness_DecBytesEndsOnAnyStream :
    (oneByteStream 1).flt.fault = false ∧ (oneByteStream 0).flt.fault = false ∧
    (∃ t, exec (.decBytes 1#32) (oneByteStream 1) = .next t ∧ t.ad.finished = true) ∧
    (∃ t, exec (.decBytes 0#32) (oneByteStream 1) = .next t ∧ t.flt.cause = 8#8) ∧
    (∃ t, exec (.decBytes 1#32) (oneByteStream 0) = .next t ∧ t.flt.cause = 10#8) :=
  ⟨by decide +kernel, by decide +kernel, ends (by decide +kernel), ends (by decide +kernel), ends (by decide +kernel)⟩

/-- V-ST-7's stream of three data symbols, given to a grid `w` wide and 1 high, with `p` bytes in PIX and `r` in RES. -/
def pixelStream (w : BitVec 32) (p r : Nat) : State :=
  ((image w 1 0 []).setBs [0x08, 0xFE, 0xF8, 0xFE, 0x80]).withCaps ⟨some p, some r, none⟩

theorem witness_DecGridRebuildsGrid_complete :
    CanPredict (pixelStream 1 3 3) ∧ CanPredict (pixelStream 1 2 3) ∧
    (∃ t, DecodesTo (decodeStart (pixelStream 1 3 3)) [9, 8, 7] t) ∧
    (∃ t, DecodesTo (decodeStart (pixelStream 1 2 3)) [9, 8, 7] t) ∧
    [(9 : Byte), 8, 7].length = 3 * (1 * 1) ∧ fits (pixelStream 1 3 3).caps.resCap 3 = true ∧
    fits (pixelStream 1 3 3).caps.pixCap 3 = true ∧ fits (pixelStream 1 2 3).caps.pixCap 3 = false :=
  ⟨by decide +kernel, by decide +kernel, decodesTo_of_atEnd (by decide +kernel), decodesTo_of_atEnd (by decide +kernel),
    by decide +kernel⟩

/-- Too few data symbols, one too many (an empty grid's first), and one that RES has no room for. -/
theorem witness_DecGridRebuildsGrid_faults :
    (CanPredict (pixelStream 2 6 6) ∧ (∃ t, DecodesTo (decodeStart (pixelStream 2 6 6)) [9, 8, 7] t) ∧
      [(9 : Byte), 8, 7].length < 3 * (2 * 1) ∧ fits (pixelStream 2 6 6).caps.resCap [(9 : Byte), 8, 7].length = true) ∧
    (CanPredict (pixelStream 0 0 0) ∧ (∃ t, DecodesData (decodeStart (pixelStream 0 0 0)) [9] t) ∧
      [(9 : Byte)].length = 3 * (0 * 1) + 1 ∧ fits (pixelStream 0 0 0).caps.resCap (3 * (0 * 1)) = true) ∧
    (CanPredict (pixelStream 1 3 2) ∧ (∃ t, DecodesData (decodeStart (pixelStream 1 3 2)) [9, 8, 7] t) ∧
      [(9 : Byte), 8, 7].length ≤ 3 * (1 * 1) ∧ fits (pixelStream 1 3 2).caps.resCap 2 = true ∧
      fits (pixelStream 1 3 2).caps.resCap 3 = false) :=
  ⟨⟨by decide +kernel, decodesTo_of_atEnd (by decide +kernel), by decide +kernel, by decide +kernel⟩,
    ⟨by decide +kernel, decodesData_of_isSome (by decide +kernel), by decide +kernel, by decide +kernel⟩,
    ⟨by decide +kernel, decodesData_of_isSome (by decide +kernel), by decide +kernel, by decide +kernel, by decide +kernel⟩⟩

theorem witness_BytesRoundTrip :
    (oneByteIn 3).flt.fault = false ∧
    (∃ t, exec .encBytes (oneByteIn 3) = .next t ∧ t.flt.fault = false ∧ (oneByteStream 1).bs = t.bs) ∧
    (oneByteIn 3).res.bytes.length ≤ (1#32).toNat ∧ (oneByteStream 1).flt.fault = false ∧
    fits (oneByteStream 1).caps.resCap (oneByteIn 3).res.bytes.length = true :=
  ⟨by decide +kernel, ends (by decide +kernel), by decide +kernel, by decide +kernel, by decide +kernel⟩

theorem witness_GridRoundTrip :
    let s := image 1 1 0 [9, 8, 7]
    let s' := pixelStream 1 3 3
    s.flt.fault = false ∧ (∃ t, exec .encGrid s = .next t ∧ t.flt.fault = false ∧ s'.bs = t.bs) ∧
    s'.flt.fault = false ∧ s'.pix.wf ∧ s'.conf = s.conf ∧
    fits s'.caps.pixCap (3 * (s.conf.width.toNat * s.conf.height.toNat)) = true ∧
    fits s'.caps.resCap (3 * (s.conf.width.toNat * s.conf.height.toNat)) = true :=
  ⟨by decide +kernel, ends (by decide +kernel), by decide +kernel, by decide +kernel, by decide +kernel, by decide +kernel,
    by decide +kernel⟩

end Sys2Proof.Tests
end

/-! PROOFS. What holds at both ends of a procedure, answer and raise, and each loop's induction done once. -/

namespace Sys2Proof.Machine

/-! ## Both ends of a procedure -/

/-- Where a procedure ends: `Q` of what it answers, `E` of what it raises. -/
def Ends {α : Type} (E : Raised → Prop) (Q : α → Prop) : Proc α → Prop
  | .ok a => Q a
  | .error r => E r

section
variable {α β : Type} {E : Raised → Prop} {Q : α → Prop} {R : β → Prop}

@[simp] theorem ends_ok {a : α} : Ends E Q (.ok a) ↔ Q a := Iff.rfl
@[simp] theorem ends_error {r : Raised} : Ends E Q (.error r) ↔ E r := Iff.rfl

/-- One procedure after the other. -/
theorem Ends.bind {p : Proc α} {k : α → Proc β} (first : Ends E Q p) (next : ∀ a, Q a → Ends E R (k a)) :
    Ends E R (p >>= k) := by
  cases p with
  | ok a => exact next a first
  | error r => exact first

/-- The answer of a procedure, passed on. -/
theorem Ends.map {p : Proc α} {f : α → β} (h : Ends E Q p) (on : ∀ a, Q a → R (f a)) : Ends E R (p.map f) := by
  cases p with
  | ok a => exact on a h
  | error r => exact h

/-- A test, and what follows when it passes. -/
theorem ends_need_bind {test : Bool} {c : Cause} {s : State} {k : Unit → Proc β} (fails : test = false → E ⟨c, s⟩)
    (passes : test = true → Ends E R (k ())) : Ends E R (need test c s >>= k) := by
  cases test with
  | true => exact passes rfl
  | false => exact fails rfl

/-- A property each turn keeps holds at the end of a traversal. -/
theorem ends_repeatProc {P : State → Prop} {f : State → Proc State} (turn : ∀ s, P s → Ends E P (f s)) (n : Nat)
    {s : State} (hs : P s) : Ends E P (repeatProc f n s) := by
  induction n generalizing s with
  | zero => exact hs
  | succ n ih => exact (turn s hs).bind fun t ht => ih ht

end

/-- What holds of the next state of a command: dropped, refused for a defect, done, or faulted on the way
(60_exceptions.md R244, R245). -/
theorem command_ends {E : Raised → Prop} {P : State → Prop} {i : Instr} {p : State → Proc State} {s t : State}
    (h : command i p s = .next t) (hs : P s) (raised : ∀ r, E r → P (raise r.cause (encode i) r.state))
    (defect : ∀ r, E ⟨rejectCause r, s⟩) (run : i.WellFormed → Ends E P (p s)) : P t := by
  rcases command_cases h with ⟨-, rfl⟩ | ⟨hf, r, -, rfl⟩ | ⟨-, wf, e⟩ | ⟨-, wf, r, e, rfl⟩
  · exact hs
  · rw [← raise_clear hf]
    exact raised _ (defect r)
  · simpa [e] using run wf
  · exact raised r (by simpa [e] using run wf)

/-! ## The composite procedures (44_predictor.md R182, R183, 45_stream_ops.md R201 to R204)

For each of the four loops: what its parts must keep, and that the whole then keeps it. -/

/-- `P` holds again after each part of `enc_bytes`, and `E` of what one raises (45_stream_ops.md R201). -/
structure KeptByEncoding (E : Raised → Prop) (P : State → Prop) : Prop where
  start : ∀ s, P s → P (((smInit s).setWriter Writer.empty).setAe Encoder.start)
  encode : ∀ s sym, sym ≤ 256 → P s → Ends E P (aeEncode sym s)
  update : ∀ s sym, P s → P (smUpdate sym s)
  finish : ∀ s, P s → Ends E P (aeFinish s)

/-- The same for `dec_bytes` (45_stream_ops.md R202). -/
structure KeptByDecoding (E : Raised → Prop) (P : State → Prop) : Prop where
  start : ∀ s, P s → P (decodeStart s)
  decode : ∀ s, P s → Ends E (fun r => P r.2) (adDecode s)
  update : ∀ s sym, P s → P (smUpdate sym s)
  append : ∀ s bytes, P s → Ends E P (appendRes bytes s)
  tooLong : ∀ s, P s → E ⟨.lengthMismatch, s⟩

/-- The same for the forward traversal (44_predictor.md R182). -/
structure KeptByForward (E : Raised → Prop) (P : State → Prop) : Prop where
  unknown : ∀ s, P s → E ⟨.formatUnknownPredictor, s⟩
  start : ∀ s, P s → P ((clearRes s).setPrPos 0)
  pixel : ∀ s, P s → Ends E (fun r => P r.2) (prEnc s)

/-- The same for the inverse traversal (44_predictor.md R183). -/
structure KeptByInverse (E : Raised → Prop) (P : State → Prop) : Prop where
  unknown : ∀ s, P s → E ⟨.formatUnknownPredictor, s⟩
  wrongLength : ∀ s, P s → E ⟨.lengthMismatch, s⟩
  start : ∀ s, P s → P ((s.setPrPos 0).setRes ⟨s.res.bytes, 0⟩)
  pixel : ∀ s, P s → Ends E (fun r => P r.2) (prDec s)

section
variable {E : Raised → Prop} {P : State → Prop} {s : State}

theorem KeptByEncoding.encSymbol (h : KeptByEncoding E P) {sym : Nat} (le : sym ≤ 256) (hs : P s) :
    Ends E P (encSymbol sym s) := by
  rw [encSymbol_eq]
  exact (h.encode s sym le hs).bind fun t ht => h.update t sym ht

theorem KeptByEncoding.encSymbols (h : KeptByEncoding E P) {syms : List Nat} (le : ∀ sym ∈ syms, sym ≤ 256) (hs : P s) :
    Ends E P (encSymbols syms s) := by
  induction syms generalizing s with
  | nil => exact hs
  | cons sym rest ih =>
    rw [encSymbols_cons]
    exact (h.encSymbol (le sym (by simp)) hs).bind fun t ht => ih (fun k hk => le k (by simp [hk])) ht

/-- The symbols of a byte sequence and its end are symbols of the alphabet. -/
theorem dataSymbols_le (bytes : List Byte) : ∀ sym ∈ bytes.map BitVec.toNat ++ [Config.eos], sym ≤ 256 := by
  intro sym h
  rcases List.mem_append.1 h with h | h
  · obtain ⟨b, -, rfl⟩ := List.mem_map.1 h
    have := b.isLt
    omega
  · simp_all [Config.eos]

theorem KeptByEncoding.encBytes (h : KeptByEncoding E P) (hs : P s) : Ends E P (encBytes s) :=
  (h.encSymbols (dataSymbols_le _) (h.start s hs)).bind h.finish

theorem KeptByDecoding.decSymbol (h : KeptByDecoding E P) (hs : P s) : Ends E (fun r => P r.2) (decSymbol s) := by
  rw [decSymbol_eq]
  exact (h.decode s hs).bind fun r hr => h.update r.2 r.1 hr

theorem KeptByDecoding.decLoop (h : KeptByDecoding E P) (room : Nat) (hs : P s) : Ends E P (decLoop room s) := by
  induction room generalizing s with
  | zero =>
    rw [decLoop_zero]
    refine (h.decSymbol hs).bind fun r hr => ?_
    split
    · exact hr
    · exact h.tooLong _ hr
  | succ room ih =>
    rw [decLoop_succ]
    refine (h.decSymbol hs).bind fun r hr => ?_
    split
    · exact hr
    · exact (h.append _ _ hr).bind fun t ht => ih ht

theorem KeptByDecoding.decBytes (h : KeptByDecoding E P) (limit : Nat) (hs : P s) : Ends E P (decBytes limit s) :=
  h.decLoop limit (h.start s hs)

theorem KeptByForward.prForward (h : KeptByForward E P) (hs : P s) : Ends E P (prForward s) :=
  ends_need_bind (fun _ => h.unknown s hs) fun _ =>
    ends_repeatProc (fun t ht => (h.pixel t ht).map fun _ hr => hr) _ (h.start s hs)

theorem KeptByInverse.prInverse (h : KeptByInverse E P) (hs : P s) : Ends E P (prInverse s) :=
  ends_need_bind (fun _ => h.unknown s hs) fun _ => ends_need_bind (fun _ => h.wrongLength s hs) fun _ =>
    ends_repeatProc (fun t ht => (h.pixel t ht).map fun _ hr => hr) _ (h.start s hs)

theorem KeptByForward.encGrid (h : KeptByForward E P) (he : KeptByEncoding E P) (hs : P s) : Ends E P (encGrid s) :=
  (h.prForward hs).bind fun _ ht => he.encBytes ht

theorem KeptByInverse.decGrid (h : KeptByInverse E P) (hd : KeptByDecoding E P) (hs : P s) : Ends E P (decGrid s) :=
  ends_need_bind (fun _ => h.unknown s hs) fun _ => (hd.decBytes _ hs).bind fun _ ht => h.prInverse ht

end

end Sys2Proof.Machine

/-! PROOFS. The interval of both coders: narrowing, the normalisation both loops make, and the decoder's code
within it (41_arith_encoder.md R112 to R117, 42_arith_decoder.md R132 to R137). -/

namespace Sys2Proof.Machine

/-! ## Slices of a model in order (10_state.md R26) -/

/-- A symbol's slice is not empty and lies within the total (40_symbol_model.md R93). -/
theorem sliceOf_bounds {freq : List Nat} (h : ModelOk freq) {sym : Nat} (le : sym ≤ 256) :
    (sliceOf freq sym).low < (sliceOf freq sym).high ∧ (sliceOf freq sym).high ≤ (sliceOf freq sym).total := by
  obtain ⟨len, pos, -⟩ := h
  exact ⟨cum_lt_succ pos (by omega), cum_mono freq (by simp only [Config.nsym]; omega)⟩

/-- A fresh model is in order (40_symbol_model.md R92). -/
theorem modelOk_freshCounts : ModelOk freshCounts := by
  have len : freshCounts.length = 257 := List.length_replicate
  refine ⟨len, fun c hc => ?_, ?_⟩
  · exact (List.eq_of_mem_replicate hc).ge
  · rw [total_eq_sum len, freshCounts, List.sum_replicate]
    decide

/-- An update keeps the model in order: below the threshold the count is added, above it the halved counts sum to at most
half the total and half the alphabet (40_symbol_model.md R96, 00_scope.md R6). -/
theorem modelOk_updateCounts {freq : List Nat} (h : ModelOk freq) (sym : Nat) :
    ModelOk (updateCounts Config.maxTotal freq sym) := by
  obtain ⟨len, pos, small⟩ := h
  have raisedLen : (freq.modify sym (· + 1)).length = 257 := by simpa using len
  have raisedPos : ∀ c ∈ freq.modify sym (· + 1), 1 ≤ c := by
    intro c hc
    obtain ⟨i, hi, rfl⟩ := List.getElem_of_mem hc
    have : 1 ≤ freq[i]'(by simpa using hi) := pos _ (List.getElem_mem _)
    rw [List.getElem_modify]
    split <;> omega
  have raisedTotal : (freq.modify sym (· + 1)).sum ≤ freq.sum + 1 := by
    rcases Nat.lt_or_ge sym freq.length with hs | hs
    · exact (sum_modify freq hs).le
    · rw [List.modify_eq_self hs]
      omega
  rw [total_eq_sum len] at small
  unfold updateCounts
  dsimp only
  split
  · have halved := sum_halve_le_of_pos raisedPos
    refine ⟨by simpa using len, fun c hc => ?_, ?_⟩
    · obtain ⟨d, -, rfl⟩ := List.mem_map.1 hc
      exact le_max_left _ _
    · rw [total_eq_sum (by simpa using len)]
      omega
  · exact ⟨raisedLen, raisedPos, Nat.le_of_not_lt ‹_›⟩

/-! ## Narrowing (41_arith_encoder.md R112) -/

/-- A normalised interval is wider than a quarter of the range, so it holds more values than any total in order
(41_arith_encoder.md R114, R117). -/
theorem IntervalOk.wide {iv : Interval} (h : IntervalOk iv) : iv.low.toNat ≤ iv.high.toNat ∧ 65535 < iv.range := by
  obtain ⟨lo, hi, gap⟩ := h
  unfold Interval.range
  omega

/-- What narrowing makes of the bounds: a non-empty part of the interval, with no bit lost to the 48-bit width. -/
theorem narrow_bounds {iv : Interval} {r : Slice} (le : iv.low.toNat ≤ iv.high.toNat) (nonempty : r.low < r.high)
    (within : r.high ≤ r.total) (wide : r.total ≤ iv.range) :
    (iv.narrow r).low.toNat = iv.low.toNat + iv.range * r.low / r.total ∧
    (iv.narrow r).high.toNat + 1 = iv.low.toNat + iv.range * r.high / r.total ∧
    (iv.narrow r).low.toNat ≤ (iv.narrow r).high.toNat := by
  have total_pos : 0 < r.total := by omega
  have apart : iv.range * r.low / r.total + 1 ≤ iv.range * r.high / r.total := by
    rw [← Nat.add_div_right _ total_pos]
    apply Nat.div_le_div_right
    calc iv.range * r.low + r.total ≤ iv.range * (r.low + 1) := by rw [Nat.mul_add_one]; omega
      _ ≤ iv.range * r.high := Nat.mul_le_mul_left _ nonempty
  have inside : iv.range * r.high / r.total ≤ iv.range :=
    Nat.div_le_of_le_mul (by rw [Nat.mul_comm]; exact Nat.mul_le_mul_right _ within)
  have range_eq : iv.range = iv.high.toNat - iv.low.toNat + 1 := rfl
  have := iv.high.isLt
  simp only [Interval.narrow, BitVec.toNat_ofNat]
  generalize iv.range * r.low / r.total = below at *
  generalize iv.range * r.high / r.total = upTo at *
  omega

/-- The slice that holds the scaled value narrows the interval to one that holds the code (42_arith_decoder.md R132
to R134, R137): `d` is the code's offset in an interval of `range` values. -/
theorem offset_in_slice {range tot lo hi d : Nat} (range_pos : 0 < range) (tot_pos : 0 < tot)
    (above : lo ≤ ((d + 1) * tot - 1) / range) (below : ((d + 1) * tot - 1) / range < hi) :
    range * lo / tot ≤ d ∧ d + 1 ≤ range * hi / tot := by
  have pos : 0 < (d + 1) * tot := Nat.mul_pos d.succ_pos tot_pos
  constructor
  · rw [Nat.le_div_iff_mul_le range_pos] at above
    have : range * lo / tot < d + 1 := by
      rw [Nat.div_lt_iff_lt_mul tot_pos, Nat.mul_comm]
      omega
    omega
  · rw [Nat.div_lt_iff_lt_mul range_pos] at below
    rw [Nat.le_div_iff_mul_le tot_pos, Nat.mul_comm range]
    omega

/-! ## The normalisation both loops make -/

/-- The interval after at most `n` normalisation steps (41_arith_encoder.md R113, 42_arith_decoder.md R135). -/
def Interval.normalised : Nat → Interval → Interval
  | 0, iv => iv
  | n + 1, iv => (iv.shift?.map fun k => Interval.normalised n (iv.shifted k)).getD iv

theorem normalised_stop {n : Nat} {iv : Interval} (h : iv.shift? = none) : iv.normalised n = iv := by
  cases n with
  | zero => rfl
  | succ n => simp [Interval.normalised, h]

theorem normalised_step {n : Nat} {iv : Interval} {k : Shift} (h : iv.shift? = some k) :
    iv.normalised (n + 1) = (iv.shifted k).normalised n := by
  simp [Interval.normalised, h]

/-- The encoder's loop moves the interval so. -/
theorem normalise_toInterval (n : Nat) (e : Encoder) (w : Writer) :
    (normalise n e w).1.toInterval = e.toInterval.normalised n := by
  induction n generalizing e w with
  | zero => rfl
  | succ n ih =>
    cases h : e.toInterval.shift? with
    | none => rw [normalise_stop w h, normalised_stop h]
    | some k =>
      rw [normalised_step h]
      cases k with
      | top b => rw [normalise_top w h, ih]
      | underflow => rw [normalise_underflow w h, ih]

/-- And so does the decoder's. -/
theorem normaliseDecoder_toInterval (bs : List Byte) (n : Nat) (d : Decoder) (r : BitReader) :
    (normaliseDecoder bs n d r).1.toInterval = d.toInterval.normalised n := by
  induction n generalizing d r with
  | zero => rfl
  | succ n ih =>
    cases h : d.toInterval.shift? with
    | none => rw [normaliseDecoder_stop r h, normalised_stop h]
    | some k => rw [normaliseDecoder_step r h, normalised_step h, ih]

/-- Each step doubles the width, so `n` steps are enough for an interval that `n` doublings bring to the whole range
(41_arith_encoder.md R116 (d)). -/
theorem intervalOk_normalised {n : Nat} {iv : Interval} (le : iv.low.toNat ≤ iv.high.toNat)
    (wide : 2 ^ 48 ≤ 2 ^ n * (iv.high.toNat - iv.low.toNat + 1)) : IntervalOk (iv.normalised n) := by
  induction n generalizing iv with
  | zero =>
    have := iv.high.isLt
    show IntervalOk iv
    unfold IntervalOk
    omega
  | succ n ih =>
    cases h : iv.shift? with
    | none =>
      rw [normalised_stop h]
      exact (shift?_none le).1 h
    | some k =>
      obtain ⟨le', width⟩ := shifted_width le h
      rw [normalised_step h]
      refine ih le' ?_
      rw [width]
      calc 2 ^ 48 ≤ 2 ^ (n + 1) * (iv.high.toNat - iv.low.toNat + 1) := wide
        _ = 2 ^ n * (2 * (iv.high.toNat - iv.low.toNat + 1)) := by ring

/-- The 48 steps the block allows itself are enough for every interval (41_arith_encoder.md R116 (d), R117). -/
theorem intervalOk_normalised_shiftBound {iv : Interval} (le : iv.low.toNat ≤ iv.high.toNat) :
    IntervalOk (iv.normalised shiftBound) :=
  intervalOk_normalised le (Nat.le_mul_of_pos_right _ (Nat.succ_pos _))

/-! ## The code within the interval (42_arith_decoder.md R135, R137) -/

/-- A bound doubled, with the bit `b` entering at the bottom. -/
theorem toNat_double_or_bit (v : Bound) (b : Bool) : ((v <<< 1) ||| bitBound b).toNat = 2 * v.toNat % 2 ^ 48 + b.toNat := by
  cases b with
  | false => simpa [bitBound] using toNat_double v
  | true => exact toNat_double_or_one v

/-- A step keeps the code within the interval, whatever bit is read. -/
theorem shiftCode_within {iv : Interval} {code : Bound} {k : Shift} (h : iv.shift? = some k)
    (lo : iv.low.toNat ≤ code.toNat) (hi : code.toNat ≤ iv.high.toNat) (b : Bool) :
    (iv.shifted k).low.toNat ≤ (shiftCode code b k).toNat ∧ (shiftCode code b k).toNat ≤ (iv.shifted k).high.toNat := by
  have := iv.high.isLt
  have bit := b.toNat_le
  cases k with
  | top top =>
    obtain ⟨lowTop, highTop⟩ := shift?_top h
    obtain ⟨l, u⟩ := shifted_top iv top
    simp only [l, u, shiftCode, toNat_double_or_bit]
    have same : 2 ^ 47 ≤ iv.low.toNat ↔ 2 ^ 47 ≤ iv.high.toNat := by
      rw [← decide_eq_decide, ← lowTop, highTop]
    omega
  | underflow =>
    obtain ⟨a, b, c, d⟩ := shift?_underflow (by omega) h
    obtain ⟨l, u⟩ := shifted_underflow b a c d
    simp only [l, u, shiftCode, toNat_double_or_bit, toNat_sub_quarter (show 2 ^ 46 ≤ code.toNat by omega)]
    omega

/-- The decoder's loop keeps the code within the interval. -/
theorem normaliseDecoder_within {bs : List Byte} {n : Nat} {d : Decoder} {r : BitReader}
    (lo : d.low.toNat ≤ d.code.toNat) (hi : d.code.toNat ≤ d.high.toNat) :
    (normaliseDecoder bs n d r).1.low.toNat ≤ (normaliseDecoder bs n d r).1.code.toNat ∧
    (normaliseDecoder bs n d r).1.code.toNat ≤ (normaliseDecoder bs n d r).1.high.toNat := by
  induction n generalizing d r with
  | zero => exact ⟨lo, hi⟩
  | succ n ih =>
    cases h : d.toInterval.shift? with
    | none => rw [normaliseDecoder_stop r h]; exact ⟨lo, hi⟩
    | some k =>
      obtain ⟨lo', hi'⟩ := shiftCode_within h lo hi (brGet bs r).1
      rw [normaliseDecoder_step r h]
      exact ih lo' hi'

/-! ## One symbol coded or decoded keeps the coder's invariant -/

/-- 10_state.md R27, 41_arith_encoder.md R117. -/
theorem encoderOk_normalise {freq : List Nat} {e : Encoder} {sym : Nat} (model : ModelOk freq) (ok : EncoderOk e)
    (le : sym ≤ 256) (w : Writer) :
    EncoderOk (normalise shiftBound { e with toInterval := e.toInterval.narrow (sliceOf freq sym) } w).1 := by
  intro notDone
  obtain ⟨ordered, wide⟩ := (ok (by simpa using notDone)).wide
  obtain ⟨nonempty, within⟩ := sliceOf_bounds model le
  obtain ⟨-, -, ordered'⟩ := narrow_bounds ordered nonempty within (model.2.2.trans wide.le)
  rw [normalise_toInterval]
  exact intervalOk_normalised_shiftBound ordered'

/-- `ad_decode`'s symbol is one of the alphabet, and its narrowed interval holds the code (42_arith_decoder.md R132
to R134). -/
theorem decoded_narrow_within {freq : List Nat} {d : Decoder} (model : ModelOk freq) (ok : IntervalOk d.toInterval)
    (lo : d.low.toNat ≤ d.code.toNat) (hi : d.code.toNat ≤ d.high.toNat) :
    let sym := findSymbol freq (scaledValue d (total freq))
    let iv := d.toInterval.narrow (sliceOf freq sym)
    sym ≤ 256 ∧ iv.low.toNat ≤ d.code.toNat ∧ d.code.toNat ≤ iv.high.toNat := by
  intro sym iv
  obtain ⟨ordered, wide⟩ := ok.wide
  have tot_pos : 0 < total freq := by
    have := cum_lt_succ model.2.1 (k := 256) (by omega)
    exact Nat.zero_lt_of_lt this
  have range_eq : d.toInterval.range = d.high.toNat - d.low.toNat + 1 := rfl
  have scaled : scaledValue d (total freq) < total freq := by
    unfold scaledValue
    have := Nat.mul_pos (show 0 < d.code.toNat - d.low.toNat + 1 by omega) tot_pos
    rw [Nat.div_lt_iff_lt_mul (by omega), Nat.mul_comm (total freq)]
    have : (d.code.toNat - d.low.toNat + 1) * total freq ≤ d.toInterval.range * total freq :=
      Nat.mul_le_mul_right _ (by omega)
    omega
  obtain ⟨le, above, below⟩ := findSymbol_spec model.1 scaled
  obtain ⟨nonempty, within⟩ := sliceOf_bounds model le
  obtain ⟨lowEq, highEq, -⟩ := narrow_bounds ordered nonempty within (model.2.2.trans wide.le)
  obtain ⟨atLow, atHigh⟩ := offset_in_slice (by omega) tot_pos above below
  refine ⟨le, ?_, ?_⟩
  · rw [lowEq]
    exact (Nat.add_le_add_left atLow _).trans (by omega)
  · have : d.low.toNat + (d.code.toNat - d.low.toNat + 1) ≤ iv.high.toNat + 1 := by
      rw [highEq]
      exact Nat.add_le_add_left atHigh _
    omega

@[simp] theorem markFinished_toInterval (sym : Nat) (d : Decoder) : (markFinished sym d).toInterval = d.toInterval := by
  unfold markFinished
  split <;> rfl

@[simp] theorem markFinished_code (sym : Nat) (d : Decoder) : (markFinished sym d).code = d.code := by
  unfold markFinished
  split <;> rfl

@[simp] theorem markFinished_primed (sym : Nat) (d : Decoder) : (markFinished sym d).primed = d.primed := by
  unfold markFinished
  split <;> rfl

/-- 10_state.md R28, 42_arith_decoder.md R137. -/
theorem decoderOk_decoded {freq : List Nat} {d : Decoder} (model : ModelOk freq) (ok : DecoderOk d) (bs : List Byte)
    (r : BitReader) :
    let sym := findSymbol freq (scaledValue d (total freq))
    DecoderOk (markFinished sym
      (normaliseDecoder bs shiftBound { d with toInterval := d.toInterval.narrow (sliceOf freq sym) } r).1) := by
  intro sym primed
  obtain ⟨normalised, lo, hi⟩ := ok (by simpa using primed)
  obtain ⟨-, atLow, atHigh⟩ := decoded_narrow_within model normalised lo hi
  simp only [markFinished_toInterval, markFinished_code]
  refine ⟨?_, normaliseDecoder_within atLow atHigh⟩
  rw [normaliseDecoder_toInterval]
  exact intervalOk_normalised_shiftBound (atLow.trans atHigh)

end Sys2Proof.Machine

/-! PROOFS. Every step keeps the machine's invariant: each part of the state, each procedure, each command, each
move of the host. -/

namespace Sys2Proof.Machine

/-! ## The parts of the invariant -/

section
variable {s : State} (h : s.Inv)
include h

theorem State.Inv.model : ModelOk s.freq := let ⟨model, _⟩ := h; model
theorem State.Inv.encoder : EncoderOk s.ae := let ⟨_, ae, _⟩ := h; ae
theorem State.Inv.decoder : DecoderOk s.ad := let ⟨_, _, ad, _⟩ := h; ad
theorem State.Inv.writer : WriterOk ⟨s.writer.acc, s.writer.nbits⟩ := let ⟨_, _, _, bw, _⟩ := h; bw
theorem State.Inv.pixWf : s.pix.wf := let ⟨_, _, _, _, _, wf, _⟩ := h; wf
theorem State.Inv.bsFits : fits s.caps.bsCap s.bs.length = true := let ⟨_, _, _, _, _, _, bs, _⟩ := h; bs
theorem State.Inv.resFits : fits s.caps.resCap s.res.bytes.length = true := let ⟨_, _, _, _, _, _, _, res, _⟩ := h; res
theorem State.Inv.cellsFit : ∀ c ∈ s.pix, fits s.caps.pixCap (c.1 + 1) = true :=
  let ⟨_, _, _, _, _, _, _, _, _, cells⟩ := h; cells

end

/-! ## The invariant and one part of the state

The result registers, the configuration, BR and the host's list are no part of the invariant. -/

section
variable {s : State} (h : s.Inv)
include h

theorem inv_setX (v : ResultRegs) : (s.setX v).Inv := h
theorem inv_setX0 (v : Word) : (s.setX0 v).Inv := h
theorem inv_setConf (v : ConfRegs) : (s.setConf v).Inv := h
theorem inv_setBr (v : BitReader) : (s.setBr v).Inv := h
theorem inv_setHost (v : List HostAction) : (s.setHost v).Inv := h

theorem inv_setFlt {v : FaultRecord} (ok : FaultRecordOk v) : (s.setFlt v).Inv :=
  let ⟨model, ae, ad, bw, _, pix, buffers⟩ := h
  ⟨model, ae, ad, bw, ok, pix, buffers⟩

theorem inv_setFreq {v : List Nat} (ok : ModelOk v) : (s.setFreq v).Inv :=
  let ⟨_, rest⟩ := h
  ⟨ok, rest⟩

theorem inv_setAe {v : Encoder} (ok : EncoderOk v) : (s.setAe v).Inv :=
  let ⟨model, _, rest⟩ := h
  ⟨model, ok, rest⟩

theorem inv_setAd {v : Decoder} (ok : DecoderOk v) : (s.setAd v).Inv :=
  let ⟨model, ae, _, rest⟩ := h
  ⟨model, ae, ok, rest⟩

theorem inv_setBs {v : List Byte} (fit : fits s.caps.bsCap v.length = true) : (s.setBs v).Inv :=
  let ⟨model, ae, ad, bw, flt, pix, _, res, pos, cells⟩ := h
  ⟨model, ae, ad, bw, flt, pix, fit, res, pos, cells⟩

theorem inv_setWriter {w : Writer} (ok : WriterOk ⟨w.acc, w.nbits⟩) (fit : fits s.caps.bsCap w.bs.length = true) :
    (s.setWriter w).Inv :=
  let ⟨model, ae, ad, _, flt, pix, _, res, pos, cells⟩ := h
  ⟨model, ae, ad, ok, flt, pix, fit, res, pos, cells⟩

theorem inv_setRes {v : Residuals} (fit : fits s.caps.resCap v.bytes.length = true) : (s.setRes v).Inv :=
  let ⟨model, ae, ad, bw, flt, pix, bs, _, pos, cells⟩ := h
  ⟨model, ae, ad, bw, flt, pix, bs, fit, pos, cells⟩

theorem inv_setPrPos {v : Nat} (fit : fits s.caps.pixCap (3 * v) = true) : (s.setPrPos v).Inv :=
  let ⟨model, ae, ad, bw, flt, pix, bs, res, _, cells⟩ := h
  ⟨model, ae, ad, bw, flt, pix, bs, res, fit, cells⟩

theorem inv_setPix {m : Memory} (wf : m.wf) (fit : ∀ c ∈ m, fits s.caps.pixCap (c.1 + 1) = true) : (s.setPix m).Inv :=
  let ⟨model, ae, ad, bw, flt, _, bs, res, pos, _⟩ := h
  ⟨model, ae, ad, bw, flt, wf, bs, res, pos, fit⟩

end

/-! ## What starts anew -/

@[simp] theorem fits_zero (cap : Option Nat) : fits cap 0 = true := by
  cases cap with
  | none => rfl
  | some c => simp

/-- The full interval is normalised (41_arith_encoder.md R111). -/
theorem intervalOk_full : IntervalOk ⟨0, Config.mask⟩ := by decide

theorem toNat_le_mask (v : Bound) : v.toNat ≤ Config.mask.toNat := by
  have := v.isLt
  have : Config.mask.toNat = 2 ^ 48 - 1 := rfl
  omega

theorem encoderOk_start : EncoderOk Encoder.start := fun _ => intervalOk_full

/-- RESET and power-on give every part of the invariant its reset value, whatever PIX holds (60_exceptions.md R247). -/
theorem inv_leaveFault {s : State} (h : s.Inv) : (leaveFault s).Inv :=
  ⟨modelOk_freshCounts, encoderOk_start, nofun, Nat.one_pos, ⟨fun _ => ⟨rfl, rfl⟩, nofun⟩,
    h.pixWf, fits_zero _, fits_zero _, fits_zero _, h.cellsFit⟩

/-! ## Faults taken -/

/-- A cause the block raises on a state of the invariant has a code of the record's list: all but
MODEL_INVARIANT_VIOLATION (60_exceptions.md R241, R242). -/
theorem faultRecordOk_of_cause {c : Cause} (h : c ≠ .modelInvariantViolation) (w : Word) :
    FaultRecordOk ⟨true, c.code, w⟩ := by
  refine ⟨nofun, fun _ => ?_⟩
  cases c with
  | modelInvariantViolation => exact absurd rfl h
  | illegalCommand | illegalOperand | sequenceError | formatUnknownPredictor | lengthMismatch | capacity =>
    simp [Cause.code]

theorem inv_raise {s : State} (h : s.Inv) {c : Cause} (ne : c ≠ .modelInvariantViolation) (w : Word) :
    (raise c w s).Inv := by
  unfold raise
  split
  · exact h
  · exact inv_setFlt h (faultRecordOk_of_cause ne w)

theorem rejectCause_ne (r : Reject) : rejectCause r ≠ .modelInvariantViolation := by cases r <;> nofun

/-- What a procedure raises on a state of the invariant: the state it had reached has the invariant, and the cause is
not MODEL_INVARIANT_VIOLATION. -/
def RaisedInv (r : Raised) : Prop := r.state.Inv ∧ r.cause ≠ .modelInvariantViolation

/-- A procedure that ends in the invariant both ways. -/
abbrev EndsInv (p : Proc State) : Prop := Ends RaisedInv State.Inv p

theorem command_inv {i : Instr} {p : State → Proc State} {s t : State} (e : command i p s = .next t) (h : s.Inv)
    (run : i.WellFormed → EndsInv (p s)) : t.Inv :=
  command_ends e h (fun _ hr => inv_raise hr.1 hr.2 _) (fun r => ⟨h, rejectCause_ne r⟩) run

/-! ## The bit writer (10_state.md R29) -/

/-- A put keeps acc < 2^nbits: the bit enters at the bottom, and a whole byte leaves none. -/
theorem writerOk_put (b : Bool) {w : Writer} (h : WriterOk ⟨w.acc, w.nbits⟩) :
    WriterOk ⟨(w.put b).acc, (w.put b).nbits⟩ := by
  by_cases room : w.nbits.val + 1 < 8
  · have shifted : (w.acc <<< 1).toNat < 2 ^ (w.nbits.val + 1) := by
      rw [BitVec.toNat_shiftLeft, Nat.shiftLeft_eq, Nat.pow_succ]
      exact (Nat.mod_le _ _).trans_lt (Nat.mul_lt_mul_of_pos_right h Nat.two_pos)
    have bit : ((BitVec.ofBool b).setWidth 8).toNat < 2 ^ (w.nbits.val + 1) := by
      have : ((BitVec.ofBool b).setWidth 8).toNat < 2 := by cases b <;> decide
      exact this.trans_le (Nat.le_self_pow (Nat.succ_ne_zero _) 2)
    simp only [put_partial b room, WriterOk, BitVec.toNat_or]
    exact Nat.or_lt_two_pow shifted bit
  · simp [put_full b room, WriterOk]

theorem writerOk_putMany (n : Nat) (b : Bool) {w : Writer} (h : WriterOk ⟨w.acc, w.nbits⟩) :
    WriterOk ⟨(Writer.putMany n b w).acc, (Writer.putMany n b w).nbits⟩ := by
  induction n generalizing w with
  | zero => exact h
  | succ n ih => exact ih (writerOk_put b h)

theorem writerOk_padWithin (n : Nat) {w : Writer} (h : WriterOk ⟨w.acc, w.nbits⟩) :
    WriterOk ⟨(Writer.padWithin n w).acc, (Writer.padWithin n w).nbits⟩ := by
  induction n generalizing w with
  | zero => exact h
  | succ n ih =>
    rw [Writer.padWithin]
    split
    · exact h
    · exact ih (writerOk_put false h)

theorem writerOk_finishBits (e : Encoder) {w : Writer} (h : WriterOk ⟨w.acc, w.nbits⟩) :
    WriterOk ⟨(finishBits e w).acc, (finishBits e w).nbits⟩ :=
  writerOk_putMany _ _ (writerOk_put _ (writerOk_put _ h))

theorem writerOk_normalise (n : Nat) (e : Encoder) {w : Writer} (h : WriterOk ⟨w.acc, w.nbits⟩) :
    WriterOk ⟨(normalise n e w).2.acc, (normalise n e w).2.nbits⟩ := by
  induction n generalizing e w with
  | zero => exact h
  | succ n ih =>
    cases hs : e.toInterval.shift? with
    | none => rw [normalise_stop w hs]; exact h
    | some k =>
      cases k with
      | top b => rw [normalise_top w hs]; exact ih _ (writerOk_putMany _ _ (writerOk_put b h))
      | underflow => rw [normalise_underflow w hs]; exact ih _ h

/-! ## The procedures -/

section
variable {s : State} (h : s.Inv)
include h

theorem commitWriter_inv {w : Writer} (ok : WriterOk ⟨w.acc, w.nbits⟩) : EndsInv (commitWriter w s) := by
  rcases commitWriter_cases w s with ⟨same | fit, e⟩ | ⟨-, -, e⟩
  · rw [e]
    exact inv_setWriter h ok (same ▸ h.bsFits)
  · rw [e]
    exact inv_setWriter h ok fit
  · rw [e]
    exact ⟨h, nofun⟩

/-- The test of the total passes, since the model is in order (40_symbol_model.md R93). -/
theorem smRange_inv (sym : Nat) : Ends RaisedInv (· = sliceOf s.freq sym) (smRange sym s) := by
  obtain ⟨-, -, total_le⟩ := h.model
  rcases smRange_cases sym s with ⟨-, e⟩ | ⟨tooMany, -⟩
  · rw [e]
    rfl
  · exact absurd tooMany (Nat.not_lt.2 total_le)

theorem aeEncode_inv {sym : Nat} (le : sym ≤ 256) : EndsInv (aeEncode sym s) := by
  refine (smRange_inv h sym).bind ?_
  rintro _ rfl
  exact (commitWriter_inv h (writerOk_normalise _ _ h.writer)).bind fun t ht =>
    inv_setAe ht (encoderOk_normalise h.model h.encoder le _)

theorem aeFinish_inv : EndsInv (aeFinish s) :=
  (commitWriter_inv h (writerOk_padWithin _ (writerOk_finishBits _ h.writer))).bind fun _ ht =>
    inv_setAe ht nofun

theorem adDecode_inv : Ends RaisedInv (fun r => r.2.Inv) (adDecode s) := by
  obtain ⟨-, -, total_le⟩ := h.model
  rcases adDecode_cases s with ⟨tooMany, -⟩ | ⟨-, e⟩
  · exact absurd tooMany (Nat.not_lt.2 total_le)
  · rw [e]
    exact inv_setBr (inv_setAd h (decoderOk_decoded h.model h.decoder _ _)) _

theorem smUpdate_inv (sym : Nat) : (smUpdate sym s).Inv := inv_setFreq h (modelOk_updateCounts h.model sym)

theorem smInit_inv : (smInit s).Inv := inv_setFreq h modelOk_freshCounts

/-- Priming: the full interval holds every code (42_arith_decoder.md R131). -/
theorem adInit_inv : (adInit s).Inv :=
  inv_setBr (inv_setAd h fun _ => ⟨intervalOk_full, Nat.zero_le _, toNat_le_mask _⟩) _

theorem setWriter_empty_inv : (s.setWriter Writer.empty).Inv := inv_setWriter h (by decide) (fits_zero _)

theorem clearRes_inv : (clearRes s).Inv := inv_setRes h (fits_zero _)

theorem appendRes_inv (bytes : List Byte) : EndsInv (appendRes bytes s) := by
  rcases appendRes_cases bytes s with ⟨fit, e⟩ | ⟨-, e⟩
  · rw [e]
    exact inv_setRes h (by simpa using fit)
  · rw [e]
    exact ⟨h, nofun⟩

/-- Bytes stored where PIX has them keep its part of the invariant (20_memory.md R49). -/
theorem inv_writeBytes {a : Nat} {bytes : List Byte} (fit : bytes = [] ∨ fits s.caps.pixCap (a + bytes.length) = true) :
    (s.setPix (s.pix.writeBytes a bytes)).Inv := by
  refine inv_setPix h (wf_writeBytes h.pixWf a bytes) fun c hc => ?_
  rcases fit with rfl | fit
  · exact h.cellsFit c hc
  · rcases mem_writeBytes hc with ⟨-, inside⟩ | old
    · exact fits_mono fit inside
    · exact h.cellsFit c old

/-- PR.INIT and the start of the inverse traversal. -/
theorem rewind_inv : ((s.setPrPos 0).setRes ⟨s.res.bytes, 0⟩).Inv :=
  inv_setRes (inv_setPrPos h (fits_zero _)) h.resFits

theorem prPredict_inv : Ends RaisedInv (fun _ => True) (prPredict s) := by
  unfold prPredict sourceHere
  cases predictSource s.conf.pred s.conf.width.toNat s.prPos with
  | none => exact ⟨h, nofun⟩
  | some src => exact ends_need_bind (fun _ => ⟨h, nofun⟩) fun _ => trivial

theorem prEnc_inv : Ends RaisedInv (fun r => r.2.Inv) (prEnc s) := by
  rcases prEnc_cases s with ⟨-, e⟩ | e | ⟨src, -, pixFits, resFits, e⟩
  · rw [e]
    exact ⟨h, nofun⟩
  · rw [e]
    exact ⟨h, nofun⟩
  · rw [e]
    exact inv_setPrPos (inv_setRes h (by simpa [Pixel.bytes] using resFits)) pixFits

theorem prDec_inv : Ends RaisedInv (fun r => r.2.Inv) (prDec s) := by
  rcases prDec_cases s with ⟨-, e⟩ | e | ⟨src, -, pixFits, e⟩
  · rw [e]
    exact ⟨h, nofun⟩
  · rw [e]
    exact ⟨h, nofun⟩
  · rw [e]
    exact inv_setPrPos (inv_setRes (inv_writeBytes h (.inr pixFits)) h.resFits) pixFits

end

theorem inv_keptByEncoding : KeptByEncoding RaisedInv State.Inv where
  start _ h := inv_setAe (setWriter_empty_inv (smInit_inv h)) encoderOk_start
  encode _ _ le h := aeEncode_inv h le
  update _ sym h := smUpdate_inv h sym
  finish _ h := aeFinish_inv h

theorem inv_keptByDecoding : KeptByDecoding RaisedInv State.Inv where
  start _ h := clearRes_inv (adInit_inv (inv_setBr (smInit_inv h) _))
  decode _ h := adDecode_inv h
  update _ sym h := smUpdate_inv h sym
  append _ bytes h := appendRes_inv h bytes
  tooLong _ h := ⟨h, nofun⟩

theorem inv_keptByForward : KeptByForward RaisedInv State.Inv where
  unknown _ h := ⟨h, nofun⟩
  start _ h := inv_setPrPos (clearRes_inv h) (fits_zero _)
  pixel _ h := prEnc_inv h

theorem inv_keptByInverse : KeptByInverse RaisedInv State.Inv where
  unknown _ h := ⟨h, nofun⟩
  wrongLength _ h := ⟨h, nofun⟩
  start _ h := rewind_inv h
  pixel _ h := prDec_inv h

/-! ## The commands -/

/-- The immediate of a command whose range is that of the symbols names one of them (30_encoding.md R62). -/
theorem toNat_le_of_aboveRange_none {v : Imm} {limit : Nat} (h : aboveRange v limit = none) : v.toNat ≤ limit := by
  unfold aboveRange at h
  split at h
  · cases h
  · omega

/-- A command that first tests its place in the sequence. -/
theorem sequenced_inv {s : State} (h : s.Inv) {test : Bool} {k : Unit → Proc State} (run : EndsInv (k ())) :
    EndsInv (need test .sequenceError s >>= k) :=
  ends_need_bind (fun _ => ⟨h, nofun⟩) fun _ => run

/-- Every command keeps the invariant. -/
theorem exec_inv {i : Instr} {s t : State} (h : s.Inv) (e : exec i s = .next t) : t.Inv := by
  unfold exec at e
  cases i with
  | nop => cases e; exact h
  | reset => cases e; exact inv_leaveFault h
  | csrRd r => cases e; exact inv_setX0 h _
  | csrWr r v => exact command_inv e h fun _ => inv_setConf h _
  | smInit => exact command_inv e h fun _ => smInit_inv h
  | smRange sym => exact command_inv e h fun _ => (smRange_inv h _).bind fun _ _ => inv_setX h _
  | smFind v => exact command_inv e h fun _ => ends_need_bind (fun _ => ⟨h, nofun⟩) fun _ => inv_setX0 h _
  | smUpdate sym => exact command_inv e h fun _ => smUpdate_inv h _
  | aeInit => exact command_inv e h fun _ => inv_setAe h encoderOk_start
  | aeEncode sym =>
    exact command_inv e h fun wf => sequenced_inv h (aeEncode_inv h (toNat_le_of_aboveRange_none wf))
  | aeFinish => exact command_inv e h fun _ => sequenced_inv h (aeFinish_inv h)
  | adInit => exact command_inv e h fun _ => adInit_inv h
  | adDecode =>
    exact command_inv e h fun _ => sequenced_inv h ((adDecode_inv h).bind fun _ hr => inv_setX0 hr _)
  | adFinished => exact command_inv e h fun _ => inv_setX0 h _
  | bwInit => exact command_inv e h fun _ => setWriter_empty_inv h
  | bwPut b => exact command_inv e h fun _ => commitWriter_inv h (writerOk_put _ h.writer)
  | bwFinish => exact command_inv e h fun _ => commitWriter_inv h (writerOk_padWithin _ h.writer)
  | brInit => exact command_inv e h fun _ => inv_setBr h _
  | brGet => exact command_inv e h fun _ => inv_setX0 (inv_setBr h _) _
  | prInit => exact command_inv e h fun _ => rewind_inv h
  | prPredict =>
    exact command_inv e h fun _ => sequenced_inv h ((prPredict_inv h).bind fun _ _ => inv_setX0 h _)
  | prEnc => exact command_inv e h fun _ => sequenced_inv h ((prEnc_inv h).bind fun _ hr => inv_setX0 hr _)
  | prDec => exact command_inv e h fun _ => sequenced_inv h ((prDec_inv h).bind fun _ hr => inv_setX0 hr _)
  | prFwd => exact command_inv e h fun _ => inv_keptByForward.prForward h
  | prInv => exact command_inv e h fun _ => inv_keptByInverse.prInverse h
  | resClr => exact command_inv e h fun _ => clearRes_inv h
  | resPush b => exact command_inv e h fun _ => appendRes_inv h _
  | encBytes => exact command_inv e h fun _ => (inv_keptByEncoding.encBytes h).map fun _ ht => inv_setX0 ht _
  | decBytes limit => exact command_inv e h fun _ => (inv_keptByDecoding.decBytes _ h).map fun _ ht => inv_setX0 ht _
  | encGrid =>
    exact command_inv e h fun _ => (inv_keptByForward.encGrid inv_keptByEncoding h).map fun _ ht => inv_setX0 ht _
  | decGrid =>
    exact command_inv e h fun _ => (inv_keptByInverse.decGrid inv_keptByDecoding h).map fun _ ht => inv_setX0 ht _

/-! ## The host's moves -/

/-- Cells written one after the other lie at the given addresses. -/
theorem mem_ofCells {cells : List Host.Cell} {c : Host.Cell} (h : c ∈ Memory.ofCells cells) : ∃ d ∈ cells, c.1 = d.1 := by
  suffices ∀ m : Memory, c ∈ cells.foldl (fun m c => m.write c.1 c.2) m → c ∈ m ∨ ∃ d ∈ cells, c.1 = d.1 from
    (this [] h).resolve_left (by simp)
  clear h
  induction cells with
  | nil => exact fun m hm => .inl hm
  | cons d rest ih =>
    intro m hm
    rcases ih _ hm with written | ⟨d', hd', same⟩
    · exact (mem_write written).symm.imp_right fun same => ⟨d, by simp, same⟩
    · exact .inr ⟨d', by simp [hd'], same⟩

/-- Power-on with cells that exist (70_reset_and_hazards.md R280). -/
theorem inv_powerOn {s : State} (h : s.Inv) {cells : List Host.Cell} (fit : ∀ c ∈ cells, fits s.caps.pixCap (c.1 + 1) = true) :
    ((leaveFault s).setPix (Memory.ofCells cells)).Inv := by
  refine inv_setPix (inv_leaveFault h) (wf_ofCells cells) fun c hc => ?_
  obtain ⟨d, hd, same⟩ := mem_ofCells hc
  rw [same]
  exact fit d hd

/-- Settles O14: each of the things a step can do keeps each part of the invariant. -/
theorem stepKeepsInvariant : Obligations.StepKeepsInvariant := by
  intro s t h e
  rcases step_cases e with ⟨-, rfl⟩ | ⟨w, rest, i, -, -, e⟩ | ⟨w, rest, r, -, -, rfl⟩ | ⟨a, bytes, rest, -, fit, rfl⟩ |
    ⟨bytes, rest, -, fit, rfl⟩ | ⟨bytes, rest, -, fit, rfl⟩ | ⟨cells, rest, -, fit, rfl⟩
  · exact h
  · exact exec_inv (inv_setHost h rest) e
  · exact inv_raise (inv_setHost h rest) (rejectCause_ne r) w
  · exact inv_writeBytes (inv_setHost h rest) (by simpa using fit)
  · exact inv_setRes (inv_setHost h rest) fit
  · exact inv_setBs (inv_setHost h rest) fit
  · exact inv_powerOn (inv_setHost h rest) (by simpa using fit)

end Sys2Proof.Machine

/-! PROOFS. The result registers: who writes them (10_state.md R11), and what `CSR.RD` reads (10_state.md R20). -/

namespace Sys2Proof.Machine

/-! ## What no procedure of the units writes

`R` is a property of the result registers; a procedure that does not write them keeps it, where it answers and where it
raises. -/

/-- The result registers of the state a procedure had reached when it raised. -/
def RaisedX (R : ResultRegs → Prop) (r : Raised) : Prop := R r.state.x

section
variable {R : ResultRegs → Prop} {s : State} (h : R s.x)
include h

theorem commitWriter_x (w : Writer) : Ends (RaisedX R) (fun t => R t.x) (commitWriter w s) :=
  ends_need_bind (fun _ => h) fun _ => h

theorem appendRes_x (bytes : List Byte) : Ends (RaisedX R) (fun t => R t.x) (appendRes bytes s) :=
  ends_need_bind (fun _ => h) fun _ => h

theorem aeEncode_x (sym : Nat) : Ends (RaisedX R) (fun t => R t.x) (aeEncode sym s) := by
  rcases aeEncode_cases sym s with e | e | ⟨-, -, e⟩ <;> rw [e] <;> exact h

theorem aeFinish_x : Ends (RaisedX R) (fun t => R t.x) (aeFinish s) := by
  rcases aeFinish_cases s with e | ⟨-, e⟩ <;> rw [e] <;> exact h

theorem adDecode_x : Ends (RaisedX R) (fun r => R r.2.x) (adDecode s) := by
  rcases adDecode_cases s with ⟨-, e⟩ | ⟨-, e⟩ <;> rw [e] <;> exact h

theorem prPredict_x : Ends (RaisedX R) (fun _ => True) (prPredict s) := by
  unfold prPredict sourceHere
  cases predictSource s.conf.pred s.conf.width.toNat s.prPos with
  | none => exact h
  | some src => exact ends_need_bind (fun _ => h) fun _ => trivial

theorem prEnc_x : Ends (RaisedX R) (fun r => R r.2.x) (prEnc s) := by
  rcases prEnc_cases s with ⟨-, e⟩ | e | ⟨_, -, -, -, e⟩ <;> rw [e] <;> exact h

theorem prDec_x : Ends (RaisedX R) (fun r => R r.2.x) (prDec s) := by
  rcases prDec_cases s with ⟨-, e⟩ | e | ⟨_, -, -, e⟩ <;> rw [e] <;> exact h

end

section
variable (R : ResultRegs → Prop)

theorem x_keptByEncoding : KeptByEncoding (RaisedX R) (fun s => R s.x) where
  start _ h := h
  encode _ sym _ h := aeEncode_x h sym
  update _ _ h := h
  finish _ h := aeFinish_x h

theorem x_keptByDecoding : KeptByDecoding (RaisedX R) (fun s => R s.x) where
  start _ h := h
  decode _ h := adDecode_x h
  update _ _ h := h
  append _ bytes h := appendRes_x h bytes
  tooLong _ h := h

theorem x_keptByForward : KeptByForward (RaisedX R) (fun s => R s.x) where
  unknown _ h := h
  start _ h := h
  pixel _ h := prEnc_x h

theorem x_keptByInverse : KeptByInverse (RaisedX R) (fun s => R s.x) where
  unknown _ h := h
  wrongLength _ h := h
  start _ h := h
  pixel _ h := prDec_x h

end

/-! ## The commands (10_state.md R11) -/

/-- A command keeps what its procedure keeps: taking a fault writes no result register (60_exceptions.md R244). -/
theorem command_x {R : ResultRegs → Prop} {i : Instr} {p : State → Proc State} {s t : State}
    (e : command i p s = .next t) (h : R s.x) (run : Ends (RaisedX R) (fun t => R t.x) (p s)) : R t.x :=
  command_ends e h (fun r hr => by rw [raise_eq_setFlt]; exact hr) (fun _ => h) fun _ => run

/-- A property of the result registers is kept by every command that does not write all three, if it does not depend on
`x[0]` where the command writes that. -/
theorem exec_x {R : ResultRegs → Prop} {i : Instr} {s t : State} (e : exec i s = .next t) (notAll : writesX12 i = false)
    (free : writesX0 i = true → ∀ x v, R x → R { x with x0 := v }) (h : R s.x) : R t.x := by
  unfold exec at e
  cases i with
  | reset | smRange => cases notAll
  | nop => cases e; exact h
  | csrRd r => cases e; exact free rfl _ _ h
  | csrWr | smInit | smUpdate | aeInit | adInit | bwInit | brInit | prInit | resClr => exact command_x e h h
  | adFinished | brGet => exact command_x e h (free rfl _ _ h)
  | smFind v => exact command_x e h (ends_need_bind (fun _ => h) fun _ => free rfl _ _ h)
  | aeEncode sym => exact command_x e h (ends_need_bind (fun _ => h) fun _ => aeEncode_x h _)
  | aeFinish => exact command_x e h (ends_need_bind (fun _ => h) fun _ => aeFinish_x h)
  | adDecode =>
    exact command_x e h (ends_need_bind (fun _ => h) fun _ => (adDecode_x h).bind fun _ hr => free rfl _ _ hr)
  | bwPut | bwFinish => exact command_x e h (commitWriter_x h _)
  | prPredict =>
    exact command_x e h (ends_need_bind (fun _ => h) fun _ => (prPredict_x h).bind fun _ _ => free rfl _ _ h)
  | prEnc => exact command_x e h (ends_need_bind (fun _ => h) fun _ => (prEnc_x h).bind fun _ hr => free rfl _ _ hr)
  | prDec => exact command_x e h (ends_need_bind (fun _ => h) fun _ => (prDec_x h).bind fun _ hr => free rfl _ _ hr)
  | prFwd => exact command_x e h ((x_keptByForward R).prForward h)
  | prInv => exact command_x e h ((x_keptByInverse R).prInverse h)
  | resPush b => exact command_x e h (appendRes_x h _)
  | encBytes => exact command_x e h (((x_keptByEncoding R).encBytes h).map fun _ ht => free rfl _ _ ht)
  | decBytes limit => exact command_x e h (((x_keptByDecoding R).decBytes _ h).map fun _ ht => free rfl _ _ ht)
  | encGrid =>
    exact command_x e h (((x_keptByForward R).encGrid (x_keptByEncoding R) h).map fun _ ht => free rfl _ _ ht)
  | decGrid =>
    exact command_x e h (((x_keptByInverse R).decGrid (x_keptByDecoding R) h).map fun _ ht => free rfl _ _ ht)

/-- A command that writes `x[1]` and `x[2]` writes `x[0]` too. -/
theorem writesX12_eq_false {i : Instr} (h : writesX0 i = false) : writesX12 i = false := by
  cases i with
  | smRange | reset => cases h
  | _ => rfl

/-- Settles O17: `x[0]` by the property of being the old `x[0]`, `x[1]` and `x[2]` by one that does not depend on
`x[0]`. -/
theorem resultRegistersWrittenAsTabled : Obligations.ResultRegistersWrittenAsTabled := by
  refine fun i s t e => ⟨fun not0 => ?_, fun not12 => ?_⟩
  · exact exec_x (R := fun x => x.x0 = s.x.x0) e (writesX12_eq_false not0) (by simp [not0]) rfl
  · exact exec_x (R := fun x => x.x1 = s.x.x1 ∧ x.x2 = s.x.x2) e not12 (fun _ _ _ kept => kept) ⟨rfl, rfl⟩

/-! ## CSR.RD (46_system_ops.md R222) -/

theorem exec_csrRd (r : Csr) (s : State) : exec (.csrRd r) s = .next (s.setX0 (BitVec.ofNat 64 (csrValue s r))) := rfl

/-- The four flags are the four bits of `STATUS`, `FAULT` the lowest (10_state.md R23). -/
theorem statusWord_toNat (s : State) :
    (statusWord s).toNat = s.flt.fault.toNat + 2 * s.ae.done.toNat + 4 * s.ad.primed.toNat + 8 * s.ad.finished.toNat := by
  unfold statusWord
  cases s.flt.fault <;> cases s.ae.done <;> cases s.ad.primed <;> cases s.ad.finished <;> rfl

/-- Settles O23: row by row, the number and the content. -/
theorem csrReadsAsTabled : Obligations.CsrReadsAsTabled := by
  intro s row hrow
  suffices row.1.number = row.2.1 ∧ csrValue s row.1 = row.2.2 by
    obtain ⟨number, value⟩ := this
    exact ⟨number, by rw [exec_csrRd, value]⟩
  rw [← statusWord_toNat] at hrow
  fin_cases hrow <;> exact ⟨rfl, rfl⟩

end Sys2Proof.Machine

/-! PROOFS. The buffers: who writes them (20_memory.md R48), that no command overflows an unbounded one (R49), and the
host's moves between commands (R51). -/

namespace Sys2Proof.Machine

/-! ## What a command keeps

One relation between the state a command starts from and any state it reaches carries R48 and R49 through the procedures
together: a procedure that finds a buffer full needs to know that the capacities are still the ones it started with. -/

/-- `t` differs from `s` in the buffers `i` may write at most, and in neither the host's list nor the capacities; with
unbounded buffers it has the fault record of `s` or one of another cause than CAPACITY. -/
def KeepsMemory (i : Instr) (s t : State) : Prop :=
  (writesPix i = false → t.pix = s.pix) ∧ (writesRes i = false → t.res.bytes = s.res.bytes) ∧
  (writesBs i = false → t.bs = s.bs) ∧ t.host = s.host ∧ t.caps = s.caps ∧
  (s.Unbounded → t.flt = s.flt ∨ t.flt.cause ≠ 10#8)

/-- The same of the state a procedure had reached when it raised, and no CAPACITY with unbounded buffers. -/
def RaisedKeepsMemory (i : Instr) (s : State) (r : Raised) : Prop :=
  KeepsMemory i s r.state ∧ (s.Unbounded → r.cause ≠ .capacity)

/-- A procedure that keeps memory both ways. -/
abbrev EndsKeepingMemory (i : Instr) (s : State) (p : Proc State) : Prop :=
  Ends (RaisedKeepsMemory i s) (KeepsMemory i s) p

theorem keepsMemory_refl (i : Instr) (s : State) : KeepsMemory i s s :=
  ⟨fun _ => rfl, fun _ => rfl, fun _ => rfl, rfl, rfl, fun _ => .inl rfl⟩

theorem keepsMemory_reset (s : State) : KeepsMemory .reset s (leaveFault s) :=
  ⟨fun _ => rfl, nofun, nofun, rfl, rfl, fun _ => .inr (by simp)⟩

theorem code_ne_capacity {c : Cause} (h : c ≠ .capacity) : c.code ≠ 10#8 := by
  cases c with
  | capacity => exact absurd rfl h
  | _ => simp [Cause.code]

/-- Taking a fault writes the record only (60_exceptions.md R244). -/
theorem keepsMemory_raise {i : Instr} {s : State} {r : Raised} (h : RaisedKeepsMemory i s r) (w : Word) :
    KeepsMemory i s (raise r.cause w r.state) := by
  obtain ⟨kept, notFull⟩ := h
  cases hf : r.state.flt.fault with
  | true => rwa [raise_standing hf]
  | false =>
    rw [raise_clear hf]
    obtain ⟨pix, res, bs, host, caps, -⟩ := kept
    exact ⟨pix, res, bs, host, caps, fun u => .inr (code_ne_capacity (notFull u))⟩

section
variable {i : Instr} {s t : State} (h : KeepsMemory i s t)
include h

theorem KeepsMemory.setPix (writes : writesPix i = true) (m : Memory) : KeepsMemory i s (t.setPix m) :=
  let ⟨_, rest⟩ := h
  ⟨by simp [writes], rest⟩

theorem KeepsMemory.setRes (writes : writesRes i = true) (v : Residuals) : KeepsMemory i s (t.setRes v) :=
  let ⟨pix, _, rest⟩ := h
  ⟨pix, by simp [writes], rest⟩

theorem KeepsMemory.setWriter (writes : writesBs i = true) (w : Writer) : KeepsMemory i s (t.setWriter w) :=
  let ⟨pix, res, _, rest⟩ := h
  ⟨pix, res, by simp [writes], rest⟩

theorem KeepsMemory.unbounded (u : s.Unbounded) : t.Unbounded :=
  let ⟨_, _, _, _, caps, _⟩ := h
  caps.trans u

/-- CAPACITY is raised where a buffer is full, so not with unbounded buffers (20_memory.md R49). -/
theorem KeepsMemory.overflow (full : ¬t.Unbounded) : RaisedKeepsMemory i s ⟨.capacity, t⟩ :=
  ⟨h, fun u => absurd (h.unbounded u) full⟩

/-! ## The procedures -/

theorem commitWriter_keepsMemory (writes : writesBs i = true) (w : Writer) : EndsKeepingMemory i s (commitWriter w t) :=
  ends_need_bind (fun full => h.overflow fun u => by simp [u] at full) fun _ => h.setWriter writes w

theorem appendRes_keepsMemory (writes : writesRes i = true) (bytes : List Byte) :
    EndsKeepingMemory i s (appendRes bytes t) :=
  ends_need_bind (fun full => h.overflow fun u => by simp [u] at full) fun _ => h.setRes writes _

theorem smRange_keepsMemory (sym : Nat) : Ends (RaisedKeepsMemory i s) (fun _ => True) (smRange sym t) :=
  ends_need_bind (fun _ => ⟨h, nofun⟩) fun _ => trivial

theorem aeEncode_keepsMemory (writes : writesBs i = true) (sym : Nat) : EndsKeepingMemory i s (aeEncode sym t) :=
  (smRange_keepsMemory h sym).bind fun _ _ => (commitWriter_keepsMemory h writes _).bind fun _ hu => hu

theorem aeFinish_keepsMemory (writes : writesBs i = true) : EndsKeepingMemory i s (aeFinish t) :=
  (commitWriter_keepsMemory h writes _).bind fun _ hu => hu

theorem adDecode_keepsMemory : Ends (RaisedKeepsMemory i s) (fun r => KeepsMemory i s r.2) (adDecode t) :=
  ends_need_bind (fun _ => ⟨h, nofun⟩) fun _ => h

theorem sourceHere_keepsMemory : Ends (RaisedKeepsMemory i s) (fun _ => True) (sourceHere t) := by
  unfold sourceHere
  cases predictSource t.conf.pred t.conf.width.toNat t.prPos with
  | none => exact ⟨h, nofun⟩
  | some src => trivial

/-- The pixels are tested to exist before the rest of a pixel's procedure runs (20_memory.md R49). -/
theorem pixCap_keepsMemory {α : Type} {Q : α → Prop} {n : Nat} {k : Unit → Proc α}
    (run : Ends (RaisedKeepsMemory i s) Q (k ())) :
    Ends (RaisedKeepsMemory i s) Q (need (fits t.caps.pixCap n) .capacity t >>= k) :=
  ends_need_bind (fun full => h.overflow fun u => by simp [u] at full) fun _ => run

theorem prPredict_keepsMemory : Ends (RaisedKeepsMemory i s) (fun _ => True) (prPredict t) :=
  (sourceHere_keepsMemory h).bind fun _ _ => pixCap_keepsMemory h trivial

theorem prEnc_keepsMemory (writes : writesRes i = true) :
    Ends (RaisedKeepsMemory i s) (fun r => KeepsMemory i s r.2) (prEnc t) :=
  (sourceHere_keepsMemory h).bind fun _ _ => pixCap_keepsMemory h <|
    (appendRes_keepsMemory h writes _).bind fun _ hu => hu

theorem prDec_keepsMemory (writes : writesPix i = true) :
    Ends (RaisedKeepsMemory i s) (fun r => KeepsMemory i s r.2) (prDec t) :=
  (sourceHere_keepsMemory h).bind fun _ _ => pixCap_keepsMemory h (h.setPix writes _)

end

section
variable {i : Instr} (s : State)

theorem keepsMemory_keptByEncoding (writes : writesBs i = true) :
    KeptByEncoding (RaisedKeepsMemory i s) (KeepsMemory i s) where
  start _ h := h.setWriter writes _
  encode _ sym _ h := aeEncode_keepsMemory h writes sym
  update _ _ h := h
  finish _ h := aeFinish_keepsMemory h writes

theorem keepsMemory_keptByDecoding (writes : writesRes i = true) :
    KeptByDecoding (RaisedKeepsMemory i s) (KeepsMemory i s) where
  start _ h := h.setRes writes _
  decode _ h := adDecode_keepsMemory h
  update _ _ h := h
  append _ bytes h := appendRes_keepsMemory h writes bytes
  tooLong _ h := ⟨h, nofun⟩

theorem keepsMemory_keptByForward (writes : writesRes i = true) :
    KeptByForward (RaisedKeepsMemory i s) (KeepsMemory i s) where
  unknown _ h := ⟨h, nofun⟩
  start _ h := h.setRes writes _
  pixel _ h := prEnc_keepsMemory h writes

theorem keepsMemory_keptByInverse (writes : writesPix i = true) :
    KeptByInverse (RaisedKeepsMemory i s) (KeepsMemory i s) where
  unknown _ h := ⟨h, nofun⟩
  wrongLength _ h := ⟨h, nofun⟩
  start _ h := h
  pixel _ h := prDec_keepsMemory h writes

end

/-! ## The commands -/

theorem command_keepsMemory {i : Instr} {p : State → Proc State} {s t : State} (e : command i p s = .next t)
    (run : EndsKeepingMemory i s (p s)) : KeepsMemory i s t :=
  command_ends e (keepsMemory_refl i s) (fun _ hr => keepsMemory_raise hr _)
    (fun r => ⟨keepsMemory_refl i s, fun _ => by cases r <;> nofun⟩) fun _ => run

/-- A command that first makes a test of its own, whose failure is no CAPACITY. -/
theorem tested_keepsMemory {i : Instr} {s : State} {test : Bool} {c : Cause} {k : Unit → Proc State}
    (other : c ≠ .capacity) (run : EndsKeepingMemory i s (k ())) : EndsKeepingMemory i s (need test c s >>= k) :=
  ends_need_bind (fun _ => ⟨keepsMemory_refl i s, fun _ => other⟩) fun _ => run

/-- Every command keeps the memory it does not write, in every state (20_memory.md R48, R49). -/
theorem exec_keepsMemory {i : Instr} {s t : State} (e : exec i s = .next t) : KeepsMemory i s t := by
  have h := keepsMemory_refl i s
  unfold exec at e
  cases i with
  | nop | csrRd => cases e; exact h
  | reset => cases e; exact keepsMemory_reset s
  | csrWr | smInit | smUpdate | aeInit | adInit | adFinished | brInit | brGet | prInit =>
    exact command_keepsMemory e h
  | smRange sym => exact command_keepsMemory e ((smRange_keepsMemory h _).bind fun _ _ => h)
  | smFind v => exact command_keepsMemory e (tested_keepsMemory nofun h)
  | aeEncode sym => exact command_keepsMemory e (tested_keepsMemory nofun (aeEncode_keepsMemory h rfl _))
  | aeFinish => exact command_keepsMemory e (tested_keepsMemory nofun (aeFinish_keepsMemory h rfl))
  | adDecode =>
    exact command_keepsMemory e (tested_keepsMemory nofun ((adDecode_keepsMemory h).bind fun _ hr => hr))
  | bwInit => exact command_keepsMemory e (h.setWriter rfl _)
  | bwPut | bwFinish => exact command_keepsMemory e (commitWriter_keepsMemory h rfl _)
  | prPredict =>
    exact command_keepsMemory e (tested_keepsMemory nofun ((prPredict_keepsMemory h).bind fun _ _ => h))
  | prEnc => exact command_keepsMemory e (tested_keepsMemory nofun ((prEnc_keepsMemory h rfl).bind fun _ hr => hr))
  | prDec => exact command_keepsMemory e (tested_keepsMemory nofun ((prDec_keepsMemory h rfl).bind fun _ hr => hr))
  | prFwd => exact command_keepsMemory e ((keepsMemory_keptByForward s rfl).prForward h)
  | prInv => exact command_keepsMemory e ((keepsMemory_keptByInverse s rfl).prInverse h)
  | resClr => exact command_keepsMemory e (h.setRes rfl _)
  | resPush b => exact command_keepsMemory e (appendRes_keepsMemory h rfl _)
  | encBytes => exact command_keepsMemory e (((keepsMemory_keptByEncoding s rfl).encBytes h).map fun _ ht => ht)
  | decBytes limit =>
    exact command_keepsMemory e (((keepsMemory_keptByDecoding s rfl).decBytes _ h).map fun _ ht => ht)
  | encGrid =>
    exact command_keepsMemory e
      (((keepsMemory_keptByForward s rfl).encGrid (keepsMemory_keptByEncoding s rfl) h).map fun _ ht => ht)
  | decGrid =>
    exact command_keepsMemory e
      (((keepsMemory_keptByInverse s rfl).decGrid (keepsMemory_keptByDecoding s rfl) h).map fun _ ht => ht)

/-- Settles O18: the frame of the relation that every command keeps. -/
theorem buffersWrittenAsTabled : Obligations.BuffersWrittenAsTabled := by
  intro i s t e
  obtain ⟨pix, res, bs, host, caps, -⟩ := exec_keepsMemory e
  exact ⟨pix, res, bs, host, caps⟩

/-- Settles O12: a fault taken by the command has given the fault record another content, and with unbounded buffers
that is not of cause CAPACITY. -/
theorem unboundedBuffersNeverOverflow : Obligations.UnboundedBuffersNeverOverflow := by
  intro i s t u clear e faulted
  obtain ⟨-, -, -, -, -, record⟩ := exec_keepsMemory e
  refine (record u).resolve_left fun same => ?_
  rw [same, clear] at faulted
  cases faulted

/-! ## The host's moves (20_memory.md R51) -/

@[simp] theorem hostMove_true (s : State) : hostMove true s = .next s := rfl
@[simp] theorem hostMove_false (s : State) : hostMove false s = .refused .hostBeyondCapacity := rfl

section
variable {s : State} {rest : List HostAction} {bytes : List Byte}

theorem step_idle (h : s.host = []) : step s = .next s := by simp [step, h, idle]

theorem step_loadRes (h : s.host = .loadRes bytes :: rest) :
    step s = hostMove (fits s.caps.resCap bytes.length) ((s.setHost rest).setRes ⟨bytes, s.res.rcur⟩) := by
  simp [step, h, hostLoadRes]

theorem step_loadBs (h : s.host = .loadBs bytes :: rest) :
    step s = hostMove (fits s.caps.bsCap bytes.length) ((s.setHost rest).setBs bytes) := by
  simp [step, h, hostLoadBs]

theorem step_storePix {a : Nat} (h : s.host = .storePix a bytes :: rest) :
    step s = hostMove (bytes.isEmpty || fits s.caps.pixCap (a + bytes.length))
      ((s.setHost rest).setPix (s.pix.writeBytes a bytes)) := by
  simp [step, h, hostStorePix]

end

/-- A read after consecutive writes: inside them the byte written, outside what was there (20_memory.md R40). -/
theorem read_writeBytes {m : Memory} (wf : m.wf) (a b : Nat) (bytes : List Byte) :
    (m.writeBytes a bytes).read b = if a ≤ b ∧ b < a + bytes.length then bytes.getD (b - a) 0#8 else m.read b := by
  split
  next inside =>
    have written := read_writeBytes_inside wf a (b - a) bytes (by omega)
    rwa [Nat.add_sub_cancel' inside.1] at written
  next outside => exact read_writeBytes_other m a b bytes (by omega)

/-- Settles O19: each move is made or refused by its own test, and a write to PIX reads back byte by byte. -/
theorem hostMovesReachBuffers : Obligations.HostMovesReachBuffers := by
  intro s rest bytes a
  refine ⟨fun h fit => ?_, fun h full => ?_, fun h fit => ?_, fun h full => ?_, fun h wf fit => ?_,
    fun h nonempty full => ?_, step_idle⟩
  · rw [step_loadRes h, fit, hostMove_true]
  · rw [step_loadRes h, full, hostMove_false]
  · rw [step_loadBs h, fit, hostMove_true]
  · rw [step_loadBs h, full, hostMove_false]
  · have made : (bytes.isEmpty || fits s.caps.pixCap (a + bytes.length)) = true := by simpa using fit
    exact ⟨s.pix.writeBytes a bytes, by rw [step_storePix h, made, hostMove_true], wf_writeBytes wf a bytes,
      fun b => read_writeBytes wf a b bytes⟩
  · have refused : (bytes.isEmpty || fits s.caps.pixCap (a + bytes.length)) = false := by simp [nonempty, full]
    rw [step_storePix h, refused, hostMove_false]

end Sys2Proof.Machine

/-! PROOFS. The encoding: a word is the packing of a command or illegal, and the decoder tells which (30_encoding.md R60 to
R64); and the step in which the host gives a word. -/

namespace Sys2Proof.Machine

/-! ## The decoder on the word of a command (30_encoding.md R61) -/

@[simp] theorem opField_encode (i : Instr) : opField (encode i) = i.opcode := opField_packWord _ _ _
@[simp] theorem idxField_encode (i : Instr) : idxField (encode i) = i.idxOperand := idxField_packWord _ _ _
@[simp] theorem rsvField_encode (i : Instr) : rsvField (encode i) = 0#16 := rsvField_packWord _ _ _
@[simp] theorem immField_encode (i : Instr) : immField (encode i) = i.immOperand := immField_packWord _ _ _

/-- The decoder on the word of a command: `rsv` is 0, and the row of its operation code reads the two other fields. -/
theorem decode_encode_of_row {i : Instr} {form : Form} (row : lookupOp i.opcode = some form) :
    decode (encode i) = assemble form i.idxOperand i.immOperand := by
  simp [decode, row]

/-- Whether or not the operands are legal, the word of a command leads back to that command, and its defects alone decide
on it. -/
theorem decode_encode (i : Instr) : decode (encode i) = checked i := by
  cases i with
  | csrRd r | csrWr r v => rw [decode_encode_of_row rfl, Instr.idxOperand, assemble, ofNumber_number]; rfl
  | _ => rw [decode_encode_of_row rfl]; rfl

/-- Settles O1: the decoder checks the command itself, and finds no defect. -/
theorem decodeOfEncodeIsIdentity : Obligations.DecodeOfEncodeIsIdentity := by
  intro i wf
  rw [decode_encode]
  exact checked_ok.mpr ⟨rfl, wf⟩

/-! ## Every word is the word of a command or illegal (30_encoding.md R63, R64) -/

/-- The commands of a row of the opcode map are encoded under its operation code, which stands in the list of its form. -/
def RowAgrees (op : BitVec 8) : Form → Prop
  | .plain i => op ∈ plainOps ∧ encode i = packWord op 0#8 0#32
  | .imm f => op ∈ immOps ∧ ∀ v, encode (f v) = packWord op 0#8 v
  | .csrRd => op = 0x02#8 ∧ ∀ r, encode (.csrRd r) = packWord op r.number 0#32
  | .csrWr => op = 0x03#8 ∧ ∀ r v, encode (.csrWr r v) = packWord op r.number v

theorem opTable_agrees : ∀ row ∈ opTable, RowAgrees row.1 row.2 := by
  intro row mem
  fin_cases mem <;> exact ⟨by decide, by intros; rfl⟩

theorem rowAgrees_of_lookupOp {op : BitVec 8} {form : Form} (row : lookupOp op = some form) : RowAgrees op form := by
  obtain ⟨⟨code, _⟩, found, rfl⟩ := Option.map_eq_some_iff.mp row
  obtain rfl : code = op := by simpa using List.find?_some found
  exact opTable_agrees _ (List.mem_of_find?_eq_some found)

/-- An operation code without a row is in none of the lists of 30_encoding.md R63. -/
theorem notMem_ops_of_lookupOp {op : BitVec 8} (reserved : lookupOp op = none) :
    op ∉ plainOps ++ immOps ++ [0x02#8, 0x03#8] := by
  intro mem
  have listed : ∀ code ∈ plainOps ++ immOps ++ [0x02#8, 0x03#8], (lookupOp code).isSome := by decide
  simpa [reserved] using listed op mem

/-- A number names its register, or is not in the table of 10_state.md R20. -/
theorem ofNumber_cases (n : BitVec 8) :
    (∃ r : Csr, r.number = n) ∨ (n ∉ allCsrs ∧ Csr.ofNumber n = none) := by
  have named : ∀ m ∈ allCsrs, (Csr.ofNumber m).isSome := by decide
  cases h : Csr.ofNumber n with
  | some r => exact .inl ⟨r, number_of_ofNumber h⟩
  | none => exact .inr ⟨fun mem => by simpa [h] using named n mem, rfl⟩

/-- A row rejects the operand fields that none of its commands has, and 30_encoding.md R64 calls the word illegal. -/
theorem encode_or_assemble_illegal {op : BitVec 8} {form : Form} (agrees : RowAgrees op form) (idx : BitVec 8) (imm : Imm) :
    (∃ i, encode i = packWord op idx imm) ∨
    (IllegalWord (packWord op idx imm) ∧ ∃ r, assemble form idx imm = .error r ∧ rejectCause r = .illegalCommand) := by
  cases form with
  | plain i =>
    obtain ⟨listed, word⟩ := agrees
    by_cases idx0 : idx = 0#8
    case neg => exact .inr ⟨by simp [IllegalWord, listed, idx0], .unusedIdx, by simp [assemble, idx0], rfl⟩
    by_cases imm0 : imm = 0#32
    case neg => exact .inr ⟨by simp [IllegalWord, listed, imm0], .unusedImm, by simp [assemble, idx0, imm0], rfl⟩
    exact .inl ⟨i, by rw [word, idx0, imm0]⟩
  | imm f =>
    obtain ⟨listed, word⟩ := agrees
    by_cases idx0 : idx = 0#8
    case neg => exact .inr ⟨by simp [IllegalWord, listed, idx0], .unusedIdx, by simp [assemble, idx0], rfl⟩
    exact .inl ⟨f imm, by rw [word, idx0]⟩
  | csrRd =>
    obtain ⟨code, word⟩ := agrees
    rcases ofNumber_cases idx with ⟨r, rfl⟩ | ⟨unlisted, unnamed⟩
    case inr => exact .inr ⟨by simp [IllegalWord, code, unlisted], .unknownCsr, by simp [assemble, unnamed], rfl⟩
    by_cases imm0 : imm = 0#32
    case neg => exact .inr ⟨by simp [IllegalWord, code, imm0], .unusedImm, by simp [assemble, imm0], rfl⟩
    exact .inl ⟨.csrRd r, by rw [word, imm0]⟩
  | csrWr =>
    obtain ⟨code, word⟩ := agrees
    rcases ofNumber_cases idx with ⟨r, rfl⟩ | ⟨unlisted, unnamed⟩
    case inr => exact .inr ⟨by simp [IllegalWord, code, unlisted], .unknownCsr, by simp [assemble, unnamed], rfl⟩
    exact .inl ⟨.csrWr r imm, word r imm⟩

/-- Every word is the word of a command, or is illegal and rejected as such. -/
theorem encode_or_illegal (w : Word) :
    (∃ i, encode i = w) ∨ (IllegalWord w ∧ ∃ r, decode w = .error r ∧ rejectCause r = .illegalCommand) := by
  cases row : lookupOp (opField w) with
  | none => exact .inr ⟨.inl (notMem_ops_of_lookupOp row), .reservedOp, by simp [decode, row], rfl⟩
  | some form =>
    by_cases rsv : rsvField w = 0#16
    case neg => exact .inr ⟨.inr (.inl rsv), .nonzeroRsv, by simp [decode, row, rsv], rfl⟩
    have sorted := encode_or_assemble_illegal (rowAgrees_of_lookupOp row) (idxField w) (immField w)
    have decoded : decode w = assemble form (idxField w) (immField w) := by simp [decode, row, rsv]
    rwa [packWord_fields rsv, ← decoded] at sorted

/-- Settles O2: an accepted word is the word of some command, which the decoder gives back only if well formed. -/
theorem encodeOfDecodeIsIdentity : Obligations.EncodeOfDecodeIsIdentity := by
  intro w i accepted
  rcases encode_or_illegal w with ⟨j, rfl⟩ | ⟨-, r, rejected, -⟩
  · rw [decode_encode] at accepted
    obtain ⟨rfl, wf⟩ := checked_ok.mp accepted
    exact ⟨wf, rfl⟩
  · rw [rejected] at accepted
    cases accepted

/-! ## The two defects of a command, as the lists of 30_encoding.md R62 and R64 have them -/

theorem number_mem_allCsrs (r : Csr) : r.number ∈ allCsrs := by cases r <;> decide

theorem number_mem_readOnlyCsrs (r : Csr) : r.number ∈ readOnlyCsrs ↔ r.writable = false := by cases r <;> decide

/-- The range of all 32 bits has every immediate. -/
theorem imm_le (v : Imm) : v.toNat ≤ 4294967295 := by omega

theorem aboveRange_ne_readOnlyCsr (v : Imm) (limit : Nat) : aboveRange v limit ≠ some .readOnlyCsr := by
  intro h
  obtain ⟨-, ⟨⟩⟩ := aboveRange_some.mp h

theorem aboveRange_eq_operandAboveRange {v : Imm} {limit : Nat} :
    aboveRange v limit = some .operandAboveRange ↔ limit < v.toNat := by simp [aboveRange_some]

theorem aboveRange_cases (v : Imm) (limit : Nat) :
    aboveRange v limit = none ∨ aboveRange v limit = some .operandAboveRange := by
  unfold aboveRange
  split <;> simp

/-- The defects a command can have. -/
theorem defect_cases (i : Instr) :
    i.defect = none ∨ i.defect = some .readOnlyCsr ∨ i.defect = some .operandAboveRange := by
  cases i with
  | csrWr r v =>
    cases writable : r.writable with
    | true => simpa [Instr.defect, writable] using (aboveRange_cases v r.writeLimit).imp_right .inr
    | false => simp [Instr.defect, writable]
  | smRange v | smFind v | smUpdate v | aeEncode v | bwPut v | resPush v | decBytes v =>
    exact (aboveRange_cases v _).imp_right .inr
  | _ => exact .inl rfl

/-- A command's word is illegal only for a `CSR.WR` of a read-only register (30_encoding.md R64). -/
theorem illegalWord_encode (i : Instr) : IllegalWord (encode i) ↔ i.defect = some .readOnlyCsr := by
  cases i with
  | csrRd r =>
    simp [IllegalWord, Instr.opcode, Instr.idxOperand, Instr.immOperand, plainOps, immOps, number_mem_allCsrs,
      Instr.defect]
  | csrWr r v =>
    cases writable : r.writable <;>
      simp [IllegalWord, Instr.opcode, Instr.idxOperand, Instr.immOperand, plainOps, immOps, number_mem_allCsrs,
        number_mem_readOnlyCsrs, writable, Instr.defect, aboveRange_ne_readOnlyCsr]
  | _ =>
    simp [IllegalWord, Instr.opcode, Instr.idxOperand, Instr.immOperand, plainOps, immOps, Instr.defect,
      aboveRange_ne_readOnlyCsr]

/-- A write is above its range in `PRED` alone (30_encoding.md R62). -/
theorem csrWr_operandAboveRange (r : Csr) (v : Imm) :
    (Instr.csrWr r v).defect = some .operandAboveRange ↔ r.number = 0x02#8 ∧ 65535 < v.toNat := by
  cases r with
  | pred => exact aboveRange_eq_operandAboveRange.trans (by simp [Csr.number, Csr.writeLimit])
  | width | height =>
    simp [Instr.defect, Csr.writable, Csr.writeLimit, Csr.number, aboveRange_eq_operandAboveRange, imm_le]
  | _ => simp [Instr.defect, Csr.writable, Csr.number]

/-- A command's word has an immediate above the range of 30_encoding.md R62 exactly when the command has. -/
theorem operandTooLarge_encode (i : Instr) : OperandTooLarge (encode i) ↔ i.defect = some .operandAboveRange := by
  cases i with
  | csrWr r v =>
    rw [csrWr_operandAboveRange]
    simp [OperandTooLarge, Instr.opcode, Instr.idxOperand, Instr.immOperand]
  | smFind v | decBytes v =>
    simp [OperandTooLarge, Instr.opcode, Instr.defect, aboveRange_eq_operandAboveRange, imm_le]
  | _ =>
    simp [OperandTooLarge, Instr.opcode, Instr.immOperand, Instr.defect, Config.eos,
      aboveRange_eq_operandAboveRange]

/-- Settles O3: a word that is no command's is illegal; any other is sorted by the defect of its command. -/
theorem decoderSortsEveryWord : Obligations.DecoderSortsEveryWord := by
  intro w
  rcases encode_or_illegal w with ⟨i, rfl⟩ | ⟨illegal, rejected⟩
  · rw [decode_encode, illegalWord_encode, operandTooLarge_encode, checked]
    rcases defect_cases i with d | d | d <;> simp [d, rejectCause]
  · exact ⟨fun _ => rejected, fun legal => absurd illegal legal, fun legal => absurd illegal legal⟩

/-- Settles O4: each word is the word of its command, and each command is well formed. -/
theorem specWordsDecode : Obligations.SpecWordsDecode := by
  have ok : ∀ i : Instr, i.WellFormed → decode (encode i) = .ok i := decodeOfEncodeIsIdentity
  exact ⟨ok (.aeEncode 256#32) rfl, ok (.csrWr .width 640#32) rfl, ok (.csrWr .pred 1#32) rfl, ok (.csrRd .aeHigh) rfl,
    ok (.decBytes 16#32) rfl, ok (.resPush 0x41#32) rfl, ok (.bwPut 1#32) rfl, ok .prDec rfl, ok .decGrid rfl⟩

/-! ## The step in which the host gives a word -/

section
variable {s : State} {w : Word} {rest : List HostAction}

theorem step_command (h : s.host = .command w :: rest) : step s = issue w (s.setHost rest) := by simp [step, h]

theorem issue_accepted {i : Instr} (h : decode w = .ok i) : issue w s = exec i s := by simp [issue, h]

/-- A rejected word outside the fault state takes the fault of its cause (60_exceptions.md R244). -/
theorem issue_rejected {r : Reject} (h : decode w = .error r) (clear : s.flt.fault = false) :
    issue w s = .next (s.faulted (rejectCause r).code w) := by
  simp [issue, h, rejectWord, raise_clear clear]

end

/-- The two causes of a rejection by their codes (30_encoding.md R61, 60_exceptions.md R241). -/
theorem rejectCause_code (r : Reject) : (rejectCause r).code = if r = .operandAboveRange then 2#8 else 1#8 := by
  cases r <;> rfl

/-- Settles O5. -/
theorem stepRunsDecodedCommand : Obligations.StepRunsDecodedCommand := fun _ _ _ _ next accepted =>
  (step_command next).trans (issue_accepted accepted)

/-- Settles O6: taking the move off the host's list leaves `FAULT` clear, so the rejection is recorded. -/
theorem stepFaultsOnRejectedWord : Obligations.StepFaultsOnRejectedWord := by
  intro s w rest r next rejected clear
  rw [step_command next, issue_rejected (s := s.setHost rest) rejected clear, rejectCause_code]

end Sys2Proof.Machine

/-! PROOFS. The symbol model's commands (40_symbol_model.md R97 to R100): what each does on the counts, and the
refusal of a total above MAX_TOTAL by `SM.RANGE`, `AE.ENCODE` and `AD.DECODE`. -/

namespace Sys2Proof.Machine

/-! ## Cumulative sums (R91, R94) -/

/-- With every count 1 the first `k` of them sum to `k` (40_symbol_model.md R92). -/
theorem cum_replicate_one {n k : Nat} (le : k ≤ n) : cum (List.replicate n 1) k = k := by
  simp [cum, List.take_replicate, le]

/-- The slices of two symbols do not overlap, whatever the counts (40_symbol_model.md R94). -/
theorem eq_of_mem_slices {freq : List Nat} {v j k : Nat} (aboveJ : cum freq j ≤ v) (belowJ : v < cum freq (j + 1))
    (aboveK : cum freq k ≤ v) (belowK : v < cum freq (k + 1)) : j = k := by
  rcases Nat.lt_trichotomy j k with lt | eq | gt
  · have := cum_mono freq (show j + 1 ≤ k from lt)
    omega
  · exact eq
  · have := cum_mono freq (show k + 1 ≤ j from gt)
    omega

/-! ## The counts after an update (R96) -/

/-- One count after 1 is added to that of `sym`. -/
theorem getD_modify_succ (freq : List Nat) (sym : Nat) {j : Nat} (h : j < freq.length) :
    (freq.modify sym (· + 1)).getD j 0 = freq.getD j 0 + if j = sym then 1 else 0 := by
  rw [List.getD_eq_getElem _ _ (by simpa using h), List.getD_eq_getElem _ _ h, List.getElem_modify]
  by_cases same : sym = j
  · simp [same]
  · simp [same, Ne.symm same]

/-- One count after all are halved. -/
theorem getD_map_halveCount {freq : List Nat} {j : Nat} (h : j < freq.length) :
    (freq.map halveCount).getD j 0 = max 1 (freq.getD j 0 / 2) := by
  rw [List.getD_eq_getElem _ _ (by simpa using h), List.getD_eq_getElem _ _ h, List.getElem_map, halveCount]

/-- One count after an update with a symbol of the alphabet: the threshold is compared with the total that has the
increment already (40_symbol_model.md R96). -/
theorem getD_updateCounts {freq : List Nat} (len : freq.length = 257) {sym j : Nat} (le : sym ≤ 256) (h : j < 257)
    (threshold : Nat) :
    (updateCounts threshold freq sym).getD j 0 =
      if threshold < freq.sum + 1 then max 1 ((freq.getD j 0 + if j = sym then 1 else 0) / 2)
      else freq.getD j 0 + if j = sym then 1 else 0 := by
  have raisedLen : (freq.modify sym (· + 1)).length = 257 := by simpa using len
  have raisedTotal : total (freq.modify sym (· + 1)) = freq.sum + 1 := by
    rw [total_eq_sum raisedLen, sum_modify freq (by omega)]
  have raised := getD_modify_succ freq sym (len ▸ h)
  simp only [updateCounts, raisedTotal]
  split
  · rw [getD_map_halveCount (raisedLen ▸ h), raised]
  · exact raised

/-! ## A total in range, and one above MAX_TOTAL (R93) -/

section
variable {s : State}

theorem smRange_ok (small : total s.freq ≤ 65535) (sym : Nat) : smRange sym s = .ok (sliceOf s.freq sym) := by
  rcases smRange_cases sym s with ⟨-, ok⟩ | ⟨overfull, -⟩
  · exact ok
  · omega

theorem smRange_overfull (overfull : 65535 < total s.freq) (sym : Nat) :
    smRange sym s = .error ⟨.modelInvariantViolation, s⟩ := by
  rcases smRange_cases sym s with ⟨small, -⟩ | ⟨-, raised⟩
  · omega
  · exact raised

/-- `ae_encode` asks `sm_range` first, and so passes its raise on (41_arith_encoder.md R114). -/
theorem aeEncode_overfull (overfull : 65535 < total s.freq) (sym : Nat) :
    aeEncode sym s = .error ⟨.modelInvariantViolation, s⟩ := by
  rw [aeEncode, smRange_overfull overfull, error_bind]

theorem adDecode_overfull (overfull : 65535 < total s.freq) : adDecode s = .error ⟨.modelInvariantViolation, s⟩ := by
  rcases adDecode_cases s with ⟨-, raised⟩ | ⟨small, -⟩
  · exact raised
  · omega

end

/-! ## The commands (R97 to R100)

A symbol above 256 is a defect of the command; with a symbol of the alphabet, the command is its procedure. -/

/-- Every immediate is a legal operand of `SM.FIND`; what the command tests is the total (40_symbol_model.md R99). -/
theorem smFind_wellFormed (v : Imm) : (Instr.smFind v).WellFormed := aboveRange_none.2 (imm_le v)

section
variable {s : State} (clear : s.flt.fault = false)
include clear

/-- A command whose procedure answers a state ends in that state. -/
theorem command_completes {i : Instr} (wf : i.WellFormed) {p : State → Proc State} {t : State} (e : p s = .ok t) :
    command i p s = .next t := by
  rw [command_runs clear wf, e, conclude_ok]

/-- A command whose procedure raises before it changes anything takes the fault in the state it was given
(60_exceptions.md R244). -/
theorem command_raises {i : Instr} (wf : i.WellFormed) {p : State → Proc State} {c : Cause} (e : p s = .error ⟨c, s⟩) :
    command i p s = .next (s.faulted c.code (encode i)) := by
  rw [command_runs clear wf, e, conclude_error, raise_clear clear]

theorem exec_smInit : exec .smInit s = .next (s.setFreq freshCounts) := by
  rw [exec, execSmInit]
  exact command_completes clear rfl rfl

theorem exec_smRange {sym : Imm} (le : sym.toNat ≤ 256) (small : total s.freq ≤ 65535) :
    exec (.smRange sym) s = .next (s.setX ⟨BitVec.ofNat 64 (cum s.freq sym.toNat),
      BitVec.ofNat 64 (cum s.freq (sym.toNat + 1)), BitVec.ofNat 64 (total s.freq)⟩) := by
  rw [exec, execSmRange]
  exact command_completes (i := .smRange sym) clear (aboveRange_none.2 le) (by rw [smRange_ok small, ok_bind, sliceOf])

theorem exec_smRange_operand {sym : Imm} (gt : 256 < sym.toNat) :
    exec (.smRange sym) s = .next (s.faulted 2#8 (encode (.smRange sym))) := by
  rw [exec, execSmRange]
  exact command_defect (i := .smRange sym) clear (aboveRange_some.2 ⟨gt, rfl⟩) _

theorem exec_smRange_overfull {sym : Imm} (le : sym.toNat ≤ 256) (overfull : 65535 < total s.freq) :
    exec (.smRange sym) s = .next (s.faulted 7#8 (encode (.smRange sym))) := by
  rw [exec, execSmRange]
  exact command_raises (i := .smRange sym) clear (aboveRange_none.2 le) (c := .modelInvariantViolation)
    (by rw [smRange_overfull overfull, error_bind])

theorem exec_smFind {v : Imm} (lt : v.toNat < total s.freq) :
    exec (.smFind v) s = .next (s.setX0 (BitVec.ofNat 64 (findSymbol s.freq v.toNat))) := by
  rw [exec, execSmFind]
  exact command_completes clear (smFind_wellFormed v) (by rw [decide_eq_true lt, need_true_bind])

theorem exec_smFind_operand {v : Imm} (ge : total s.freq ≤ v.toNat) :
    exec (.smFind v) s = .next (s.faulted 2#8 (encode (.smFind v))) := by
  rw [exec, execSmFind]
  exact command_raises clear (smFind_wellFormed v) (c := .illegalOperand)
    (by rw [decide_eq_false (Nat.not_lt.2 ge), need_false_bind])

theorem exec_smUpdate {sym : Imm} (le : sym.toNat ≤ 256) :
    exec (.smUpdate sym) s = .next (s.setFreq (updateCounts Config.maxTotal s.freq sym.toNat)) := by
  rw [exec, execSmUpdate]
  exact command_completes (i := .smUpdate sym) clear (aboveRange_none.2 le) rfl

theorem exec_smUpdate_operand {sym : Imm} (gt : 256 < sym.toNat) :
    exec (.smUpdate sym) s = .next (s.faulted 2#8 (encode (.smUpdate sym))) := by
  rw [exec, execSmUpdate]
  exact command_defect (i := .smUpdate sym) clear (aboveRange_some.2 ⟨gt, rfl⟩) _

/-- The encoder's sequence test passes, and then the total is refused (41_arith_encoder.md R114, R121). -/
theorem exec_aeEncode_overfull {sym : Imm} (le : sym.toNat ≤ 256) (overfull : 65535 < total s.freq)
    (notDone : s.ae.done = false) : exec (.aeEncode sym) s = .next (s.faulted 7#8 (encode (.aeEncode sym))) := by
  rw [exec, execAeEncode]
  exact command_raises (i := .aeEncode sym) clear (aboveRange_none.2 le) (c := .modelInvariantViolation)
    (by rw [notDone, Bool.not_false, need_true_bind, aeEncode_overfull overfull])

/-- The decoder's sequence test passes, and then the total is refused (42_arith_decoder.md R138). -/
theorem exec_adDecode_overfull (overfull : 65535 < total s.freq) (primed : s.ad.primed = true)
    (notFinished : s.ad.finished = false) : exec .adDecode s = .next (s.faulted 7#8 (encode .adDecode)) := by
  rw [exec, execAdDecode]
  exact command_raises clear rfl (c := .modelInvariantViolation)
    (by rw [primed, notFinished, Bool.not_false, Bool.and_self, need_true_bind, adDecode_overfull overfull, error_bind])

end

/-! ## The statements -/

/-- Settles O25. -/
theorem smInitGivesFreshModel : Obligations.SmInitGivesFreshModel :=
  ⟨fun _ clear => exec_smInit clear, fun _ le => cum_replicate_one le⟩

/-- Settles O26: a model in order has a total in range, and non-empty slices within it. -/
theorem smRangeReturnsSlice : Obligations.SmRangeReturnsSlice := by
  intro s sym clear model
  refine ⟨fun le => ?_, exec_smRange_operand clear⟩
  have ⟨_, _, small⟩ := model
  exact ⟨exec_smRange clear le small, sliceOf_bounds model le⟩

/-- Settles O27: the scan's answer holds the value, and no other slice does. -/
theorem smFindInvertsRange : Obligations.SmFindInvertsRange := by
  intro s v clear model
  refine ⟨fun lt => ?_, exec_smFind_operand clear⟩
  obtain ⟨len, -, -⟩ := model
  obtain ⟨le, above, below⟩ := findSymbol_spec len lt
  exact ⟨findSymbol s.freq v.toNat, le, above, below,
    fun k _ aboveK belowK => eq_of_mem_slices aboveK belowK above below, exec_smFind clear lt⟩

/-- Settles O28: each count is read off the updated list, and a sound model stays sound by the
bound on the halved sum. -/
theorem smUpdateCountsAndRescales : Obligations.SmUpdateCountsAndRescales := by
  intro s sym clear len
  refine ⟨fun le => ?_, exec_smUpdate_operand clear⟩
  exact ⟨updateCounts Config.maxTotal s.freq sym.toNat, exec_smUpdate clear le, by rw [length_updateCounts, len],
    fun model => modelOk_updateCounts model sym.toNat, fun _ h => getD_updateCounts len le h Config.maxTotal⟩

/-- Settles O29: each of the three raises in the state it was given. -/
theorem overfullModelIsRefusedByCoders : Obligations.OverfullModelIsRefusedByCoders :=
  fun _ _ clear overfull le => ⟨exec_smRange_overfull clear le overfull, exec_aeEncode_overfull clear le overfull,
    exec_adDecode_overfull clear overfull⟩

end Sys2Proof.Machine


/-! PROOFS. The arithmetic encoder (41_arith_encoder.md R111 to R122): the bits the writer holds, the exact interval they
stand for together with the owed bits and the bounds, and the encoder's three commands. -/

namespace Sys2Proof.Machine

/-! ## The bits written (43_bitstream.md R152, R153) -/

section
variable {w : Writer} {b : Bool}

theorem getLsbD_shiftIn_zero (acc : Byte) (b : Bool) :
    ((acc <<< 1) ||| (BitVec.ofBool b).setWidth 8).getLsbD 0 = b := by simp

theorem getLsbD_shiftIn_succ (acc : Byte) (b : Bool) {i : Nat} (h : i + 1 < 8) :
    ((acc <<< 1) ||| (BitVec.ofBool b).setWidth 8).getLsbD (i + 1) = acc.getLsbD i := by
  have : i < 8 := by omega
  simp [h, BitVec.getLsbD_eq_getElem this]

/-- Bits before the end of BS do not depend on what is appended. -/
theorem streamBit_append_left {bs : List Byte} {k : Nat} (h : k < 8 * bs.length) (more : List Byte) :
    streamBit (bs ++ more) k = streamBit bs k := by
  simp only [streamBit]
  rw [List.getD_append _ _ _ _ (by omega)]

/-- The bits of an appended byte. -/
theorem streamBit_append_byte {bs : List Byte} (byte : Byte) {j : Nat} (h : j < 8) :
    streamBit (bs ++ [byte]) (8 * bs.length + j) = byte.getLsbD (7 - j) := by
  rw [streamBit, show (8 * bs.length + j) / 8 = bs.length by omega, show (8 * bs.length + j) % 8 = j by omega,
    List.getD_append_right _ _ _ _ (Nat.le_refl _)]
  simp

/-- The bits in BS are the stream's. -/
theorem writtenBit_of_lt {k : Nat} (h : k < 8 * w.bs.length) : writtenBit w k = streamBit w.bs k := by
  simp [writtenBit, h]

/-- The bits after those in BS stand in `BW.acc`, the latest lowest. -/
theorem writtenBit_acc (w : Writer) (j : Nat) :
    writtenBit w (8 * w.bs.length + j) = w.acc.getLsbD (w.nbits.val - 1 - j) := by
  simp [writtenBit]

/-- After a put the byte being assembled, or just completed, holds the bits it held and the new one. -/
theorem writtenBit_put (w : Writer) (b : Bool) {j : Nat} (h : j ≤ w.nbits.val) :
    writtenBit (w.put b) (8 * w.bs.length + j) =
      ((w.acc <<< 1) ||| (BitVec.ofBool b).setWidth 8).getLsbD (w.nbits.val - j) := by
  have := w.nbits.isLt
  by_cases room : w.nbits.val + 1 < 8
  · rw [put_partial b room]
    exact writtenBit_acc ⟨_, ⟨w.nbits.val + 1, room⟩, w.bs⟩ j
  · rw [put_full b room, writtenBit_of_lt (by simp only [List.length_append, List.length_singleton]; omega),
      streamBit_append_byte _ (by omega), show w.nbits.val = 7 by omega]

/-- A put leaves the bits already written (41_arith_encoder.md R115). -/
theorem writtenBit_put_old {k : Nat} (h : k < bitCount w) : writtenBit (w.put b) k = writtenBit w k := by
  rcases Nat.lt_or_ge k (8 * w.bs.length) with inBs | inAcc
  · obtain ⟨more, grown⟩ := bs_prefix_put b w
    rw [writtenBit_of_lt inBs, writtenBit_of_lt (by rw [← grown, List.length_append]; omega), ← grown,
      streamBit_append_left inBs]
  · obtain ⟨j, rfl⟩ := Nat.exists_eq_add_of_le inAcc
    have held : j < w.nbits.val := by simpa [bitCount] using h
    have := w.nbits.isLt
    rw [writtenBit_put w b held.le, writtenBit_acc,
      show w.nbits.val - j = w.nbits.val - 1 - j + 1 by omega, getLsbD_shiftIn_succ _ _ (by omega)]

theorem writtenBit_put_new (w : Writer) (b : Bool) : writtenBit (w.put b) (bitCount w) = b := by
  rw [bitCount, writtenBit_put w b (Nat.le_refl _), Nat.sub_self, getLsbD_shiftIn_zero]

/-- A put writes its bit after the bits written so far (43_bitstream.md R152). -/
@[simp] theorem writtenBits_put (b : Bool) (w : Writer) : writtenBits (w.put b) = writtenBits w ++ [b] := by
  simp only [writtenBits, bitCount_put, List.range_succ, List.map_append, List.map_singleton, writtenBit_put_new]
  congr 1
  exact List.map_congr_left fun k h => writtenBit_put_old (List.mem_range.1 h)

@[simp] theorem writtenBits_putMany (n : Nat) (b : Bool) (w : Writer) :
    writtenBits (Writer.putMany n b w) = writtenBits w ++ List.replicate n b := by
  induction n generalizing w with
  | zero => simp
  | succ n ih => rw [putMany_succ, ih, writtenBits_put, List.append_assoc]; rfl

/-! ## The byte boundary -/

theorem nbits_put (b : Bool) (w : Writer) : (w.put b).nbits.val = (w.nbits.val + 1) % 8 := by
  have := w.nbits.isLt
  by_cases room : w.nbits.val + 1 < 8
  · rw [put_partial b room, Nat.mod_eq_of_lt room]
  · rw [put_full b room, show w.nbits.val + 1 = 8 by omega]
    rfl

theorem nbits_putMany (n : Nat) (b : Bool) (w : Writer) :
    (Writer.putMany n b w).nbits.val = (w.nbits.val + n) % 8 := by
  induction n generalizing w with
  | zero => exact (Nat.mod_eq_of_lt w.nbits.isLt).symm
  | succ n ih => rw [putMany_succ, ih, nbits_put]; omega

/-- A put that ends on a byte boundary leaves no bit in `BW.acc`. -/
theorem acc_put (h : (w.put b).nbits = 0) : (w.put b).acc = 0 := by
  by_cases room : w.nbits.val + 1 < 8
  · rw [put_partial b room] at h
    cases h
  · rw [put_full b room]

theorem acc_putMany {n : Nat} (cleared : w.nbits = 0 → w.acc = 0) (h : (Writer.putMany n b w).nbits = 0) :
    (Writer.putMany n b w).acc = 0 := by
  induction n generalizing w with
  | zero => exact cleared h
  | succ n ih => exact ih acc_put h

/-- The padding loop with turns enough writes zero bits up to the byte boundary (43_bitstream.md R153). -/
theorem padWithin_eq_putMany {n : Nat} (enough : w.nbits.val = 0 ∨ 8 ≤ n + w.nbits.val) :
    Writer.padWithin n w = Writer.putMany ((8 - w.nbits.val) % 8) false w := by
  have := w.nbits.isLt
  induction n generalizing w with
  | zero => rw [show w.nbits.val = 0 by omega]; rfl
  | succ n ih =>
    rw [Writer.padWithin]
    split
    next aligned => rw [aligned]; rfl
    next partly =>
      have held : w.nbits.val ≠ 0 := fun zero => partly (Fin.ext zero)
      have turn := nbits_put false w
      rw [ih (by omega) (w.put false).nbits.isLt, turn,
        show (8 - w.nbits.val) % 8 = (8 - (w.nbits.val + 1) % 8) % 8 + 1 by omega, putMany_succ]

theorem finish_eq_putMany (w : Writer) : w.finish = Writer.putMany ((8 - w.nbits.val) % 8) false w :=
  padWithin_eq_putMany (.inr (Nat.le_add_right 8 _))

/-- `bw_finish` ends on a byte boundary, with nothing left in BW if nothing was there without a bit count. -/
theorem finish_eq_bytes (cleared : w.nbits = 0 → w.acc = 0) : w.finish = ⟨0#8, 0, w.finish.bs⟩ := by
  have aligned : w.finish.nbits = 0 := by
    apply Fin.ext
    have := w.nbits.isLt
    rw [finish_eq_putMany, nbits_putMany, Fin.val_zero]
    omega
  have empty : w.finish.acc = 0 := by
    rw [finish_eq_putMany] at aligned ⊢
    exact acc_putMany cleared aligned
  rw [show (0#8 : Byte) = w.finish.acc from empty.symm, show (0 : Fin 8) = w.finish.nbits from aligned.symm]

end

/-! ## Putting a writer back (20_memory.md R49) -/

section
variable {w : Writer} {s : State}

theorem commitWriter_fitting (h : AppendsFit s.caps.bsCap s.bs.length w.bs.length) :
    commitWriter w s = .ok (s.setWriter w) := by
  rcases commitWriter_cases w s with ⟨-, ok⟩ | ⟨grown, full, -⟩
  · exact ok
  · rcases h with same | fit
    · exact absurd same grown
    · simp [full] at fit

theorem commitWriter_overflowing (h : ¬AppendsFit s.caps.bsCap s.bs.length w.bs.length) :
    commitWriter w s = .error ⟨.capacity, s⟩ := by
  rcases commitWriter_cases w s with ⟨fit, -⟩ | ⟨-, -, raised⟩
  · exact absurd fit h
  · exact raised

end

/-! ## The exact interval (41_arith_encoder.md R116 (c)) -/

/-- The bits written, `pending` owed bits and a point `x` of the 48-bit interval, as one number: `exactLow` is this of
`low`, `exactEnd` of `high + 1`. -/
def exactPoint (pending : Nat) (w : Writer) (x : Nat) : Nat :=
  bitsValue (writtenBits w) * 2 ^ (pending + 48) + (2 ^ pending - 1) * 2 ^ 47 + x

theorem exactLow_eq (e : Encoder) (w : Writer) : exactLow e w = exactPoint e.pending w e.low.toNat := rfl
theorem exactEnd_eq (e : Encoder) (w : Writer) : exactEnd e w = exactPoint e.pending w (e.high.toNat + 1) := by
  rw [exactEnd, exactPoint, Nat.add_assoc _ e.high.toNat]

/-- Moving the point moves the exact number as much. -/
theorem exactPoint_add (pending : Nat) (w : Writer) (x y : Nat) :
    exactPoint pending w (x + y) = exactPoint pending w x + y := (Nat.add_assoc _ _ _).symm

theorem bitsValue_append_bit (bits : List Bool) (b : Bool) : bitsValue (bits ++ [b]) = 2 * bitsValue bits + b.toNat := by
  simp [bitsValue, List.foldl_append]

/-- `n` equal bits at the end: `n` zeros scale the number, `n` ones the number one higher. -/
theorem bitsValue_append_replicate (bits : List Bool) (n : Nat) (b : Bool) :
    bitsValue (bits ++ List.replicate n b) + b.toNat = 2 ^ n * (bitsValue bits + b.toNat) := by
  induction n with
  | zero => simp
  | succ n ih =>
    rw [List.replicate_succ', ← List.append_assoc, bitsValue_append_bit, Nat.pow_succ]
    linarith

/-- `emit(b)` on the bits as a number: the complements are all ones exactly when `b` is 0 (41_arith_encoder.md R115). -/
theorem bitsValue_emitBit (b : Bool) (pending : Nat) (w : Writer) :
    bitsValue (writtenBits (emitBit b pending w)) + (!b).toNat = 2 ^ pending * (2 * bitsValue (writtenBits w) + 1) := by
  rw [emitBit, writtenBits_putMany, writtenBits_put, bitsValue_append_replicate, bitsValue_append_bit]
  cases b <;> rfl

/-- A top step doubles the exact number: the top bit of the point goes into the stream, and the owed bits with it. -/
theorem exactPoint_emitBit (b : Bool) (pending : Nat) (w : Writer) {x x' : Nat} (doubled : x' + 2 ^ 48 * b.toNat = 2 * x) :
    exactPoint 0 (emitBit b pending w) x' = 2 * exactPoint pending w x := by
  have bits := bitsValue_emitBit b pending w
  have complement : b.toNat + (!b).toNat = 1 := by cases b <;> rfl
  obtain ⟨m, scale⟩ := Nat.exists_eq_add_of_le' (Nat.one_le_two_pow (n := pending))
  rw [scale] at bits
  simp only [exactPoint, Nat.pow_add, scale, Nat.add_sub_cancel, pow_zero, Nat.sub_self]
  linarith

/-- An underflow step doubles it too: one bit more is owed (41_arith_encoder.md R113). -/
theorem exactPoint_underflow (pending : Nat) (w : Writer) {x x' : Nat} (doubled : x' + 2 ^ 47 = 2 * x) :
    exactPoint (pending + 1) w x' = 2 * exactPoint pending w x := by
  obtain ⟨m, scale⟩ := Nat.exists_eq_add_of_le' (Nat.one_le_two_pow (n := pending))
  have scale' : 2 ^ (pending + 1) = 2 * m + 1 + 1 := by rw [Nat.pow_succ, scale]; omega
  rw [exactPoint, exactPoint, Nat.pow_add _ (pending + 1) 48, Nat.pow_add _ pending 48, scale', scale,
    Nat.add_sub_cancel, Nat.add_sub_cancel]
  linarith

/-! ## Normalisation scales the exact interval (41_arith_encoder.md R113, R116) -/

/-- From the encoder `e` with the bits of `w` to `e'` with those of `w'`: `k` more bits are written or owed, those already
written stay, and the exact interval is the old one scaled by 2^k. -/
structure Scaled (k : Nat) (e : Encoder) (w : Writer) (e' : Encoder) (w' : Writer) : Prop where
  keepsBits : writtenBits w <+: writtenBits w'
  count : bitCount w' + e'.pending = bitCount w + e.pending + k
  low : exactLow e' w' = 2 ^ k * exactLow e w
  upTo : exactEnd e' w' = 2 ^ k * exactEnd e w

theorem Scaled.refl (e : Encoder) (w : Writer) : Scaled 0 e w e w := ⟨List.prefix_refl _, rfl, by simp, by simp⟩

theorem Scaled.trans {k j : Nat} {e e' e'' : Encoder} {w w' w'' : Writer} (first : Scaled k e w e' w')
    (next : Scaled j e' w' e'' w'') : Scaled (j + k) e w e'' w'' where
  keepsBits := first.keepsBits.trans next.keepsBits
  count := by rw [next.count, first.count]; omega
  low := by rw [next.low, first.low, Nat.pow_add, Nat.mul_assoc]
  upTo := by rw [next.upTo, first.upTo, Nat.pow_add, Nat.mul_assoc]

/-- A bound doubled within 48 bits has lost its top bit, and no other. -/
theorem toNat_double_add_top (v : Bound) :
    2 * v.toNat % 2 ^ 48 + 2 ^ 48 * (decide (2 ^ 47 ≤ v.toNat)).toNat = 2 * v.toNat := by
  have := v.isLt
  by_cases top : 2 ^ 47 ≤ v.toNat
  · rw [decide_eq_true top, Bool.toNat_true]
    omega
  · rw [decide_eq_false top, Bool.toNat_false]
    omega

theorem scaled_top {e : Encoder} {b : Bool} (h : e.toInterval.shift? = some (.top b)) (w : Writer) :
    Scaled 1 e w { e with toInterval := e.toInterval.shifted (.top b), pending := 0 } (emitBit b e.pending w) := by
  obtain ⟨lowTop, highTop⟩ := shift?_top h
  obtain ⟨low, high⟩ := shifted_top e.toInterval b
  refine ⟨?_, ?_, ?_, ?_⟩
  · simp [emitBit, List.append_assoc]
  · simp only [emitBit, bitCount_putMany, bitCount_put]
    omega
  · rw [pow_one, exactLow_eq, exactLow_eq]
    apply exactPoint_emitBit
    rw [low, lowTop]
    exact toNat_double_add_top e.low
  · rw [pow_one, exactEnd_eq, exactEnd_eq]
    apply exactPoint_emitBit
    have doubled := toNat_double_add_top e.high
    rw [high, highTop]
    omega

theorem scaled_underflow {e : Encoder} (le : e.low.toNat ≤ e.high.toNat) (h : e.toInterval.shift? = some .underflow)
    (w : Writer) :
    Scaled 1 e w { e with toInterval := e.toInterval.shifted .underflow, pending := e.pending + 1 } w := by
  obtain ⟨ltHalf, geQuarter, geHalf, ltThreeQuarters⟩ := shift?_underflow le h
  obtain ⟨low, high⟩ := shifted_underflow geQuarter ltHalf geHalf ltThreeQuarters
  refine ⟨List.prefix_refl _, rfl, ?_, ?_⟩
  · rw [pow_one, exactLow_eq, exactLow_eq]
    apply exactPoint_underflow
    rw [low]
    omega
  · rw [pow_one, exactEnd_eq, exactEnd_eq]
    apply exactPoint_underflow
    rw [high]
    omega

/-- The loop scales by one doubling per turn it takes. -/
theorem normalise_scaled (n : Nat) {e : Encoder} (w : Writer) (le : e.low.toNat ≤ e.high.toNat) :
    ∃ k ≤ n, Scaled k e w (normalise n e w).1 (normalise n e w).2 := by
  induction n generalizing e w with
  | zero => exact ⟨0, Nat.le_refl _, .refl e w⟩
  | succ n ih =>
    cases h : e.toInterval.shift? with
    | none => rw [normalise_stop w h]; exact ⟨0, Nat.zero_le _, .refl e w⟩
    | some step =>
      obtain ⟨le', -⟩ := shifted_width le h
      cases step with
      | top b =>
        rw [normalise_top w h]
        obtain ⟨k, few, rest⟩ := ih (e := { e with toInterval := e.toInterval.shifted (.top b), pending := 0 }) _ le'
        exact ⟨k + 1, Nat.succ_le_succ few, (scaled_top h w).trans rest⟩
      | underflow =>
        rw [normalise_underflow w h]
        obtain ⟨k, few, rest⟩ :=
          ih (e := { e with toInterval := e.toInterval.shifted .underflow, pending := e.pending + 1 }) _ le'
        exact ⟨k + 1, Nat.succ_le_succ few, (scaled_underflow le h w).trans rest⟩

/-! ## One symbol coded (R112 to R117) -/

/-- The encoder narrowed to the slice of `sym` (41_arith_encoder.md R112). -/
def narrowed (freq : List Nat) (sym : Nat) (e : Encoder) : Encoder :=
  { e with toInterval := e.toInterval.narrow (sliceOf freq sym) }

/-- The encoder and the writer after `ae_encode(sym)` (41_arith_encoder.md R112). -/
def coded (freq : List Nat) (sym : Nat) (e : Encoder) (w : Writer) : Encoder × Writer :=
  normalise shiftBound (narrowed freq sym e) w

/-- With a total in range `ae_encode` puts back what it coded, or raises for want of room (41_arith_encoder.md R112). -/
theorem aeEncode_eq {s : State} (small : total s.freq ≤ 65535) (sym : Nat) :
    aeEncode sym s = commitWriter (coded s.freq sym s.ae s.writer).2 s >>= fun t =>
      .ok (t.setAe (coded s.freq sym s.ae s.writer).1) := by
  rw [aeEncode, smRange_ok small, ok_bind]
  rfl

/-- Narrowing moves the exact ends to those of the slice within the old interval. -/
theorem narrowed_exact {freq : List Nat} {e : Encoder} {sym : Nat} (model : ModelOk freq) (ok : IntervalOk e.toInterval)
    (le : sym ≤ 256) (w : Writer) :
    (narrowed freq sym e).low.toNat ≤ (narrowed freq sym e).high.toNat ∧
    exactLow (narrowed freq sym e) w = exactLow e w + e.toInterval.range * cum freq sym / total freq ∧
    exactEnd (narrowed freq sym e) w = exactLow e w + e.toInterval.range * cum freq (sym + 1) / total freq := by
  have ⟨_, _, small⟩ := model
  obtain ⟨ordered, wide⟩ := ok.wide
  obtain ⟨nonempty, within⟩ := sliceOf_bounds model le
  obtain ⟨low, upTo, ordered'⟩ := narrow_bounds ordered nonempty within (small.trans wide.le)
  refine ⟨ordered', ?_, ?_⟩
  · rw [exactLow_eq, exactLow_eq, ← exactPoint_add]
    exact congrArg _ low
  · rw [exactEnd_eq, exactLow_eq, ← exactPoint_add]
    exact congrArg _ upTo

/-! ## The commands (R120 to R122) -/

section
variable {s : State} (clear : s.flt.fault = false)
include clear

theorem exec_aeInit : exec .aeInit s = .next (s.setAe Encoder.start) := by
  rw [exec, execAeInit]
  exact command_completes clear rfl rfl

theorem exec_aeEncode_fitting {sym : Imm} (le : sym.toNat ≤ 256) (small : total s.freq ≤ 65535)
    (notDone : s.ae.done = false)
    (fit : AppendsFit s.caps.bsCap s.bs.length (coded s.freq sym.toNat s.ae s.writer).2.bs.length) :
    exec (.aeEncode sym) s = .next ((s.setAe (coded s.freq sym.toNat s.ae s.writer).1).setWriter
      (coded s.freq sym.toNat s.ae s.writer).2) := by
  rw [exec, execAeEncode]
  refine command_completes (i := .aeEncode sym) clear (aboveRange_none.2 le) ?_
  rw [notDone, Bool.not_false, need_true_bind, aeEncode_eq small, commitWriter_fitting fit]
  rfl

theorem exec_aeEncode_overflowing {sym : Imm} (le : sym.toNat ≤ 256) (small : total s.freq ≤ 65535)
    (notDone : s.ae.done = false)
    (full : ¬AppendsFit s.caps.bsCap s.bs.length (coded s.freq sym.toNat s.ae s.writer).2.bs.length) :
    exec (.aeEncode sym) s = .next (s.faulted 10#8 (encode (.aeEncode sym))) := by
  rw [exec, execAeEncode]
  exact command_raises (i := .aeEncode sym) clear (aboveRange_none.2 le) (c := .capacity)
    (by rw [notDone, Bool.not_false, need_true_bind, aeEncode_eq small, commitWriter_overflowing full, error_bind])

theorem exec_aeEncode_done {sym : Imm} (le : sym.toNat ≤ 256) (done : s.ae.done = true) :
    exec (.aeEncode sym) s = .next (s.faulted 3#8 (encode (.aeEncode sym))) := by
  rw [exec, execAeEncode]
  exact command_raises (i := .aeEncode sym) clear (aboveRange_none.2 le) (c := .sequenceError)
    (by rw [done, Bool.not_true, need_false_bind])

theorem exec_aeEncode_operand {sym : Imm} (gt : 256 < sym.toNat) :
    exec (.aeEncode sym) s = .next (s.faulted 2#8 (encode (.aeEncode sym))) := by
  rw [exec, execAeEncode]
  exact command_defect (i := .aeEncode sym) clear (aboveRange_some.2 ⟨gt, rfl⟩) _

theorem exec_aeFinish_fitting (notDone : s.ae.done = false)
    (fit : AppendsFit s.caps.bsCap s.bs.length (finishBits s.ae s.writer).finish.bs.length) :
    exec .aeFinish s = .next ((s.setWriter (finishBits s.ae s.writer).finish).setAe
      (markDone { s.ae with pending := 0 })) := by
  rw [exec, execAeFinish]
  refine command_completes clear rfl ?_
  rw [notDone, Bool.not_false, need_true_bind, aeFinish, commitWriter_fitting fit]
  rfl

theorem exec_aeFinish_overflowing (notDone : s.ae.done = false)
    (full : ¬AppendsFit s.caps.bsCap s.bs.length (finishBits s.ae s.writer).finish.bs.length) :
    exec .aeFinish s = .next (s.faulted 10#8 (encode .aeFinish)) := by
  rw [exec, execAeFinish]
  exact command_raises clear rfl (c := .capacity)
    (by rw [notDone, Bool.not_false, need_true_bind, aeFinish, commitWriter_overflowing full, error_bind])

theorem exec_aeFinish_done (done : s.ae.done = true) : exec .aeFinish s = .next (s.faulted 3#8 (encode .aeFinish)) := by
  rw [exec, execAeFinish]
  exact command_raises clear rfl (c := .sequenceError) (by rw [done, Bool.not_true, need_false_bind])

/-- The decoder's sequence test fails (42_arith_decoder.md R138). -/
theorem exec_adDecode_sequence (h : s.ad.primed = false ∨ s.ad.finished = true) :
    exec .adDecode s = .next (s.faulted 3#8 (encode .adDecode)) := by
  have fails : (s.ad.primed && !s.ad.finished) = false := by
    rcases h with unprimed | finished
    · rw [unprimed, Bool.false_and]
    · rw [finished, Bool.not_true, Bool.and_false]
  rw [exec, execAdDecode]
  exact command_raises clear rfl (c := .sequenceError) (by rw [fails, need_false_bind])

end

/-! ## The bits of the finish (R119) -/

/-- The bits of the finish, in order: `b`, its complement `pending + 1` times, and the padding. -/
theorem writtenBits_aeFinish (e : Encoder) (w : Writer) :
    let b := decide (2 ^ 46 ≤ e.low.toNat)
    ∃ pad < 8, writtenBits (finishBits e w).finish =
      writtenBits w ++ [b] ++ List.replicate (e.pending + 1) (!b) ++ List.replicate pad false := by
  refine ⟨(8 - (finishBits e w).nbits.val) % 8, Nat.mod_lt _ (by omega), ?_⟩
  have quarter : Config.quarter.toNat = 2 ^ 46 := rfl
  rw [finish_eq_putMany, writtenBits_putMany, finishBits, quarter]
  simp [List.replicate_succ]

/-- The finish ends in whole bytes: its last bits before the padding are puts, so nothing is left in BW. -/
theorem aeFinish_bytes (e : Encoder) (w : Writer) :
    (finishBits e w).finish = ⟨0#8, 0, (finishBits e w).finish.bs⟩ :=
  finish_eq_bytes (acc_putMany acc_put)

/-- The finish always completes a byte: it writes at least the two bits `b` and its complement. -/
theorem length_aeFinish_ne (e : Encoder) (w : Writer) : (finishBits e w).finish.bs.length ≠ w.bs.length := by
  have count : bitCount (finishBits e w).finish = bitCount w + 2 + e.pending + (8 - (finishBits e w).nbits.val) % 8 := by
    rw [finish_eq_putMany, bitCount_putMany]
    simp only [finishBits, bitCount_putMany, bitCount_put]
  rw [aeFinish_bytes] at count
  simp only [bitCount, Fin.val_zero] at count
  omega

/-! ## The statements -/

/-- Settles O30. -/
theorem aeInitStartsFullInterval : Obligations.AeInitStartsFullInterval := fun _ clear => exec_aeInit clear

/-- Settles O31: narrowing moves the exact interval to the slice, and normalisation scales it. -/
theorem aeEncodeNarrowsExactly : Obligations.AeEncodeNarrowsExactly := by
  intro s sym clear model notDone ok le
  have ⟨_, _, small⟩ := model
  obtain ⟨ordered, low, upTo⟩ := narrowed_exact model ok le s.writer
  obtain ⟨k, few, scaled⟩ := normalise_scaled shiftBound s.writer ordered
  have stillOpen : (coded s.freq sym.toNat s.ae s.writer).1.done = false := by rw [coded, normalise_done]; exact notDone
  refine ⟨_, _, k, exec_aeEncode_fitting clear le small notDone, exec_aeEncode_overflowing clear le small notDone, few,
    stillOpen, encoderOk_normalise model (fun _ => ok) le s.writer stillOpen, scaled.keepsBits, scaled.count, ?_, ?_⟩
  · rw [coded, scaled.low, low]
    rfl
  · rw [coded, scaled.upTo, upTo]
    rfl

/-- Settles O32: the bytes are those of the finished writer, which has none of its bits outside BS. -/
theorem aeFinishWritesDisambiguatingBits : Obligations.AeFinishWritesDisambiguatingBits := by
  intro s clear notDone
  have bytes := aeFinish_bytes s.ae s.writer
  have grown := length_aeFinish_ne s.ae s.writer
  obtain ⟨pad, few, bits⟩ := writtenBits_aeFinish s.ae s.writer
  refine ⟨(finishBits s.ae s.writer).finish.bs, pad, fun fit => ?_, fun full => ?_, few, by rw [← bytes]; exact bits⟩
  · rw [exec_aeFinish_fitting clear notDone (.inr fit), bytes]
    rfl
  · exact exec_aeFinish_overflowing clear notDone fun fit => fit.elim grown fun fit => by simp [full] at fit

/-- Settles O33. -/
theorem codersOutOfSequence : Obligations.CodersOutOfSequence := fun _ _ clear =>
  ⟨fun done le => exec_aeEncode_done clear le done, exec_aeFinish_done clear, exec_aeEncode_operand clear,
    exec_adDecode_sequence clear⟩

end Sys2Proof.Machine

/-! PROOFS. `ENC.GRID` gives equal bytes for equal images (41_arith_encoder.md R123): two runs of each procedure, side by
side, from states that agree on what the procedure uses. -/

namespace Sys2Proof.Machine

/-! ## Two runs side by side -/

/-- If both procedures answer, `R` relates the answers. -/
def AnswersAlike {α : Type} (R : α → α → Prop) (p p' : Proc α) : Prop :=
  ∀ a a', p = .ok a → p' = .ok a' → R a a'

section
variable {α β : Type} {R : α → α → Prop} {Q : β → β → Prop}

theorem AnswersAlike.ok {a a' : α} (h : R a a') : AnswersAlike R (.ok a) (.ok a') := by
  rintro _ _ ⟨⟩ ⟨⟩
  exact h

theorem AnswersAlike.bind {p p' : Proc α} {k k' : α → Proc β} (first : AnswersAlike R p p')
    (next : ∀ a a', R a a' → AnswersAlike Q (k a) (k' a')) : AnswersAlike Q (p >>= k) (p' >>= k') := by
  intro b b' run run'
  rcases bind_cases p k with ⟨r, -, raised⟩ | ⟨a, answered, goesOn⟩
  · cases raised.symm.trans run
  rcases bind_cases p' k' with ⟨r, -, raised'⟩ | ⟨a', answered', goesOn'⟩
  · cases raised'.symm.trans run'
  exact next a a' (first a a' answered answered') b b' (goesOn ▸ run) (goesOn' ▸ run')

theorem AnswersAlike.map {p p' : Proc α} {f f' : α → β} (h : AnswersAlike R p p')
    (on : ∀ a a', R a a' → Q (f a) (f' a')) : AnswersAlike Q (p.map f) (p'.map f') :=
  h.bind fun a a' related => .ok (on a a' related)

/-- Past a test there is an answer only if the test passes. -/
theorem AnswersAlike.need {test test' : Bool} {c c' : Cause} {s s' : State} {k k' : Unit → Proc α}
    (passed : AnswersAlike R (k ()) (k' ())) : AnswersAlike R (need test c s >>= k) (need test' c' s' >>= k') :=
  AnswersAlike.bind (R := fun _ _ => True) (fun _ _ _ _ => trivial) fun _ _ _ => passed

end

/-- Two traversals of `n` turns, related by `R` according to the turns that are left. -/
theorem AnswersAlike.repeatProc {R : Nat → State → State → Prop} {f : State → Proc State}
    (turn : ∀ left s s', R (left + 1) s s' → AnswersAlike (R left) (f s) (f s')) (n : Nat) {s s' : State} (h : R n s s') :
    AnswersAlike (R 0) (repeatProc f n s) (repeatProc f n s') := by
  induction n generalizing s s' with
  | zero => exact .ok h
  | succ n ih => exact (turn n s s' h).bind fun _ _ h => ih h

/-- A command that ends without a fault has run its procedure to an answer. -/
theorem procedure_of_command {i : Instr} {p : State → Proc State} {s t : State} (e : command i p s = .next t)
    (clear : s.flt.fault = false) (noFault : t.flt.fault = false) : p s = .ok t := by
  rcases command_cases e with ⟨standing, -⟩ | ⟨-, r, -, rfl⟩ | ⟨-, -, answered⟩ | ⟨-, -, r, -, rfl⟩
  · simp [standing] at clear
  · cases noFault
  · exact answered
  · cases standing : r.state.flt.fault with
    | true => simp [raise_standing standing, standing] at noFault
    | false => simp [raise_clear standing] at noFault

/-! ## Coding (45_stream_ops.md R201) -/

/-- The states agree on all that coding reads and writes: the model, the encoder and the bits written. -/
structure CodeAlike (s s' : State) : Prop where
  freq : s.freq = s'.freq
  ae : s.ae = s'.ae
  writer : s.writer = s'.writer

theorem commitWriter_alike {s s' : State} (h : CodeAlike s s') (w : Writer) :
    AnswersAlike (fun t t' => t.freq = t'.freq ∧ t.ae = t'.ae ∧ t.writer = w ∧ t'.writer = w)
      (commitWriter w s) (commitWriter w s') :=
  .need (.ok ⟨h.freq, h.ae, rfl, rfl⟩)

/-- What is coded depends on the model, the encoder and the bits written alone (41_arith_encoder.md R112). -/
theorem aeEncode_alike (sym : Nat) {s s' : State} (h : CodeAlike s s') :
    AnswersAlike CodeAlike (aeEncode sym s) (aeEncode sym s') := by
  have range : AnswersAlike Eq (smRange sym s) (smRange sym s') := .need (.ok (by rw [h.freq]))
  refine range.bind ?_
  rintro r _ rfl
  rw [← h.ae, ← h.writer]
  exact (commitWriter_alike h _).bind fun t t' ⟨freq, _, w, w'⟩ => .ok ⟨freq, rfl, w.trans w'.symm⟩

theorem encSymbol_alike (sym : Nat) {s s' : State} (h : CodeAlike s s') :
    AnswersAlike CodeAlike (encSymbol sym s) (encSymbol sym s') :=
  (aeEncode_alike sym h).bind fun _ _ h => .ok ⟨congrArg (updateCounts Config.maxTotal · sym) h.freq, h.ae, h.writer⟩

theorem encSymbols_alike (syms : List Nat) {s s' : State} (h : CodeAlike s s') :
    AnswersAlike CodeAlike (encSymbols syms s) (encSymbols syms s') := by
  induction syms generalizing s s' with
  | nil => exact .ok h
  | cons sym rest ih => exact (encSymbol_alike sym h).bind fun _ _ h => ih h

theorem aeFinish_alike {s s' : State} (h : CodeAlike s s') :
    AnswersAlike (fun t t' => t.bs = t'.bs) (aeFinish s) (aeFinish s') := by
  rw [aeFinish, aeFinish, ← h.ae, ← h.writer]
  exact (commitWriter_alike h _).bind fun t t' ⟨_, _, w, w'⟩ => .ok (congrArg Writer.bs (w.trans w'.symm))

/-- Equal bytes in RES give equal bytes in BS, whatever else the states hold: coding starts by setting all it reads. -/
theorem encBytes_alike {s s' : State} (h : s.res.bytes = s'.res.bytes) :
    AnswersAlike (fun t t' => t.bs = t'.bs) (encBytes s) (encBytes s') := by
  have start : CodeAlike (((smInit s).setWriter Writer.empty).setAe Encoder.start)
      (((smInit s').setWriter Writer.empty).setAe Encoder.start) := ⟨rfl, rfl, rfl⟩
  refine AnswersAlike.bind ?_ fun _ _ h => aeFinish_alike h
  change AnswersAlike CodeAlike (encSymbols (s.res.bytes.map BitVec.toNat ++ [Config.eos]) _)
    (encSymbols (s'.res.bytes.map BitVec.toNat ++ [Config.eos]) _)
  rw [← h]
  exact encSymbols_alike _ start

/-! ## The residuals (44_predictor.md R182) -/

section
variable {m m' : Memory}

theorem pixelAt_congr {i n : Nat} (agree : ∀ b < n, m.read b = m'.read b) (inside : 3 * i + 3 ≤ n) :
    pixelAt m i = pixelAt m' i := by
  simp only [pixelAt, agree (3 * i) (by omega), agree (3 * i + 1) (by omega), agree (3 * i + 2) (by omega)]

/-- A prediction depends on the bytes it reaches to alone. -/
theorem pixel_congr {src : Source} {n : Nat} (agree : ∀ b < n, m.read b = m'.read b) (inside : src.reach ≤ n) :
    src.pixel m = src.pixel m' := by
  cases src with
  | black => rfl
  | copy j => exact pixelAt_congr agree inside
  | average l a u =>
    simp only [Source.reach, max_le_iff] at inside
    obtain ⟨left, above, upperLeft⟩ := inside
    simp only [Source.pixel, pixelAt_congr agree left, pixelAt_congr agree above, pixelAt_congr agree upperLeft]

end

/-- The states agree on the configuration, the bytes of the grid, the residuals made so far and the cursor, with `left`
pixels still to come. -/
structure GridAlike (left : Nat) (s s' : State) : Prop where
  conf : s.conf = s'.conf
  pix : ∀ b < 3 * pixelCount s, s.pix.read b = s'.pix.read b
  res : s.res.bytes = s'.res.bytes
  prPos : s.prPos = s'.prPos
  toCome : s.prPos + left = pixelCount s

/-- What `pr_enc` answers: the residuals appended and the cursor moved on (44_predictor.md R176). -/
theorem prEnc_ok {s : State} {r : Pixel × State} (h : prEnc s = .ok r) :
    ∃ src, predictSource s.conf.pred s.conf.width.toNat s.prPos = some src ∧
      r.2 = (s.setRes ⟨s.res.bytes ++ ((pixelAt s.pix s.prPos).residual (src.pixel s.pix)).bytes, s.res.rcur⟩).setPrPos
        (s.prPos + 1) := by
  rcases prEnc_cases s with ⟨-, raised⟩ | raised | ⟨src, found, -, -, answered⟩
  · cases raised.symm.trans h
  · cases raised.symm.trans h
  · cases answered.symm.trans h
    exact ⟨src, found, rfl⟩

/-- One pixel: both states predict it from pixels of the grid, and so append the same residuals. -/
theorem prEnc_alike {left : Nat} {s s' : State} (h : GridAlike (left + 1) s s') :
    AnswersAlike (fun r r' => GridAlike left r.2 r'.2) (prEnc s) (prEnc s') := by
  intro r r' answered answered'
  obtain ⟨src, found, next⟩ := prEnc_ok answered
  obtain ⟨src', found', next'⟩ := prEnc_ok answered'
  obtain rfl : src = src' := by
    rw [← h.conf, ← h.prPos, found] at found'
    exact Option.some.inj found'
  have toCome := h.toCome
  have width_pos : 0 < s.conf.width.toNat := Nat.pos_of_mul_pos_right (b := s.conf.height.toNat) <| by
    have : s.conf.width.toNat * s.conf.height.toNat = pixelCount s := rfl
    omega
  have reach := reach_le width_pos found
  have predicted : src.pixel s.pix = src.pixel s'.pix := pixel_congr h.pix (by omega)
  have actual : pixelAt s.pix s.prPos = pixelAt s'.pix s'.prPos := by
    rw [← h.prPos]
    exact pixelAt_congr h.pix (by omega)
  rw [next, next']
  exact {
    conf := h.conf
    pix := h.pix
    res := by simp only [setPrPos_res, setRes_res, h.res, predicted, actual]
    prPos := congrArg (· + 1) h.prPos
    toCome := (Nat.add_right_comm _ _ _).trans toCome }

/-- Equal images give equal residuals. -/
theorem prForward_alike {s s' : State} (conf : s.conf = s'.conf)
    (pix : ∀ b < 3 * pixelCount s, s.pix.read b = s'.pix.read b) :
    AnswersAlike (fun t t' => t.res.bytes = t'.res.bytes) (prForward s) (prForward s') := by
  have start : GridAlike (pixelCount s) ((clearRes s).setPrPos 0) ((clearRes s').setPrPos 0) :=
    ⟨conf, pix, rfl, rfl, Nat.zero_add _⟩
  have count : pixelCount s' = pixelCount s := by rw [pixelCount, pixelCount, conf]
  have grids := AnswersAlike.repeatProc (R := GridAlike)
    (fun _ _ _ h => (prEnc_alike h).map fun _ _ h => h) (pixelCount s) start
  refine AnswersAlike.need ?_
  change AnswersAlike _ (repeatProc _ (pixelCount s) _) (repeatProc _ (pixelCount s') _)
  rw [count]
  exact fun t t' answered answered' => (grids t t' answered answered').res

/-! ## The statement -/

/-- Settles O55: the residuals are the same, and so are the bytes they are coded to. -/
theorem encGridIsDeterminedByTheImage : Obligations.EncGridIsDeterminedByTheImage := by
  intro s s' t t' clear clear' conf pix e noFault e' noFault'
  have bytes : AnswersAlike (fun t t' => t.bs = t'.bs) ((encGrid s).map returnBsLen) ((encGrid s').map returnBsLen) :=
    ((prForward_alike conf pix).bind fun _ _ res => encBytes_alike res).map fun _ _ bs => bs
  rw [exec, execEncGrid] at e e'
  exact bytes t t' (procedure_of_command e clear noFault) (procedure_of_command e' clear' noFault')

end Sys2Proof.Machine

/-! PROOFS. The arithmetic decoder (42_arith_decoder.md R131 to R140): the bits its loops read, what they make of the
interval and of the code, and the decoder's three commands. -/

namespace Sys2Proof.Machine

/-! ## Tests and the scan -/

/-- A procedure that answers has passed the test it begins with. -/
theorem passed_of_need_bind {α : Type} {test : Bool} {c : Cause} {k : Unit → Proc α} {a : α}
    (h : (need test c s >>= k) = .ok a) : k () = .ok a := by
  cases test with
  | false => cases h
  | true => exact h

/-- The scan never passes the end of the counts. -/
theorem findFrom_le (rest : List Nat) (below sym v : Nat) : findFrom rest below sym v ≤ sym + rest.length := by
  induction rest generalizing below sym with
  | nil => exact Nat.le_refl sym
  | cons c cs ih =>
    rw [findFrom]
    split
    · exact Nat.le_add_right sym _
    · have := ih (below + c) (sym + 1)
      rw [List.length_cons]
      omega

/-! ## The bits read (43_bitstream.md R156, R157) -/

/-- The reader after `n` more bits of `bs` (43_bitstream.md R156). -/
def BitReader.advance (bs : List Byte) (n : Nat) (r : BitReader) : BitReader :=
  ⟨r.pos + n, r.past + bitsBeyond bs r.pos n⟩

@[simp] theorem brGet_bit (bs : List Byte) (r : BitReader) : (brGet bs r).1 = streamBit bs r.pos := by rw [brGet_eq]
@[simp] theorem brGet_pos (bs : List Byte) (r : BitReader) : (brGet bs r).2.pos = r.pos + 1 := by rw [brGet_eq]

@[simp] theorem advance_zero (bs : List Byte) (r : BitReader) : r.advance bs 0 = r := by
  have none : bitsBeyond bs r.pos 0 = 0 := by unfold bitsBeyond; omega
  rw [BitReader.advance, none]
  rfl

/-- Of `n + 1` bits, the first lies beyond the end or it does not. -/
theorem bitsBeyond_succ (bs : List Byte) (pos n : Nat) :
    bitsBeyond bs pos (n + 1) = (if pos < 8 * bs.length then 0 else 1) + bitsBeyond bs (pos + 1) n := by
  unfold bitsBeyond
  split <;> omega

theorem advance_succ (bs : List Byte) (n : Nat) (r : BitReader) :
    r.advance bs (n + 1) = (brGet bs r).2.advance bs n := by
  simp only [BitReader.advance, brGet_eq, bitsBeyond_succ, Nat.add_assoc, Nat.add_comm 1 n]

theorem streamBits_succ (bs : List Byte) (n : Nat) (r : BitReader) :
    streamBits bs r.pos (n + 1) = (brGet bs r).1 :: streamBits bs (brGet bs r).2.pos n := by
  rw [brGet_bit, brGet_pos, streamBits, List.range_succ_eq_map, List.map_cons, List.map_map]
  refine congrArg _ (List.map_congr_left fun k _ => ?_)
  exact congrArg (streamBit bs) (Nat.add_right_comm r.pos k 1)

@[simp] theorem length_streamBits (bs : List Byte) (pos n : Nat) : (streamBits bs pos n).length = n := by
  simp [streamBits]

/-- The first bit of a number weighs most. -/
theorem bitsValue_cons (b : Bool) (bits : List Bool) :
    bitsValue (b :: bits) = 2 ^ bits.length * b.toNat + bitsValue bits := by
  induction bits using List.reverseRecOn with
  | nil => simp [bitsValue]
  | append_singleton bits c ih =>
    rw [← List.cons_append, bitsValue_append_bit, bitsValue_append_bit, ih, List.length_append, List.length_singleton,
      Nat.pow_succ]
    ring

/-! ## Priming (R131) -/

section
variable {bs : List Byte} {code : Bound} {r : BitReader}

theorem getLsbD_doubleOrBit_zero (code : Bound) (b : Bool) : ((code <<< 1) ||| bitBound b).getLsbD 0 = b := by
  simp [bitBound]

theorem getLsbD_doubleOrBit_succ (code : Bound) (b : Bool) {i : Nat} (h : i + 1 < 48) :
    ((code <<< 1) ||| bitBound b).getLsbD (i + 1) = code.getLsbD i := by
  have : i < 48 := by omega
  simp [bitBound, h, BitVec.getLsbD_eq_getElem this]

theorem primeCode_reader (n : Nat) : (primeCode bs n code r).2 = r.advance bs n := by
  induction n generalizing code r with
  | zero => exact (advance_zero bs r).symm
  | succ n ih => rw [primeCode, ih, advance_succ]

/-- Priming moves the bits already there up by one place per bit read. -/
theorem getLsbD_primeCode_old {n i : Nat} (h : i + n < 48) :
    (primeCode bs n code r).1.getLsbD (i + n) = code.getLsbD i := by
  induction n generalizing code r i with
  | zero => rfl
  | succ n ih =>
    rw [primeCode, show i + (n + 1) = (i + 1) + n by omega, ih (by omega), getLsbD_doubleOrBit_succ _ _ (by omega)]

/-- The first bit read stands highest of the `n` that are read (42_arith_decoder.md R131). -/
theorem getLsbD_primeCode_read {n k : Nat} (few : n ≤ 48) (h : k < n) :
    (primeCode bs n code r).1.getLsbD (n - 1 - k) = streamBit bs (r.pos + k) := by
  induction n generalizing code r k with
  | zero => omega
  | succ n ih =>
    rw [primeCode]
    cases k with
    | zero =>
      rw [show n + 1 - 1 - 0 = 0 + n by omega, getLsbD_primeCode_old (by omega), getLsbD_doubleOrBit_zero, brGet_bit]
      rfl
    | succ k =>
      rw [show n + 1 - 1 - (k + 1) = n - 1 - k by omega, ih (by omega) (by omega), brGet_pos, Nat.add_assoc, Nat.add_comm 1]

end

/-! ## Normalisation scales interval and code alike (R135) -/

/-- From the decoder `d` to `d'` with the bits `bits` read: low, high + 1 and code are doubled once per bit and lowered by
the same `m` times HALF, and the bits enter code at its low end. -/
structure PulledIn (bits : List Bool) (m : Nat) (d d' : Decoder) : Prop where
  low : d'.low.toNat + m * 2 ^ 47 = 2 ^ bits.length * d.low.toNat
  upTo : d'.high.toNat + 1 + m * 2 ^ 47 = 2 ^ bits.length * (d.high.toNat + 1)
  code : d'.code.toNat + m * 2 ^ 47 = 2 ^ bits.length * d.code.toNat + bitsValue bits

theorem PulledIn.refl (d : Decoder) : PulledIn [] 0 d d := ⟨by simp, by simp, by simp [bitsValue]⟩

/-- `finished` is no part of it. -/
theorem PulledIn.markFinished {bits : List Bool} {m : Nat} {d d' : Decoder} (h : PulledIn bits m d d') (sym : Nat) :
    PulledIn bits m d (markFinished sym d') := by
  unfold Machine.markFinished
  split
  · exact ⟨h.low, h.upTo, h.code⟩
  · exact h

/-- One bit, and then more. -/
theorem PulledIn.cons {b : Bool} {bits : List Bool} {m m' : Nat} {d d' d'' : Decoder} (first : PulledIn [b] m d d')
    (rest : PulledIn bits m' d' d'') : PulledIn (b :: bits) (m' + 2 ^ bits.length * m) d d'' := by
  obtain ⟨low, upTo, code⟩ := first
  obtain ⟨low', upTo', code'⟩ := rest
  rw [List.length_singleton, pow_one] at low upTo code
  have one : bitsValue [b] = b.toNat := Nat.zero_add _
  constructor <;> rw [List.length_cons, Nat.pow_succ]
  · linear_combination low' + 2 ^ bits.length * low
  · linear_combination upTo' + 2 ^ bits.length * upTo
  · rw [bitsValue_cons]
    linear_combination code' + 2 ^ bits.length * (code + one)

theorem PulledIn.single {b : Bool} {m : Nat} {d d' : Decoder} (low : d'.low.toNat + m * 2 ^ 47 = 2 * d.low.toNat)
    (upTo : d'.high.toNat + 1 + m * 2 ^ 47 = 2 * (d.high.toNat + 1))
    (code : d'.code.toNat + m * 2 ^ 47 = 2 * d.code.toNat + b.toNat) : PulledIn [b] m d d' :=
  ⟨by simpa using low, by simpa using upTo, by simpa [bitsValue] using code⟩

/-- The decoder after one step of the loop, with the bit `b` read (42_arith_decoder.md R135). -/
def Decoder.pulled (d : Decoder) (k : Shift) (b : Bool) : Decoder :=
  { d with toInterval := d.toInterval.shifted k, code := shiftCode d.code b k }

section
variable {d : Decoder} (lo : d.low.toNat ≤ d.code.toNat) (hi : d.code.toNat ≤ d.high.toNat)
include lo hi

/-- A top step drops the top bit from both bounds and from code, which has it too: twice HALF, if it is 1. -/
theorem pulledIn_top {top : Bool} (h : d.toInterval.shift? = some (.top top)) (b : Bool) :
    PulledIn [b] (2 * top.toNat) d (d.pulled (.top top) b) := by
  obtain ⟨lowTop, highTop⟩ := shift?_top h
  obtain ⟨low, high⟩ := shifted_top d.toInterval top
  have codeTop : top = decide (2 ^ 47 ≤ d.code.toNat) := by
    cases top with
    | false => simp only [Bool.false_eq, decide_eq_false_iff_not] at highTop ⊢; omega
    | true => simp only [Bool.true_eq, decide_eq_true_eq] at lowTop ⊢; omega
  have doubled {v : Bound} (vTop : top = decide (2 ^ 47 ≤ v.toNat)) :
      2 * v.toNat % 2 ^ 48 + 2 ^ 48 * top.toNat = 2 * v.toNat := by rw [vTop]; exact toNat_double_add_top v
  have lowDoubled := doubled lowTop
  have highDoubled := doubled highTop
  have codeDoubled := doubled codeTop
  apply PulledIn.single <;> simp only [Decoder.pulled, low, high, shiftCode, toNat_double_or_bit] <;> omega

/-- An underflow step takes QUARTER off before the doubling: HALF, once. -/
theorem pulledIn_underflow (h : d.toInterval.shift? = some .underflow) (b : Bool) :
    PulledIn [b] 1 d (d.pulled .underflow b) := by
  obtain ⟨ltHalf, geQuarter, geHalf, ltThreeQuarters⟩ := shift?_underflow (lo.trans hi) h
  obtain ⟨low, high⟩ := shifted_underflow geQuarter ltHalf geHalf ltThreeQuarters
  have code := toNat_sub_quarter (geQuarter.trans lo)
  have codeLt := d.code.isLt
  apply PulledIn.single <;> simp only [Decoder.pulled, low, high, shiftCode, toNat_double_or_bit, code] <;> omega

theorem pulledIn_step {k : Shift} (h : d.toInterval.shift? = some k) (b : Bool) :
    ∃ m, PulledIn [b] m d (d.pulled k b) := by
  cases k with
  | top top => exact ⟨_, pulledIn_top lo hi h b⟩
  | underflow => exact ⟨_, pulledIn_underflow lo hi h b⟩

end

/-- The loop reads one bit per turn it takes, and scales by one doubling per turn. -/
theorem normaliseDecoder_pulledIn (bs : List Byte) (turns : Nat) {d : Decoder} (r : BitReader)
    (lo : d.low.toNat ≤ d.code.toNat) (hi : d.code.toNat ≤ d.high.toNat) :
    ∃ n ≤ turns, (normaliseDecoder bs turns d r).2 = r.advance bs n ∧
      ∃ m, PulledIn (streamBits bs r.pos n) m d (normaliseDecoder bs turns d r).1 := by
  induction turns generalizing d r with
  | zero => exact ⟨0, Nat.le_refl _, (advance_zero bs r).symm, 0, .refl d⟩
  | succ turns ih =>
    cases h : d.toInterval.shift? with
    | none => rw [normaliseDecoder_stop r h]; exact ⟨0, Nat.zero_le _, (advance_zero bs r).symm, 0, .refl d⟩
    | some k =>
      rw [normaliseDecoder_step r h]
      obtain ⟨lo', hi'⟩ := shiftCode_within h lo hi (brGet bs r).1
      obtain ⟨m, first⟩ := pulledIn_step lo hi h (brGet bs r).1
      obtain ⟨n, few, reader, m', rest⟩ := ih (d := d.pulled k (brGet bs r).1) (brGet bs r).2 lo' hi'
      refine ⟨n + 1, Nat.succ_le_succ few, reader.trans (advance_succ bs n r).symm, ?_⟩
      rw [streamBits_succ]
      exact ⟨_, first.cons rest⟩

/-! ## One symbol decoded (R132 to R136) -/

/-- The symbol `ad_decode` finds (42_arith_decoder.md R132, R133). -/
def decodedSymbol (s : State) : Nat := findSymbol s.freq (scaledValue s.ad (total s.freq))

/-- The decoder narrowed to the slice of that symbol (42_arith_decoder.md R134). -/
def narrowedDecoder (s : State) : Decoder :=
  { s.ad with toInterval := s.ad.toInterval.narrow (sliceOf s.freq (decodedSymbol s)) }

/-- The decoder and the reader after `ad_decode` (42_arith_decoder.md R135, R136). -/
def decoded (s : State) : Decoder × BitReader :=
  let p := normaliseDecoder s.bs shiftBound (narrowedDecoder s) s.br
  (markFinished (decodedSymbol s) p.1, p.2)

section
variable {s : State}

/-- With a total in range `ad_decode` answers the symbol and changes AD and BR alone (42_arith_decoder.md R132). -/
theorem adDecode_eq (small : total s.freq ≤ 65535) :
    adDecode s = .ok (decodedSymbol s, (s.setAd (decoded s).1).setBr (decoded s).2) := by
  rcases adDecode_cases s with ⟨overfull, -⟩ | ⟨-, answered⟩
  · omega
  · exact answered

/-- The decoder's interval moves as the encoder's does: narrowed and then normalised (42_arith_decoder.md R134, R135). -/
theorem decoded_toInterval (s : State) :
    (decoded s).1.toInterval =
      (s.ad.toInterval.narrow (sliceOf s.freq (decodedSymbol s))).normalised shiftBound := by
  simp only [decoded, markFinished_toInterval, normaliseDecoder_toInterval]
  rfl

/-- And this is how the encoder's does (41_arith_encoder.md R112, R113). -/
theorem aeEncode_toInterval {sym : Nat} {t : State} (h : aeEncode sym s = .ok t) :
    t.ae.toInterval = (s.ae.toInterval.narrow (sliceOf s.freq sym)).normalised shiftBound := by
  rcases aeEncode_cases sym s with raised | raised | ⟨-, -, answered⟩
  · cases raised.symm.trans h
  · cases raised.symm.trans h
  · cases answered.symm.trans h
    exact normalise_toInterval shiftBound _ _

/-- On any interval at all the symbol found is small enough to be an operand; 257 is the scan's answer if no slice holds the
value (log entry 7). -/
theorem decodedSymbol_le (len : s.freq.length = 257) : decodedSymbol s ≤ 257 := by
  have := findFrom_le s.freq 0 0 (scaledValue s.ad (total s.freq))
  rw [decodedSymbol, findSymbol]
  omega

theorem markFinished_finished (sym : Nat) (d : Decoder) :
    (markFinished sym d).finished = (decide (sym = 256) || d.finished) := by
  unfold markFinished
  split
  next eos => simp [show sym = 256 from eos]
  next other => simp [show ¬sym = 256 from other]

/-- Of the flags only `finished` is set, by the end-of-stream symbol (42_arith_decoder.md R136). -/
theorem decoded_flags (s : State) :
    (decoded s).1.primed = s.ad.primed ∧
    (decoded s).1.finished = (decide (decodedSymbol s = 256) || s.ad.finished) := by
  obtain ⟨primed, finished⟩ := normaliseDecoder_flags s.bs shiftBound (narrowedDecoder s) s.br
  rw [decoded, markFinished_primed, markFinished_finished, primed, finished]
  exact ⟨rfl, rfl⟩

/-- Beginning with a normalised interval that holds code, `ad_decode` takes at most 48 bits into the narrowed one
(42_arith_decoder.md R135, 41_arith_encoder.md R116 (d)). -/
theorem decoded_pulledIn (model : ModelOk s.freq) (ok : IntervalOk s.ad.toInterval)
    (lo : s.ad.low.toNat ≤ s.ad.code.toNat) (hi : s.ad.code.toNat ≤ s.ad.high.toNat) :
    ∃ n ≤ 48, (decoded s).2 = s.br.advance s.bs n ∧
      ∃ m, PulledIn (streamBits s.bs s.br.pos n) m (narrowedDecoder s) (decoded s).1 := by
  obtain ⟨-, atLow, atHigh⟩ := decoded_narrow_within model ok lo hi
  obtain ⟨n, few, reader, m, pulled⟩ :=
    normaliseDecoder_pulledIn s.bs shiftBound (d := narrowedDecoder s) s.br atLow atHigh
  exact ⟨n, few, reader, m, pulled.markFinished _⟩

/-- Where the symbol's slice lies in the interval, and that code lies within (42_arith_decoder.md R133, R134). -/
theorem narrowedDecoder_bounds (model : ModelOk s.freq) (ok : IntervalOk s.ad.toInterval)
    (lo : s.ad.low.toNat ≤ s.ad.code.toNat) (hi : s.ad.code.toNat ≤ s.ad.high.toNat) :
    decodedSymbol s ≤ 256 ∧
    (narrowedDecoder s).low.toNat =
      s.ad.low.toNat + s.ad.toInterval.range * cum s.freq (decodedSymbol s) / total s.freq ∧
    (narrowedDecoder s).high.toNat + 1 =
      s.ad.low.toNat + s.ad.toInterval.range * cum s.freq (decodedSymbol s + 1) / total s.freq ∧
    (narrowedDecoder s).low.toNat ≤ s.ad.code.toNat ∧ s.ad.code.toNat ≤ (narrowedDecoder s).high.toNat := by
  have ⟨_, _, small⟩ := model
  obtain ⟨ordered, wide⟩ := ok.wide
  obtain ⟨le, atLow, atHigh⟩ := decoded_narrow_within model ok lo hi
  obtain ⟨nonempty, within⟩ := sliceOf_bounds model le
  obtain ⟨low, upTo, -⟩ := narrow_bounds ordered nonempty within (small.trans wide.le)
  exact ⟨le, low, upTo, atLow, atHigh⟩

/-! ## The commands (R138 to R140) -/

section
variable (clear : s.flt.fault = false)
include clear

theorem exec_adInit : exec .adInit s = .next (adInit s) := by
  rw [exec, execAdInit]
  exact command_completes clear rfl rfl

theorem exec_adDecode (primed : s.ad.primed = true) (notFinished : s.ad.finished = false)
    (small : total s.freq ≤ 65535) :
    exec .adDecode s =
      .next (((s.setAd (decoded s).1).setBr (decoded s).2).setX0 (BitVec.ofNat 64 (decodedSymbol s))) := by
  rw [exec, execAdDecode]
  exact command_completes clear rfl
    (by rw [primed, notFinished, Bool.not_false, Bool.and_self, need_true_bind, adDecode_eq small, ok_bind])

theorem exec_adFinished :
    exec .adFinished s = .next (s.setX0 ((BitVec.ofBool s.ad.finished).setWidth 64)) := by
  rw [exec, execAdFinished]
  exact command_completes clear rfl rfl

/-- What an `AD.DECODE` that ends without a fault has done, on any interval. -/
theorem of_exec_adDecode {t : State} (small : total s.freq ≤ 65535) (e : exec .adDecode s = .next t)
    (noFault : t.flt.fault = false) :
    t = ((s.setAd (decoded s).1).setBr (decoded s).2).setX0 (BitVec.ofNat 64 (decodedSymbol s)) := by
  rw [exec, execAdDecode] at e
  have run := passed_of_need_bind (procedure_of_command e clear noFault)
  rw [adDecode_eq small, ok_bind] at run
  cases run
  rfl

/-- What an `AE.ENCODE` that ends without a fault has done. -/
theorem of_exec_aeEncode {sym : Imm} {t : State} (e : exec (.aeEncode sym) s = .next t) (noFault : t.flt.fault = false) :
    aeEncode sym.toNat s = .ok t := by
  rw [exec, execAeEncode] at e
  exact passed_of_need_bind (procedure_of_command e clear noFault)

end

end

/-! ## The statements -/

/-- Settles O35: the slice found holds code, and the loop scales it together with code. -/
theorem adDecodeFindsSymbolOfCode : Obligations.AdDecodeFindsSymbolOfCode := by
  intro s clear primed notFinished model ok lo hi bound
  have ⟨_, _, small⟩ := model
  obtain ⟨le, low, upTo, atLow, atHigh⟩ := narrowedDecoder_bounds model ok lo hi
  obtain ⟨n, few, reader, m, pulled⟩ := decoded_pulledIn model ok lo hi
  obtain ⟨primed', finished'⟩ := decoded_flags s
  rw [primed] at primed'
  rw [notFinished, Bool.or_false] at finished'
  have inOrder : DecoderOk (decoded s).1 := decoderOk_decoded model (fun _ => ⟨ok, lo, hi⟩) s.bs s.br
  obtain ⟨scaledLow, scaledUpTo, scaledCode⟩ := pulled
  rw [length_streamBits] at scaledLow scaledUpTo scaledCode
  rw [low] at scaledLow atLow
  rw [upTo] at scaledUpTo
  refine ⟨decodedSymbol s, n, m, (decoded s).1, le, few, ?_, atLow, ?_, scaledLow, scaledUpTo, scaledCode, primed',
    finished', inOrder primed'⟩
  · rw [exec_adDecode clear primed notFinished small, reader]
    rfl
  · exact (Nat.lt_succ_of_le atHigh).trans_eq upTo

/-- Settles O34: each bit read stands where the bits read after it have moved it to. -/
theorem adInitPrimesFromStream : Obligations.AdInitPrimesFromStream := by
  intro s clear
  refine ⟨(primeCode s.bs 48 0 s.br).1, ?_, fun k lt => getLsbD_primeCode_read (Nat.le_refl 48) lt⟩
  rw [exec_adInit clear]
  have reader := primeCode_reader (bs := s.bs) (code := 0) (r := s.br) 48
  simp only [adInit, Config.precision, reader]
  rfl

/-- Settles O36: both narrow to the slice of the same symbol, and both normalise the same way. -/
theorem decodeMirrorsEncode : Obligations.DecodeMirrorsEncode := by
  intro s t u clear same model e noFault e' noFault'
  have ⟨len, _, small⟩ := model
  have few := decodedSymbol_le len
  obtain rfl := of_exec_adDecode clear small e noFault
  have symbol : ((BitVec.ofNat 64 (decodedSymbol s)).setWidth 32).toNat = decodedSymbol s := by
    simp only [BitVec.toNat_setWidth, BitVec.toNat_ofNat]
    omega
  have moved := aeEncode_toInterval (of_exec_aeEncode clear e' noFault')
  calc (decoded s).1.toInterval
      = (s.ad.toInterval.narrow (sliceOf s.freq (decodedSymbol s))).normalised shiftBound := decoded_toInterval s
    _ = u.ae.toInterval := by rw [moved, same, setX0_x0, symbol]

/-- Settles O37. -/
theorem adFinishedReturnsFlag : Obligations.AdFinishedReturnsFlag := by
  intro s clear
  rw [exec_adFinished clear]
  cases s.ad.finished <;> rfl

end Sys2Proof.Machine


/-! PROOFS. The bit stream (43_bitstream.md R151 to R162): one bit put, the padding to a byte, one bit read, and the five
commands of the writer and the reader. -/

namespace Sys2Proof.Machine

/-! ## A bit as an operand (R159) -/

theorem imm_eq_zero_or_one {b : Imm} (le : b.toNat ≤ 1) : b = 0#32 ∨ b = 1#32 := by
  have : b.toNat = 0 ∨ b.toNat = 1 := by omega
  exact this.imp BitVec.eq_of_toNat_eq BitVec.eq_of_toNat_eq

/-- The bit `BW.PUT` writes for an operand in range. -/
theorem getLsbD_zero_imm {b : Imm} (le : b.toNat ≤ 1) : b.getLsbD 0 = decide (b = 1#32) := by
  rcases imm_eq_zero_or_one le with rfl | rfl <;> rfl

/-- As a byte, that bit is the operand itself. -/
theorem byte_of_imm {b : Imm} (le : b.toNat ≤ 1) : (BitVec.ofBool (b.getLsbD 0)).setWidth 8 = b.setWidth 8 := by
  rcases imm_eq_zero_or_one le with rfl | rfl <;> rfl

/-! ## The bytes written (R152, R153) -/

section
variable {w : Writer}

theorem put_imm_partial {b : Imm} (le : b.toNat ≤ 1) (h : w.nbits.val + 1 < 8) :
    w.put (b.getLsbD 0) = ⟨w.acc <<< 1 ||| b.setWidth 8, ⟨w.nbits.val + 1, h⟩, w.bs⟩ := by
  rw [put_partial _ h, byte_of_imm le]

theorem put_imm_full {b : Imm} (le : b.toNat ≤ 1) (seven : w.nbits.val = 7) :
    w.put (b.getLsbD 0) = ⟨0#8, 0, w.bs ++ [w.acc <<< 1 ||| b.setWidth 8]⟩ := by
  rw [put_full _ (by omega), byte_of_imm le]
  rfl

theorem writtenBits_put_imm {b : Imm} (le : b.toNat ≤ 1) :
    writtenBits (w.put (b.getLsbD 0)) = writtenBits w ++ [decide (b = 1#32)] := by
  rw [writtenBits_put, getLsbD_zero_imm le]

/-- A zero bit put in is a plain shift. -/
theorem shiftIn_false (acc : Byte) : (acc <<< 1) ||| (BitVec.ofBool false).setWidth 8 = acc <<< 1 := by simp

/-- Zero bits up to the end of the byte shift `BW.acc` up by as many places. -/
theorem putMany_false_to_boundary {n : Nat} (missing : w.nbits.val + n = 7) :
    Writer.putMany (n + 1) false w = ⟨0#8, 0, w.bs ++ [w.acc <<< (n + 1)]⟩ := by
  induction n generalizing w with
  | zero =>
    rw [putMany_succ, putMany_zero, put_full _ (by omega), shiftIn_false]
    rfl
  | succ n ih =>
    rw [putMany_succ, put_partial _ (show w.nbits.val + 1 < 8 by omega), shiftIn_false,
      ih (show w.nbits.val + 1 + n = 7 by omega), ← BitVec.shiftLeft_add, Nat.add_comm 1]

/-- `bw_finish` completes a partial byte with zero bits (43_bitstream.md R153). -/
theorem finish_partial (held : w.nbits.val ≠ 0) :
    w.finish = ⟨0#8, 0, w.bs ++ [w.acc <<< (8 - w.nbits.val)]⟩ := by
  have := w.nbits.isLt
  rw [finish_eq_putMany, show (8 - w.nbits.val) % 8 = 7 - w.nbits.val + 1 by omega, putMany_false_to_boundary (by omega),
    show 7 - w.nbits.val + 1 = 8 - w.nbits.val by omega]

end

/-! ## The bit read (R156) -/

section
variable {bs : List Byte} {r : BitReader}

theorem brGet_inside (h : r.pos / 8 < bs.length) :
    brGet bs r = ((bs[r.pos / 8]'h).getLsbD (7 - r.pos % 8), ⟨r.pos + 1, r.past⟩) := by
  rw [brGet_eq, streamBit, List.getD_eq_getElem _ _ h, if_pos (by omega)]
  rfl

theorem brGet_beyond (h : bs.length ≤ r.pos / 8) : brGet bs r = (false, ⟨r.pos + 1, r.past + 1⟩) := by
  rw [brGet_eq, streamBit, List.getD_eq_default _ _ h, if_neg (by omega), BitVec.getLsbD_zero]

end

/-! ## The commands (R158 to R162) -/

/-- One appended byte fits when BS has the room for it, and not otherwise. -/
theorem appendsFit_append_byte {cap : Option Nat} {bs : List Byte} {byte : Byte} :
    AppendsFit cap bs.length (bs ++ [byte]).length ↔ fits cap (bs.length + 1) = true := by
  simp [AppendsFit]

section
variable {s : State} (clear : s.flt.fault = false)
include clear

theorem exec_bwInit : exec .bwInit s = .next (s.setWriter Writer.empty) := by
  rw [exec, execBwInit]
  exact command_completes clear rfl rfl

theorem exec_bwPut_fitting {b : Imm} (le : b.toNat ≤ 1)
    (fit : AppendsFit s.caps.bsCap s.bs.length (s.writer.put (b.getLsbD 0)).bs.length) :
    exec (.bwPut b) s = .next (s.setWriter (s.writer.put (b.getLsbD 0))) := by
  rw [exec, execBwPut]
  exact command_completes (i := .bwPut b) clear (aboveRange_none.2 le) (commitWriter_fitting fit)

theorem exec_bwPut_overflowing {b : Imm} (le : b.toNat ≤ 1)
    (full : ¬AppendsFit s.caps.bsCap s.bs.length (s.writer.put (b.getLsbD 0)).bs.length) :
    exec (.bwPut b) s = .next (s.faulted 10#8 (encode (.bwPut b))) := by
  rw [exec, execBwPut]
  exact command_raises (i := .bwPut b) clear (aboveRange_none.2 le) (commitWriter_overflowing full)

theorem exec_bwPut_operand {b : Imm} (gt : 1 < b.toNat) :
    exec (.bwPut b) s = .next (s.faulted 2#8 (encode (.bwPut b))) := by
  rw [exec, execBwPut]
  exact command_defect (i := .bwPut b) clear (aboveRange_some.2 ⟨gt, rfl⟩) _

theorem exec_bwFinish_fitting (fit : AppendsFit s.caps.bsCap s.bs.length s.writer.finish.bs.length) :
    exec .bwFinish s = .next (s.setWriter s.writer.finish) := by
  rw [exec, execBwFinish]
  exact command_completes clear rfl (commitWriter_fitting fit)

theorem exec_bwFinish_overflowing (full : ¬AppendsFit s.caps.bsCap s.bs.length s.writer.finish.bs.length) :
    exec .bwFinish s = .next (s.faulted 10#8 (encode .bwFinish)) := by
  rw [exec, execBwFinish]
  exact command_raises clear rfl (c := .capacity) (commitWriter_overflowing full)

theorem exec_brInit : exec .brInit s = .next (s.setBr BitReader.start) := by
  rw [exec, execBrInit]
  exact command_completes clear rfl rfl

theorem exec_brGet : exec .brGet s =
    .next ((s.setBr (brGet s.bs s.br).2).setX0 ((BitVec.ofBool (brGet s.bs s.br).1).setWidth 64)) := by
  rw [exec, execBrGet]
  exact command_completes clear rfl rfl

end

/-! ## The statements -/

/-- Settles O38. -/
theorem bwInitEmpties : Obligations.BwInitEmpties := fun _ clear => exec_bwInit clear

/-- Settles O39: the operand is the bit the put shifts in, and only the eighth bit needs room in BS. -/
theorem bwPutAppendsBit : Obligations.BwPutAppendsBit := by
  intro s b clear
  refine ⟨fun le h => ?partly, fun le seven room => ?eighth, fun le seven full => ?noRoom, exec_bwPut_operand clear⟩
  case partly =>
    have put := put_imm_partial (w := s.writer) le h
    constructor
    · rw [exec_bwPut_fitting clear le (.inl (by rw [put]; rfl)), put]
      rfl
    · exact put ▸ writtenBits_put_imm le
  case eighth =>
    have put := put_imm_full (w := s.writer) le seven
    constructor
    · rw [exec_bwPut_fitting clear le (by rw [put]; exact appendsFit_append_byte.2 room), put]
      rfl
    · exact put ▸ writtenBits_put_imm le
  case noRoom =>
    refine exec_bwPut_overflowing clear le fun fit => ?_
    rw [put_imm_full le seven] at fit
    cases full.symm.trans (appendsFit_append_byte.1 fit)

/-- Settles O40. -/
theorem bwFinishPadsToByte : Obligations.BwFinishPadsToByte := by
  intro s clear
  refine ⟨fun aligned => ?aligned, fun held room => ?padded, fun held full => ?noRoom⟩
  case aligned =>
    have same : s.writer.finish = s.writer := finish_aligned (Fin.ext aligned)
    rw [exec_bwFinish_fitting clear (.inl (by rw [same]; rfl)), same, setWriter_writer]
  case padded =>
    have padded := finish_partial (w := s.writer) held
    rw [exec_bwFinish_fitting clear (by rw [padded]; exact appendsFit_append_byte.2 room), padded]
    rfl
  case noRoom =>
    refine exec_bwFinish_overflowing clear fun fit => ?_
    rw [finish_partial held] at fit
    cases full.symm.trans (appendsFit_append_byte.1 fit)

/-- Settles O41. -/
theorem brInitRewinds : Obligations.BrInitRewinds := fun _ clear => exec_brInit clear

/-- Settles O42. -/
theorem brGetReadsStreamBit : Obligations.BrGetReadsStreamBit := by
  intro s clear
  refine ⟨fun inside => ?_, fun beyond => ?_⟩
  · rw [exec_brGet clear, brGet_inside inside]
    cases (s.bs[s.br.pos / 8]'inside).getLsbD (7 - s.br.pos % 8) <;> rfl
  · rw [exec_brGet clear, brGet_beyond beyond]
    rfl

end Sys2Proof.Machine

/-! PROOFS. One pixel of the predictor (44_predictor.md R172 to R181): pixels channel by channel, what the procedures of one
pixel answer under a known predictor, and the commands of one pixel and of RES. -/

namespace Sys2Proof.Machine

/-! ## Pixels channel by channel (R171, R175, 20_memory.md R41, R44) -/

/-- The pixel with the given channel values, modulo 256. -/
def Pixel.ofChannels (f : Nat → Nat) : Pixel := ⟨BitVec.ofNat 8 (f 0), BitVec.ofNat 8 (f 1), BitVec.ofNat 8 (f 2)⟩

theorem pixelAt_eq_ofChannels (m : Memory) (i : Nat) : pixelAt m i = .ofChannels (channelAt m i) := by
  simp [pixelAt, Pixel.ofChannels, channelAt]

theorem average_eq_ofChannels (m : Memory) (l a u : Nat) : Pixel.average (pixelAt m l) (pixelAt m a) (pixelAt m u) =
    .ofChannels fun c => (channelAt m l c + channelAt m a c + channelAt m u c) / 3 := rfl

theorem residualAt_eq_ofChannels (r : Residuals) :
    residualAt r = .ofChannels fun c => (r.bytes.getD (r.rcur + c) 0#8).toNat := by
  simp [residualAt, Pixel.ofChannels]

/-- A difference of channel values, without going below 0 (R175). -/
theorem ofNat_sub_ofNat {p : Nat} (a : Nat) (small : p < 256) :
    BitVec.ofNat 8 a - BitVec.ofNat 8 p = BitVec.ofNat 8 ((a + 256 - p) % 256) := by
  apply BitVec.eq_of_toNat_eq
  simp only [BitVec.toNat_sub, BitVec.toNat_ofNat]
  omega

/-- A sum of channel values (R175). -/
theorem ofNat_add_ofNat (p r : Nat) : BitVec.ofNat 8 p + BitVec.ofNat 8 r = BitVec.ofNat 8 ((p + r) % 256) := by
  apply BitVec.eq_of_toNat_eq
  simp only [BitVec.toNat_add, BitVec.toNat_ofNat]
  omega

theorem residual_ofChannels (a : Nat → Nat) {p : Nat → Nat} (small : ∀ c, p c < 256) :
    (Pixel.ofChannels a).residual (.ofChannels p) = .ofChannels fun c => (a c + 256 - p c) % 256 := by
  simp only [Pixel.residual, Pixel.ofChannels, ofNat_sub_ofNat _ (small _)]

theorem restored_ofChannels (p r : Nat → Nat) :
    (Pixel.ofChannels p).restored (.ofChannels r) = .ofChannels fun c => (p c + r c) % 256 := by
  simp only [Pixel.restored, Pixel.ofChannels, ofNat_add_ofNat]

theorem pack_ofChannels {f : Nat → Nat} (small : ∀ c, f c < 256) :
    (Pixel.ofChannels f).pack = packChannels (f 0) (f 1) (f 2) := by
  have h0 := small 0
  have h1 := small 1
  have h2 := small 2
  have joined : (BitVec.ofNat 8 (f 0) ++ BitVec.ofNat 8 (f 1) ++ BitVec.ofNat 8 (f 2)).toNat =
      f 0 * 65536 + f 1 * 256 + f 2 := by
    simp only [BitVec.toNat_append, BitVec.toNat_ofNat, Nat.mod_eq_of_lt h0, Nat.mod_eq_of_lt h1, Nat.mod_eq_of_lt h2]
    rw [← Nat.shiftLeft_add_eq_or_of_lt h2, ← Nat.shiftLeft_add_eq_or_of_lt h1, Nat.shiftLeft_eq, Nat.shiftLeft_eq]
    omega
  rw [Pixel.pack, packChannels, ← joined]
  exact (BitVec.ofNat_toNat _ _).symm

/-- Equal pixels have equal channels. -/
theorem channel_eq_of_ofChannels_eq {f g : Nat → Nat} (h : Pixel.ofChannels f = .ofChannels g) (smallF : ∀ c, f c < 256)
    (smallG : ∀ c, g c < 256) {c : Nat} (hc : c < 3) : f c = g c := by
  obtain ⟨h0, h1, h2⟩ := Pixel.mk.inj h
  have eq_of_ofNat_eq {d : Nat} (e : BitVec.ofNat 8 (f d) = BitVec.ofNat 8 (g d)) : f d = g d := by
    simpa [Nat.mod_eq_of_lt (smallF d), Nat.mod_eq_of_lt (smallG d)] using congrArg BitVec.toNat e
  match c, hc with
  | 0, _ => exact eq_of_ofNat_eq h0
  | 1, _ => exact eq_of_ofNat_eq h1
  | 2, _ => exact eq_of_ofNat_eq h2

@[simp] theorem length_pixelBytes (p : Pixel) : p.bytes.length = 3 := rfl

theorem getD_bytes_ofChannels (f : Nat → Nat) {c : Nat} (hc : c < 3) :
    (Pixel.ofChannels f).bytes.getD c 0#8 = BitVec.ofNat 8 (f c) :=
  match c, hc with
  | 0, _ | 1, _ | 2, _ => rfl

/-! ## Predictions channel by channel (R172) -/

theorem channelAt_lt (m : Memory) (i c : Nat) : channelAt m i c < 256 := (m.read (3 * i + c)).isLt

theorem predictedChannel_lt (p : BitVec 16) (w : Nat) (m : Memory) (i c : Nat) : predictedChannel p w m i c < 256 := by
  have left := channelAt_lt m (i - 1) c
  have above := channelAt_lt m (i - w) c
  have upperLeft := channelAt_lt m (i - w - 1) c
  unfold predictedChannel
  split_ifs <;> omega

theorem residualChannel_lt (p : BitVec 16) (w : Nat) (m : Memory) (i c : Nat) : residualChannel p w m i c < 256 :=
  Nat.mod_lt _ (by omega)

/-- The predicted pixel has the predicted channels: case by case, the source's pixels are those of R172. -/
theorem pixel_eq_predictedChannel {p : BitVec 16} {w i : Nat} {src : Source} (h : predictSource p w i = some src)
    (m : Memory) : src.pixel m = .ofChannels (predictedChannel p w m i) := by
  by_cases left : p = 0#16
  · rw [left, predictSource_left, Option.some.injEq] at h
    simp only [← h, Pixel.ofChannels, predictedChannel, if_pos left]
    by_cases first : i = 0
    · simp only [if_pos first]
      rfl
    · simp only [if_neg first]
      exact pixelAt_eq_ofChannels m (i - 1)
  by_cases average : p = 1#16
  · rw [average, predictSource_average, Option.some.injEq] at h
    simp only [← h, Pixel.ofChannels, predictedChannel, if_neg left]
    by_cases corner : i % w = 0 ∧ i / w = 0
    · simp only [if_pos corner]
      rfl
    by_cases column : i % w = 0
    · simp only [if_neg corner, if_pos column]
      exact pixelAt_eq_ofChannels m (i - w)
    by_cases row : i / w = 0
    · simp only [if_neg corner, if_neg column, if_pos row]
      exact pixelAt_eq_ofChannels m (i - 1)
    · simp only [if_neg corner, if_neg column, if_neg row]
      exact average_eq_ofChannels m (i - 1) (i - w) (i - w - 1)
  · cases (predictSource_unknown left average w i).symm.trans h

theorem predictSource_known {p : BitVec 16} (known : p = 0#16 ∨ p = 1#16) (w i : Nat) :
    ∃ src, predictSource p w i = some src := by
  rcases known with rfl | rfl
  · exact ⟨_, predictSource_left w i⟩
  · exact ⟨_, predictSource_average w i⟩

/-- A known prediction reads no byte of its own pixel or of a later one (20_memory.md R54). -/
theorem predictionEnd_le {p : BitVec 16} {w : Nat} (known : p = 0#16 ∨ p = 1#16) (width_pos : 0 < w) (i : Nat) :
    predictionEnd p w i ≤ 3 * i := by
  obtain ⟨src, found⟩ := predictSource_known known w i
  exact reach_eq_predictionEnd width_pos found ▸ reach_le width_pos found

/-- A prediction depends on the pixels before its own alone. -/
theorem predictedChannel_congr {p : BitVec 16} {w i c : Nat} {m m' : Memory} (known : p = 0#16 ∨ p = 1#16)
    (width_pos : 0 < w) (agree : ∀ b < 3 * i, m.read b = m'.read b) (hc : c < 3) :
    predictedChannel p w m i c = predictedChannel p w m' i c := by
  obtain ⟨src, found⟩ := predictSource_known known w i
  have same := pixel_congr agree (reach_le width_pos found)
  rw [pixel_eq_predictedChannel found, pixel_eq_predictedChannel found] at same
  exact channel_eq_of_ofChannels_eq same (predictedChannel_lt _ _ _ _) (predictedChannel_lt _ _ _ _) hc

/-- A residual added to its prediction gives the channel back (R175). -/
theorem predictedChannel_add_residualChannel (p : BitVec 16) (w : Nat) (m : Memory) (i c : Nat) :
    (predictedChannel p w m i c + residualChannel p w m i c) % 256 = channelAt m i c := by
  have predicted := predictedChannel_lt p w m i c
  have actual := channelAt_lt m i c
  unfold residualChannel
  omega

/-! ## The pixel at `PR.pos` (R172, R176, R177) -/

/-- `predict(PR.pos)` under a known predictor. -/
def predictedHere (s : State) : Pixel := .ofChannels (predictedChannel s.conf.pred s.conf.width.toNat s.pix s.prPos)

/-- The residual of the pixel at `PR.pos` under a known predictor. -/
def residualHere (s : State) : Pixel := .ofChannels (residualChannel s.conf.pred s.conf.width.toNat s.pix s.prPos)

/-- Channel `c` of pixel `i`, predicted from `m` and restored with the residual of `res` at `cursor + c`. -/
def restoredChannel (p : BitVec 16) (w : Nat) (m : Memory) (res : List Byte) (i cursor c : Nat) : Nat :=
  (predictedChannel p w m i c + (res.getD (cursor + c) 0#8).toNat) % 256

/-- The pixel at `PR.pos` restored with the residuals at `RES.rcur`, under a known predictor. -/
def restoredHere (s : State) : Pixel :=
  .ofChannels (restoredChannel s.conf.pred s.conf.width.toNat s.pix s.res.bytes s.prPos s.res.rcur)

theorem restoredChannel_lt (p : BitVec 16) (w : Nat) (m : Memory) (res : List Byte) (i cursor c : Nat) :
    restoredChannel p w m res i cursor c < 256 :=
  Nat.mod_lt _ (by omega)

theorem width_pos_of_prPos_lt {s : State} (left : s.prPos < pixelCount s) : 0 < s.conf.width.toNat :=
  Nat.pos_of_mul_pos_right (b := s.conf.height.toNat) (Nat.zero_lt_of_lt left)

/-- The invariant has the pixels before `PR.pos` within PIX (20_memory.md R49). -/
theorem State.Inv.passedFits {s : State} (h : s.Inv) : fits s.caps.pixCap (3 * s.prPos) = true :=
  let ⟨_, _, _, _, _, _, _, _, passed, _⟩ := h
  passed

section
variable {s : State} (known : s.conf.pred = 0#16 ∨ s.conf.pred = 1#16) (left : s.prPos < pixelCount s)
include known left

/-- Under a known predictor the pixel at `PR.pos` has a source, whose pixel is the prediction and which reads up to
`predictionEnd`. -/
theorem sourceHere_known : ∃ src, sourceHere s = .ok src ∧ src.pixel s.pix = predictedHere s ∧
    src.reach = predictionEnd s.conf.pred s.conf.width.toNat s.prPos ∧ max src.reach (3 * s.prPos + 3) = 3 * s.prPos + 3 := by
  obtain ⟨src, found⟩ := predictSource_known known s.conf.width.toNat s.prPos
  have width_pos := width_pos_of_prPos_lt left
  have reach := reach_le width_pos found
  exact ⟨src, by rw [sourceHere, found], pixel_eq_predictedChannel found s.pix, reach_eq_predictionEnd width_pos found,
    max_eq_right (by omega)⟩

theorem prPredict_eq : prPredict s =
    need (fits s.caps.pixCap (predictionEnd s.conf.pred s.conf.width.toNat s.prPos)) .capacity s >>= fun _ =>
      .ok (predictedHere s) := by
  obtain ⟨src, found, predicted, reach, -⟩ := sourceHere_known known left
  rw [prPredict, found, ok_bind, predicted, reach]

theorem prEnc_eq : prEnc s = need (fits s.caps.pixCap (3 * s.prPos + 3)) .capacity s >>= fun _ =>
    appendRes (residualHere s).bytes s >>= fun t => .ok (residualHere s, t.setPrPos (s.prPos + 1)) := by
  obtain ⟨src, found, predicted, -, reach⟩ := sourceHere_known known left
  have residual : (pixelAt s.pix s.prPos).residual (predictedHere s) = residualHere s := by
    rw [pixelAt_eq_ofChannels]
    exact residual_ofChannels _ (predictedChannel_lt _ _ _ _)
  rw [prEnc, found, ok_bind, predicted, reach, residual]

theorem prDec_eq : prDec s = need (fits s.caps.pixCap (3 * s.prPos + 3)) .capacity s >>= fun _ =>
    .ok (restoredHere s, ((s.setPix (s.pix.writeBytes (3 * s.prPos) (restoredHere s).bytes)).setRes
      ⟨s.res.bytes, s.res.rcur + 3⟩).setPrPos (s.prPos + 1)) := by
  obtain ⟨src, found, predicted, -, reach⟩ := sourceHere_known known left
  have restored : (predictedHere s).restored (residualAt s.res) = restoredHere s := by
    rw [residualAt_eq_ofChannels]
    exact restored_ofChannels _ _
  rw [prDec, found, ok_bind, predicted, reach, restored]

/-- With room for the pixel and its residuals, `pr_enc` appends them and advances (R176). -/
theorem prEnc_fitting
    (fit : (fits s.caps.pixCap (3 * s.prPos + 3) && fits s.caps.resCap (s.res.bytes.length + 3)) = true) :
    prEnc s = .ok (residualHere s,
      (s.setRes ⟨s.res.bytes ++ (residualHere s).bytes, s.res.rcur⟩).setPrPos (s.prPos + 1)) := by
  obtain ⟨pixFits, resFits⟩ := Bool.and_eq_true_iff.1 fit
  rw [prEnc_eq known left, pixFits, need_true_bind, appendRes, length_pixelBytes, resFits]
  rfl

/-- Without the room `pr_enc` raises CAPACITY and has changed nothing (20_memory.md R49). -/
theorem prEnc_overflowing
    (full : (fits s.caps.pixCap (3 * s.prPos + 3) && fits s.caps.resCap (s.res.bytes.length + 3)) = false) :
    prEnc s = .error ⟨.capacity, s⟩ := by
  rw [prEnc_eq known left]
  cases pixFits : fits s.caps.pixCap (3 * s.prPos + 3) with
  | false => rfl
  | true =>
    rw [pixFits, Bool.true_and] at full
    rw [need_true_bind, appendRes, length_pixelBytes, full]
    rfl

theorem prDec_fitting (fit : fits s.caps.pixCap (3 * s.prPos + 3) = true) :
    prDec s = .ok (restoredHere s, ((s.setPix (s.pix.writeBytes (3 * s.prPos) (restoredHere s).bytes)).setRes
      ⟨s.res.bytes, s.res.rcur + 3⟩).setPrPos (s.prPos + 1)) := by
  rw [prDec_eq known left, fit, need_true_bind]

theorem prDec_overflowing (full : fits s.caps.pixCap (3 * s.prPos + 3) = false) : prDec s = .error ⟨.capacity, s⟩ := by
  rw [prDec_eq known left, full, need_false_bind]

end

/-- A pixel written where it stands reads back, channel by channel (20_memory.md R41). -/
theorem channelAt_writeBytes_ofChannels {m : Memory} (wf : m.wf) (i : Nat) {f : Nat → Nat} (small : ∀ c, f c < 256) {c : Nat}
    (hc : c < 3) : channelAt (m.writeBytes (3 * i) (Pixel.ofChannels f).bytes) i c = f c := by
  rw [channelAt, read_writeBytes_inside wf _ _ _ hc, getD_bytes_ofChannels f hc, BitVec.toNat_ofNat]
  exact Nat.mod_eq_of_lt (small c)

/-! ## An unknown predictor (R172, R182, R183, 45_stream_ops.md R203, R204) -/

theorem knownPredictor_eq_true {s : State} : knownPredictor s = true ↔ s.conf.pred = 0#16 ∨ s.conf.pred = 1#16 := by
  simp [knownPredictor]

section
variable {s : State} (notLeft : s.conf.pred ≠ 0#16) (notAverage : s.conf.pred ≠ 1#16)
include notLeft notAverage

theorem knownPredictor_eq_false : knownPredictor s = false := by simp [knownPredictor, notLeft, notAverage]

theorem sourceHere_unknown : sourceHere s = .error ⟨.formatUnknownPredictor, s⟩ := by
  rw [sourceHere, predictSource_unknown notLeft notAverage]

theorem prForward_unknown : prForward s = .error ⟨.formatUnknownPredictor, s⟩ := by
  rw [prForward, knownPredictor_eq_false notLeft notAverage, need_false_bind]

theorem prInverse_unknown : prInverse s = .error ⟨.formatUnknownPredictor, s⟩ := by
  rw [prInverse, knownPredictor_eq_false notLeft notAverage, need_false_bind]

theorem encGrid_unknown : encGrid s = .error ⟨.formatUnknownPredictor, s⟩ := by
  rw [encGrid, prForward_unknown notLeft notAverage, error_bind]

theorem decGrid_unknown : decGrid s = .error ⟨.formatUnknownPredictor, s⟩ := by
  rw [decGrid, knownPredictor_eq_false notLeft notAverage, need_false_bind]

end

/-! ## The commands (R178 to R185)

The commands of one pixel test their place in the sequence; with a pixel left, and for `PR.DEC` three residuals, each is
its procedure. -/

/-- A raise is recorded in the state it was made in, if none stands there (60_exceptions.md R244). -/
theorem conclude_raised {s : State} (clear : s.flt.fault = false) (c : Cause) (w : Word) :
    conclude w (.error ⟨c, s⟩) = .next (s.faulted c.code w) := by
  rw [conclude_error, raise_clear clear]

section
variable {s : State} (clear : s.flt.fault = false)
include clear

theorem exec_prInit : exec .prInit s = .next ((s.setPrPos 0).setRes ⟨s.res.bytes, 0⟩) := by
  rw [exec, execPrInit]
  exact command_completes clear rfl rfl

theorem exec_resClr : exec .resClr s = .next (s.setRes ⟨[], 0⟩) := by
  rw [exec, execResClr]
  exact command_completes clear rfl rfl

theorem exec_resPush_fitting {b : Imm} (le : b.toNat ≤ 255) (fit : fits s.caps.resCap (s.res.bytes.length + 1) = true) :
    exec (.resPush b) s = .next (s.setRes ⟨s.res.bytes ++ [BitVec.ofNat 8 b.toNat], s.res.rcur⟩) := by
  rw [exec, execResPush]
  refine command_completes (i := .resPush b) clear (aboveRange_none.2 le) ?_
  rw [appendRes, List.length_singleton, fit, need_true_bind, BitVec.ofNat_toNat]

theorem exec_resPush_overflowing {b : Imm} (le : b.toNat ≤ 255)
    (full : fits s.caps.resCap (s.res.bytes.length + 1) = false) :
    exec (.resPush b) s = .next (s.faulted 10#8 (encode (.resPush b))) := by
  rw [exec, execResPush]
  exact command_raises (i := .resPush b) clear (aboveRange_none.2 le) (c := .capacity)
    (by rw [appendRes, List.length_singleton, full, need_false_bind])

theorem exec_resPush_operand {b : Imm} (gt : 255 < b.toNat) :
    exec (.resPush b) s = .next (s.faulted 2#8 (encode (.resPush b))) := by
  rw [exec, execResPush]
  exact command_defect (i := .resPush b) clear (aboveRange_some.2 ⟨gt, rfl⟩) _

/-- With a pixel left, `PR.PREDICT` answers or raises as `predict(PR.pos)` does. -/
theorem exec_prPredict (left : s.prPos < pixelCount s) :
    exec .prPredict s = conclude (encode .prPredict) (prPredict s >>= fun p => .ok (s.setX0 p.pack)) := by
  rw [exec, execPrPredict, command_runs clear rfl, decide_eq_true left, need_true_bind]

theorem exec_prEnc (left : s.prPos < pixelCount s) :
    exec .prEnc s = conclude (encode .prEnc) (prEnc s >>= fun r => .ok (r.2.setX0 r.1.pack)) := by
  rw [exec, execPrEnc, command_runs clear rfl, decide_eq_true left, need_true_bind]

theorem exec_prDec (left : s.prPos < pixelCount s) (unread : s.res.rcur + 3 ≤ s.res.bytes.length) :
    exec .prDec s = conclude (encode .prDec) (prDec s >>= fun r => .ok (r.2.setX0 r.1.pack)) := by
  rw [exec, execPrDec, command_runs clear rfl, decide_eq_true left, decide_eq_true unread, Bool.and_self, need_true_bind]

theorem exec_prFwd : exec .prFwd s = conclude (encode .prFwd) (prForward s) := by
  rw [exec, execPrFwd, command_runs clear rfl]

theorem exec_prInv : exec .prInv s = conclude (encode .prInv) (prInverse s) := by
  rw [exec, execPrInv, command_runs clear rfl]

theorem exec_encGrid : exec .encGrid s = conclude (encode .encGrid) ((encGrid s).map returnBsLen) := by
  rw [exec, execEncGrid, command_runs clear rfl]

theorem exec_decGrid : exec .decGrid s = conclude (encode .decGrid) ((decGrid s).map returnResLen) := by
  rw [exec, execDecGrid, command_runs clear rfl]

theorem exec_prPredict_sequence (gone : pixelCount s ≤ s.prPos) :
    exec .prPredict s = .next (s.faulted 3#8 (encode .prPredict)) := by
  rw [exec, execPrPredict]
  exact command_raises clear rfl (c := .sequenceError) (by rw [decide_eq_false (Nat.not_lt.2 gone), need_false_bind])

theorem exec_prEnc_sequence (gone : pixelCount s ≤ s.prPos) :
    exec .prEnc s = .next (s.faulted 3#8 (encode .prEnc)) := by
  rw [exec, execPrEnc]
  exact command_raises clear rfl (c := .sequenceError) (by rw [decide_eq_false (Nat.not_lt.2 gone), need_false_bind])

theorem exec_prDec_sequence (h : pixelCount s ≤ s.prPos ∨ s.res.bytes.length < s.res.rcur + 3) :
    exec .prDec s = .next (s.faulted 3#8 (encode .prDec)) := by
  have fails : (decide (s.prPos < pixelCount s) && decide (s.res.rcur + 3 ≤ s.res.bytes.length)) = false := by
    rw [Bool.and_eq_false_iff, decide_eq_false_iff_not, decide_eq_false_iff_not, Nat.not_lt, Nat.not_le]
    exact h
  rw [exec, execPrDec]
  exact command_raises clear rfl (c := .sequenceError) (by rw [fails, need_false_bind])

end

/-! ## The statements -/

/-- Settles O43. -/
theorem prInitAndResClrRewind : Obligations.PrInitAndResClrRewind :=
  fun _ clear => ⟨exec_prInit clear, exec_resClr clear⟩

/-- Settles O44. -/
theorem resPushAppendsByte : Obligations.ResPushAppendsByte := fun _ _ clear =>
  ⟨exec_resPush_fitting clear, exec_resPush_overflowing clear, exec_resPush_operand clear⟩

/-- Settles O45: the prediction reads no pixel from `PR.pos` on, and those before it are within PIX by the invariant. -/
theorem prPredictReturnsPrediction : Obligations.PrPredictReturnsPrediction := by
  intro s clear left known
  refine ⟨fun fit => ?fits, fun full => ?noRoom, fun inv => ?invariant⟩
  case fits =>
    rw [exec_prPredict clear left, prPredict_eq known left, fit, need_true_bind, ok_bind, conclude_ok, predictedHere,
      pack_ofChannels (predictedChannel_lt _ _ _ _)]
  case noRoom =>
    rw [exec_prPredict clear left, prPredict_eq known left, full, need_false_bind, error_bind, conclude_raised clear]
    rfl
  case invariant =>
    exact fits_mono inv.passedFits (predictionEnd_le known (width_pos_of_prPos_lt left) _)

/-- Settles O46. -/
theorem prEncAppendsResiduals : Obligations.PrEncAppendsResiduals := by
  intro s clear left known
  refine ⟨fun fit => ?_, fun full => ?_⟩
  · rw [exec_prEnc clear left, prEnc_fitting known left fit, ok_bind, conclude_ok, residualHere,
      pack_ofChannels (residualChannel_lt _ _ _ _)]
    rfl
  · rw [exec_prEnc clear left, prEnc_overflowing known left full, error_bind, conclude_raised clear]
    rfl

/-- Settles O47: the bytes written are those of the restored pixel, at its own addresses. -/
theorem prDecRestoresPixel : Obligations.PrDecRestoresPixel := by
  intro s clear wf left unread known
  refine ⟨fun fit => ⟨s.pix.writeBytes (3 * s.prPos) (restoredHere s).bytes, ?answer, wf_writeBytes wf _ _, fun c hc => ?inside,
    fun b outside => read_writeBytes_other _ _ _ _ outside⟩, fun full => ?noRoom⟩
  case answer =>
    rw [exec_prDec clear left unread, prDec_fitting known left fit, ok_bind, conclude_ok, restoredHere,
      pack_ofChannels (restoredChannel_lt _ _ _ _ _ _)]
    rfl
  case inside => exact channelAt_writeBytes_ofChannels wf _ (restoredChannel_lt _ _ _ _ _ _) hc
  case noRoom =>
    rw [exec_prDec clear left unread, prDec_overflowing known left full, error_bind, conclude_raised clear]
    rfl

/-- Settles O51: the predictor is looked at before the length of RES and before any capacity. -/
theorem unknownPredictorFaults : Obligations.UnknownPredictorFaults := by
  intro s clear notLeft notAverage
  have unknown := sourceHere_unknown notLeft notAverage
  refine ⟨?forward, ?inverse, ?encGrid, ?decGrid, fun left => ⟨?predict, ?enc, fun unread => ?dec⟩⟩
  case forward =>
    rw [exec_prFwd clear, prForward_unknown notLeft notAverage, conclude_raised clear]
    rfl
  case inverse =>
    rw [exec_prInv clear, prInverse_unknown notLeft notAverage, conclude_raised clear]
    rfl
  case encGrid =>
    rw [exec_encGrid clear, encGrid_unknown notLeft notAverage, Except.map, conclude_raised clear]
    rfl
  case decGrid =>
    rw [exec_decGrid clear, decGrid_unknown notLeft notAverage, Except.map, conclude_raised clear]
    rfl
  case predict =>
    rw [exec_prPredict clear left, prPredict, unknown, error_bind, error_bind, conclude_raised clear]
    rfl
  case enc =>
    rw [exec_prEnc clear left, prEnc, unknown, error_bind, error_bind, conclude_raised clear]
    rfl
  case dec =>
    rw [exec_prDec clear left unread, prDec, unknown, error_bind, error_bind, conclude_raised clear]
    rfl

/-- Settles O52. -/
theorem pixelCommandsOutOfSequence : Obligations.PixelCommandsOutOfSequence := fun _ clear =>
  ⟨fun gone => ⟨exec_prPredict_sequence clear gone, exec_prEnc_sequence clear gone, exec_prDec_sequence clear (.inl gone)⟩,
    fun few => exec_prDec_sequence clear (.inr few)⟩

end Sys2Proof.Machine

/-! PROOFS. The two traversals of the predictor (44_predictor.md R182, R183): where a traversal ends, what it has made by
then, and that the inverse gives back what the forward traversal was made from (R187). -/

namespace Sys2Proof.Machine

/-! ## Where a traversal ends (60_exceptions.md R244) -/

/-- Turns that all answer, from one state of a walk to a later one. -/
theorem repeatProc_ok {f : State → Proc State} {walk : Nat → State} (n : Nat) {i : Nat}
    (goes : ∀ j, i ≤ j → j < i + n → f (walk j) = .ok (walk (j + 1))) : repeatProc f n (walk i) = .ok (walk (i + n)) := by
  induction n generalizing i with
  | zero => rfl
  | succ n ih =>
    rw [repeatProc_succ, goes i le_rfl (by omega), ok_bind, ih fun j hj hn => goes j (by omega) (by omega),
      Nat.add_right_comm, Nat.add_assoc]

/-- A traversal in two parts. -/
theorem repeatProc_add (f : State → Proc State) (m n : Nat) (s : State) :
    repeatProc f (m + n) s = repeatProc f m s >>= repeatProc f n := by
  induction m generalizing s with
  | zero => rw [Nat.zero_add, repeatProc_zero, ok_bind]
  | succ m ih =>
    rw [Nat.add_right_comm, repeatProc_succ, repeatProc_succ]
    rcases bind_cases (f s) (repeatProc f m) with ⟨r, raised, e⟩ | ⟨t, answered, e⟩
    · rw [e, raised, error_bind, error_bind]
    · rw [e, answered, ok_bind, ih]

/-- The first turn without room. -/
theorem exists_first_unfit {fit : Nat → Bool} (start : fit 0 = true) {n : Nat} (full : fit n = false) :
    ∃ j < n, fit j = true ∧ fit (j + 1) = false := by
  induction n with
  | zero => cases start.symm.trans full
  | succ n ih =>
    cases before : fit n with
    | true => exact ⟨n, n.lt_succ_self, before, full⟩
    | false =>
      obtain ⟨j, lt, last⟩ := ih before
      exact ⟨j, lt.trans n.lt_succ_self, last⟩

/-- A traversal along a walk, whose turns need more and more room: it ends at the end of the walk, or raises CAPACITY at
the first turn without room. -/
theorem repeatProc_walk {f : State → Proc State} {walk : Nat → State} {fit : Nat → Bool} {n : Nat} (start : fit 0 = true)
    (mono : ∀ {i j}, i ≤ j → fit j = true → fit i = true)
    (goes : ∀ j < n, fit (j + 1) = true → f (walk j) = .ok (walk (j + 1)))
    (stops : ∀ j < n, fit (j + 1) = false → f (walk j) = .error ⟨.capacity, walk j⟩) :
    ∃ j ≤ n, (fit n = true → j = n ∧ repeatProc f n (walk 0) = .ok (walk n)) ∧
      (fit n = false → j < n ∧ fit j = true ∧ fit (j + 1) = false ∧
        repeatProc f n (walk 0) = .error ⟨.capacity, walk j⟩) := by
  have reaches {k : Nat} (le : k ≤ n) (room : fit k = true) : repeatProc f k (walk 0) = .ok (walk k) := by
    simpa only [Nat.zero_add] using
      repeatProc_ok (f := f) (walk := walk) k (i := 0) fun j _ lt => goes j (by omega) (mono (by omega) room)
  cases room : fit n with
  | true => exact ⟨n, le_rfl, fun _ => ⟨rfl, reaches le_rfl room⟩, nofun⟩
  | false =>
    obtain ⟨j, lt, last, full⟩ := exists_first_unfit start room
    refine ⟨j, lt.le, nofun, fun _ => ⟨lt, last, full, ?_⟩⟩
    obtain ⟨rest, rfl⟩ := Nat.exists_eq_add_of_lt lt
    rw [Nat.add_assoc, repeatProc_add, reaches lt.le last, ok_bind, repeatProc_succ, stops j lt full, error_bind]

/-! ## Forward (R182) -/

/-- The bytes of the first pixels whose channels `f` gives, in order (20_memory.md R42). -/
def channelBytes (f : Nat → Nat → Nat) : Nat → List Byte
  | 0 => []
  | j + 1 => channelBytes f j ++ (Pixel.ofChannels (f j)).bytes

@[simp] theorem length_channelBytes (f : Nat → Nat → Nat) (j : Nat) : (channelBytes f j).length = 3 * j := by
  induction j with
  | zero => rfl
  | succ j ih => rw [channelBytes, List.length_append, ih, length_pixelBytes, Nat.mul_add_one]

theorem getD_channelBytes {f : Nat → Nat → Nat} {i j c : Nat} (hi : i < j) (hc : c < 3) :
    (channelBytes f j).getD (3 * i + c) 0#8 = BitVec.ofNat 8 (f i c) := by
  induction j with
  | zero => exact absurd hi i.not_lt_zero
  | succ j ih =>
    rw [channelBytes]
    rcases Nat.lt_succ_iff_lt_or_eq.1 hi with before | rfl
    · rw [List.getD_append _ _ _ _ (by rw [length_channelBytes]; omega), ih before]
    · rw [List.getD_append_right _ _ _ _ (by rw [length_channelBytes]; omega), length_channelBytes, Nat.add_sub_cancel_left,
        getD_bytes_ofChannels _ hc]

/-- The residuals of the first `j` pixels of the grid. -/
def gridResiduals (s : State) (j : Nat) : List Byte :=
  channelBytes (residualChannel s.conf.pred s.conf.width.toNat s.pix) j

/-- The state in which the forward traversal has `j` pixels behind it. -/
def forwardAt (s : State) (j : Nat) : State := (s.setRes ⟨gridResiduals s j, 0⟩).setPrPos j

/-- There is room in PIX and in RES for the first `j` pixels and their residuals. -/
def gridFits (s : State) (j : Nat) : Bool := fits s.caps.pixCap (3 * j) && fits s.caps.resCap (3 * j)

/-- The room `pr_enc` asks for after `j` pixels. -/
theorem forwardAt_fits (s : State) (j : Nat) :
    (fits (forwardAt s j).caps.pixCap (3 * (forwardAt s j).prPos + 3) &&
      fits (forwardAt s j).caps.resCap ((forwardAt s j).res.bytes.length + 3)) = gridFits s (j + 1) := by
  simp [forwardAt, gridResiduals, gridFits, Nat.mul_add_one]

section
variable {s : State} (known : s.conf.pred = 0#16 ∨ s.conf.pred = 1#16)
include known

theorem prEnc_forwardAt {j : Nat} (left : j < pixelCount s) (fit : gridFits s (j + 1) = true) :
    (prEnc (forwardAt s j)).map Prod.snd = .ok (forwardAt s (j + 1)) := by
  rw [prEnc_fitting (s := forwardAt s j) known left ((forwardAt_fits s j).trans fit)]
  rfl

theorem prEnc_forwardAt_full {j : Nat} (left : j < pixelCount s) (full : gridFits s (j + 1) = false) :
    (prEnc (forwardAt s j)).map Prod.snd = .error ⟨.capacity, forwardAt s j⟩ := by
  rw [prEnc_overflowing (s := forwardAt s j) known left ((forwardAt_fits s j).trans full)]
  rfl

/-- Where the forward traversal ends. -/
theorem prForward_walk : ∃ j ≤ pixelCount s,
    (gridFits s (pixelCount s) = true → j = pixelCount s ∧ prForward s = .ok (forwardAt s (pixelCount s))) ∧
    (gridFits s (pixelCount s) = false → j < pixelCount s ∧ gridFits s j = true ∧ gridFits s (j + 1) = false ∧
      prForward s = .error ⟨.capacity, forwardAt s j⟩) := by
  have run : prForward s = repeatProc (fun s => (prEnc s).map Prod.snd) (pixelCount s) (forwardAt s 0) := by
    rw [prForward, knownPredictor_eq_true.2 known, need_true_bind]
    rfl
  rw [run]
  refine repeatProc_walk (by simp [gridFits]) (fun le room => ?_) (fun _ => prEnc_forwardAt known)
    (fun _ => prEnc_forwardAt_full known)
  obtain ⟨pixFits, resFits⟩ := Bool.and_eq_true_iff.1 room
  exact Bool.and_eq_true_iff.2 ⟨fits_mono pixFits (by omega), fits_mono resFits (by omega)⟩

end

/-- Settles O48. -/
theorem prFwdMakesResiduals : Obligations.PrFwdMakesResiduals := by
  intro s clear known
  obtain ⟨j, -, fitting, overflowing⟩ := prForward_walk known
  refine ⟨j, gridResiduals s j, fun room => ?complete, fun full => ?noRoom, length_channelBytes _ _, fun i hi c hc => ?residuals⟩
  case complete =>
    obtain ⟨rfl, e⟩ := fitting room
    exact ⟨rfl, by rw [exec_prFwd clear, e]; rfl⟩
  case noRoom =>
    obtain ⟨lt, last, next, e⟩ := overflowing full
    refine ⟨lt, last, next, ?_⟩
    rw [exec_prFwd clear, e, conclude_raised (s := forwardAt s j) clear]
    rfl
  case residuals =>
    rw [gridResiduals, getD_channelBytes hi hc, BitVec.toNat_ofNat]
    exact Nat.mod_eq_of_lt (residualChannel_lt _ _ _ _ _)

/-! ## Inverse (R183) -/

/-- PIX after the first `j` pixels were rebuilt from the residuals `res`, one after the other. -/
def rebuiltPix (p : BitVec 16) (w : Nat) (m : Memory) (res : List Byte) : Nat → Memory
  | 0 => m
  | j + 1 => (rebuiltPix p w m res j).writeBytes (3 * j)
      (Pixel.ofChannels (restoredChannel p w (rebuiltPix p w m res j) res j (3 * j))).bytes

/-- Each turn writes the pixel restored from the pixels before it, which no later turn touches (20_memory.md R54). -/
theorem rebuilt_rebuiltPix {p : BitVec 16} {w : Nat} {m : Memory} (known : p = 0#16 ∨ p = 1#16) (wf : m.wf)
    (res : List Byte) {j : Nat} (width_pos : 0 < j → 0 < w) : Rebuilt p w m res (rebuiltPix p w m res j) j := by
  induction j with
  | zero => exact ⟨wf, fun _ _ => rfl, fun i hi => absurd hi i.not_lt_zero⟩
  | succ j ih =>
    have w_pos := width_pos j.succ_pos
    obtain ⟨wfBefore, beyond, rebuilt⟩ := ih fun _ => w_pos
    have kept {b : Nat} (lt : b < 3 * j) : (rebuiltPix p w m res (j + 1)).read b = (rebuiltPix p w m res j).read b :=
      read_writeBytes_other _ _ _ _ (.inl lt)
    refine ⟨wf_writeBytes wfBefore _ _, fun b le => ?_, fun i hi c hc => ?_⟩
    · exact (read_writeBytes_other _ _ _ _ (.inr (by rw [length_pixelBytes]; omega))).trans (beyond b (by omega))
    · have predicted := predictedChannel_congr (i := i) known w_pos (fun b lt => kept (b := b) (by omega)) hc
      rw [predicted]
      rcases Nat.lt_succ_iff_lt_or_eq.1 hi with before | rfl
      · rw [channelAt, kept (by omega)]
        exact rebuilt i before c hc
      · exact channelAt_writeBytes_ofChannels wfBefore _ (restoredChannel_lt _ _ _ _ _ _) hc

/-- The state in which the inverse traversal has `j` pixels behind it. -/
def inverseAt (s : State) (j : Nat) : State :=
  ((s.setPix (rebuiltPix s.conf.pred s.conf.width.toNat s.pix s.res.bytes j)).setRes ⟨s.res.bytes, 3 * j⟩).setPrPos j

section
variable {s : State} (known : s.conf.pred = 0#16 ∨ s.conf.pred = 1#16)
include known

/-- Where the inverse traversal ends. -/
theorem prInverse_walk (len : s.res.bytes.length = 3 * pixelCount s) : ∃ j ≤ pixelCount s,
    (fits s.caps.pixCap (3 * pixelCount s) = true →
      j = pixelCount s ∧ prInverse s = .ok (inverseAt s (pixelCount s))) ∧
    (fits s.caps.pixCap (3 * pixelCount s) = false →
      j < pixelCount s ∧ fits s.caps.pixCap (3 * j) = true ∧ fits s.caps.pixCap (3 * (j + 1)) = false ∧
      prInverse s = .error ⟨.capacity, inverseAt s j⟩) := by
  have run : prInverse s = repeatProc (fun s => (prDec s).map Prod.snd) (pixelCount s) (inverseAt s 0) := by
    rw [prInverse, knownPredictor_eq_true.2 known, need_true_bind, decide_eq_true len, need_true_bind]
    rfl
  rw [run]
  refine repeatProc_walk (fit := fun j => fits s.caps.pixCap (3 * j)) (fits_zero _)
    (fun le room => fits_mono room (by omega)) (fun j left fit => ?_) (fun j left full => ?_)
  · rw [prDec_fitting (s := inverseAt s j) known left fit]
    rfl
  · rw [prDec_overflowing (s := inverseAt s j) known left full]
    rfl

theorem prInverse_wrongLength (ne : s.res.bytes.length ≠ 3 * pixelCount s) :
    prInverse s = .error ⟨.lengthMismatch, s⟩ := by
  rw [prInverse, knownPredictor_eq_true.2 known, need_true_bind, decide_eq_false ne, need_false_bind]

end

/-- Settles O49. -/
theorem prInvRestoresGrid : Obligations.PrInvRestoresGrid := by
  intro s clear wf known
  refine ⟨fun len => ?_, fun ne => ?wrongLength⟩
  case wrongLength =>
    rw [exec_prInv clear, prInverse_wrongLength known ne, conclude_raised clear]
    rfl
  obtain ⟨j, inside, fitting, overflowing⟩ := prInverse_walk known len
  refine ⟨j, _, fun room => ?complete, fun full => ?noRoom, rebuilt_rebuiltPix known wf _ fun pos => ?grid⟩
  case complete =>
    obtain ⟨rfl, e⟩ := fitting room
    exact ⟨rfl, by rw [exec_prInv clear, e]; rfl⟩
  case noRoom =>
    obtain ⟨lt, last, next, e⟩ := overflowing full
    refine ⟨lt, last, next, ?_⟩
    rw [exec_prInv clear, e, conclude_raised (s := inverseAt s j) clear]
    rfl
  case grid => exact Nat.pos_of_mul_pos_right (pos.trans_le inside)

/-! ## There and back (R187) -/

/-- What is rebuilt from the residuals of a grid is that grid: a byte's pixel is predicted from bytes before it, which are
already those of the grid. -/
theorem Rebuilt.read_eq {p : BitVec 16} {w n : Nat} {grid before after : Memory} {res : List Byte}
    (rebuilt : Rebuilt p w before res after n) (known : p = 0#16 ∨ p = 1#16) (width_pos : 0 < n → 0 < w)
    (residuals : ∀ i < n, ∀ c < 3, (res.getD (3 * i + c) 0#8).toNat = residualChannel p w grid i c) {b : Nat}
    (inside : b < 3 * n) : after.read b = grid.read b := by
  obtain ⟨-, -, restored⟩ := rebuilt
  induction b using Nat.strong_induction_on with
  | _ b ih =>
    have pixel : b / 3 < n := by omega
    have channel : b % 3 < 3 := Nat.mod_lt _ (by omega)
    have predicted : predictedChannel p w after (b / 3) (b % 3) = predictedChannel p w grid (b / 3) (b % 3) :=
      predictedChannel_congr known (width_pos (by omega)) (fun k lt => ih k (by omega) (by omega)) channel
    have same : channelAt after (b / 3) (b % 3) = channelAt grid (b / 3) (b % 3) := by
      rw [restored _ pixel _ channel, residuals _ pixel _ channel, predicted, predictedChannel_add_residualChannel]
    rw [channelAt, channelAt, Nat.div_add_mod] at same
    exact BitVec.eq_of_toNat_eq same

/-- A `PR.FWD` that ends without a fault had a known predictor. -/
theorem known_of_exec_prFwd {s t : State} (clear : s.flt.fault = false) (e : exec .prFwd s = .next t)
    (noFault : t.flt.fault = false) : s.conf.pred = 0#16 ∨ s.conf.pred = 1#16 := by
  by_contra unknown
  obtain ⟨notLeft, notAverage⟩ := not_or.1 unknown
  obtain ⟨raised, -⟩ := unknownPredictorFaults s clear notLeft notAverage
  cases e.symm.trans raised
  cases noFault

/-- Settles O50: PR.FWD left the residuals of the grid, and PR.INV rebuilds a grid from them. -/
theorem prInvUndoesPrFwd : Obligations.PrInvUndoesPrFwd := by
  intro s t m clear wf e noFault
  have known := known_of_exec_prFwd clear e noFault
  obtain ⟨j, bytes, complete, noRoom, length, residuals⟩ := prFwdMakesResiduals s clear known
  cases room : gridFits s (pixelCount s) with
  | false =>
    obtain ⟨-, -, -, faulted⟩ := noRoom room
    cases e.symm.trans faulted
    cases noFault
  | true =>
    obtain ⟨rfl, completed⟩ := complete room
    cases e.symm.trans completed
    obtain ⟨pixFits, -⟩ := Bool.and_eq_true_iff.1 room
    obtain ⟨rebuilds, -⟩ :=
      prInvRestoresGrid (((s.setRes ⟨bytes, 0⟩).setPrPos (pixelCount s)).setPix m) clear wf known
    obtain ⟨k, after, answers, -, rebuilt⟩ := rebuilds length
    obtain ⟨rfl, answer⟩ := answers pixFits
    exact ⟨_, answer, clear, fun b inside =>
      rebuilt.read_eq known (fun pos => Nat.pos_of_mul_pos_right pos) residuals inside⟩

end Sys2Proof.Machine

/-! PROOFS. Decoding a whole stream (45_stream_ops.md R202, R204): the loop of `dec_bytes` follows the decoder symbol by
symbol, the decoder comes to one of three ends on every content of BS, and `dec_grid` rebuilds a grid from what was
decoded. -/

namespace Sys2Proof.Machine

/-! ## One symbol decoded and counted (R202) -/

/-- The state after a symbol is decoded and the model updated with it. -/
def decodeStep (s : State) : State := smUpdate (decodedSymbol s) ((s.setAd (decoded s).1).setBr (decoded s).2)

section
variable {s t : State} {sym : Nat}

theorem decSymbol_answers (small : total s.freq ≤ 65535) : decSymbol s = .ok (decodedSymbol s, decodeStep s) := by
  rw [decSymbol_eq, adDecode_eq small, ok_bind]
  rfl

theorem of_decSymbol (h : decSymbol s = .ok (sym, t)) :
    total s.freq ≤ 65535 ∧ sym = decodedSymbol s ∧ t = decodeStep s := by
  rcases Nat.lt_or_ge 65535 (total s.freq) with overfull | small
  · rw [decSymbol_eq, adDecode_overfull overfull] at h
    cases h
  · cases (decSymbol_answers small).symm.trans h
    exact ⟨small, rfl, rfl⟩

/-- Decoding a symbol neither reads nor writes RES. -/
theorem decSymbol_setRes (h : decSymbol s = .ok (sym, t)) (v : Residuals) :
    decSymbol (s.setRes v) = .ok (sym, t.setRes v) := by
  obtain ⟨small, rfl, rfl⟩ := of_decSymbol h
  exact decSymbol_answers (s := s.setRes v) small

theorem decSymbol_finished (h : decSymbol s = .ok (sym, t)) : t.ad.finished = (decide (sym = 256) || s.ad.finished) := by
  obtain ⟨-, rfl, rfl⟩ := of_decSymbol h
  exact (decoded_flags s).2

end

/-! ## What decoding leaves alone (R206) -/

/-- `t` differs from `s` in SM, AD, BR and RES at most. -/
structure SameOutsideDecoding (s t : State) : Prop where
  flt : t.flt = s.flt
  caps : t.caps = s.caps
  conf : t.conf = s.conf
  x : t.x = s.x
  ae : t.ae = s.ae
  bw : t.bw = s.bw
  bs : t.bs = s.bs
  pix : t.pix = s.pix
  prPos : t.prPos = s.prPos

theorem SameOutsideDecoding.trans {s t u : State} (first : SameOutsideDecoding s t) (next : SameOutsideDecoding t u) :
    SameOutsideDecoding s u where
  flt := next.flt.trans first.flt
  caps := next.caps.trans first.caps
  conf := next.conf.trans first.conf
  x := next.x.trans first.x
  ae := next.ae.trans first.ae
  bw := next.bw.trans first.bw
  bs := next.bs.trans first.bs
  pix := next.pix.trans first.pix
  prPos := next.prPos.trans first.prPos

theorem sameOutsideDecoding_start (s : State) : SameOutsideDecoding s (decodeStart s) :=
  ⟨rfl, rfl, rfl, rfl, rfl, rfl, rfl, rfl, rfl⟩

section
variable {s t : State} {data : List Byte}

theorem sameOutsideDecoding_decSymbol {sym : Nat} (h : decSymbol s = .ok (sym, t)) : SameOutsideDecoding s t := by
  obtain ⟨-, -, rfl⟩ := of_decSymbol h
  exact ⟨rfl, rfl, rfl, rfl, rfl, rfl, rfl, rfl, rfl⟩

theorem DecodesData.sameOutside (h : DecodesData s data t) : SameOutsideDecoding s t := by
  induction h with
  | nil s => exact ⟨rfl, rfl, rfl, rfl, rfl, rfl, rfl, rfl, rfl⟩
  | cons step _ ih => exact (sameOutsideDecoding_decSymbol step).trans ih

theorem DecodesTo.sameOutside (h : DecodesTo s data t) : SameOutsideDecoding s t := by
  obtain ⟨u, run, step⟩ := h
  exact run.sameOutside.trans (sameOutsideDecoding_decSymbol step)

/-- The same of a whole stream, begun as `dec_bytes` begins. -/
theorem DecodesData.outside (h : DecodesData (decodeStart s) data t) : SameOutsideDecoding s t :=
  (sameOutsideDecoding_start s).trans h.sameOutside

theorem DecodesTo.outside (h : DecodesTo (decodeStart s) data t) : SameOutsideDecoding s t :=
  (sameOutsideDecoding_start s).trans h.sameOutside

theorem toNat_ne_eos (b : Byte) : b.toNat ≠ 256 := by
  have := b.isLt
  omega

/-- No data symbol finishes the decoder. -/
theorem DecodesData.finished (h : DecodesData s data t) : t.ad.finished = s.ad.finished := by
  induction h with
  | nil s => rfl
  | cons step _ ih => rw [ih, decSymbol_finished step, decide_eq_false (toNat_ne_eos _), Bool.false_or]

theorem DecodesTo.finished (h : DecodesTo s data t) : t.ad.finished = true := by
  obtain ⟨u, -, step⟩ := h
  rw [decSymbol_finished step]
  rfl

end

/-! ## The loop follows the decoder (R202) -/

section
variable {s t : State} {data : List Byte} {b : Byte}

theorem decLoop_eos (h : decSymbol s = .ok (256, t)) (room : Nat) : decLoop room s = .ok t := by
  cases room with
  | zero => rw [decLoop_zero, h, ok_bind, if_pos rfl]
  | succ room => rw [decLoop_succ, h, ok_bind, if_pos rfl]

theorem decLoop_tooMany (h : decSymbol s = .ok (b.toNat, t)) : decLoop 0 s = .error ⟨.lengthMismatch, t⟩ := by
  rw [decLoop_zero, h, ok_bind, if_neg (toNat_ne_eos b)]

theorem decLoop_fitting (h : decSymbol s = .ok (b.toNat, t)) (fit : fits t.caps.resCap (t.res.bytes.length + 1) = true)
    (room : Nat) : decLoop (room + 1) s = decLoop room (t.setRes ⟨t.res.bytes ++ [b], t.res.rcur⟩) := by
  rw [decLoop_succ, h, ok_bind, if_neg (toNat_ne_eos b), appendRes, List.length_singleton, fit, need_true_bind, ok_bind,
    BitVec.ofNat_toNat, BitVec.setWidth_eq]

theorem decLoop_overflowing (h : decSymbol s = .ok (b.toNat, t))
    (full : fits t.caps.resCap (t.res.bytes.length + 1) = false) (room : Nat) :
    decLoop (room + 1) s = .error ⟨.capacity, t⟩ := by
  rw [decLoop_succ, h, ok_bind, if_neg (toNat_ne_eos b), appendRes, List.length_singleton, full, need_false_bind,
    error_bind]

/-- Data symbols that fit RES behind the bytes `before` are appended one after the other. -/
theorem DecodesData.decLoop (h : DecodesData s data t) {before : List Byte}
    (fit : fits s.caps.resCap (before.length + data.length) = true) (room : Nat) :
    decLoop (room + data.length) (s.setRes ⟨before, 0⟩) = decLoop room (t.setRes ⟨before ++ data, 0⟩) := by
  induction h generalizing before with
  | nil s => rw [List.append_nil]; rfl
  | @cons s t u b rest step _ ih =>
    have caps := (sameOutsideDecoding_decSymbol step).caps
    rw [List.length_cons, ← caps] at fit
    rw [List.length_cons, ← Nat.add_assoc,
      decLoop_fitting (decSymbol_setRes step ⟨before, 0⟩) (fits_mono fit (by simp))]
    have next := ih (before := before ++ [b]) (fits_mono fit (by simp; omega))
    rw [List.append_assoc, List.singleton_append] at next
    exact next

theorem DecodesData.last (h : DecodesData s (data ++ [b]) t) :
    ∃ u, DecodesData s data u ∧ decSymbol u = .ok (b.toNat, t) := by
  induction data generalizing s with
  | nil =>
    obtain _ | ⟨step, _ | _⟩ := h
    exact ⟨s, .nil s, step⟩
  | cons c rest ih =>
    obtain _ | ⟨step, more⟩ := h
    obtain ⟨u, run, final⟩ := ih more
    exact ⟨u, .cons step run, final⟩

end

/-! ## `dec_bytes`, its three ends (R202, R206) -/

section
variable {s t : State} {data : List Byte} {limit : Nat}

/-- RES is empty when the loop begins. -/
theorem decBytes_eq (limit : Nat) (s : State) : decBytes limit s = decLoop limit ((decodeStart s).setRes ⟨[], 0⟩) := rfl

/-- The loop reaches every data symbol that the limit allows and RES has room for. -/
theorem decBytes_after (run : DecodesData (decodeStart s) data t) (room : Nat)
    (fit : fits s.caps.resCap data.length = true) :
    decBytes (room + data.length) s = decLoop room (t.setRes ⟨data, 0⟩) := by
  rw [decBytes_eq, run.decLoop (by rwa [List.length_nil, Nat.zero_add]), List.nil_append]

theorem decBytes_complete (h : DecodesTo (decodeStart s) data t) (le : data.length ≤ limit)
    (fit : fits s.caps.resCap data.length = true) : decBytes limit s = .ok (t.setRes ⟨data, 0⟩) := by
  obtain ⟨u, run, eos⟩ := h
  obtain ⟨room, rfl⟩ := Nat.exists_eq_add_of_le' le
  rw [decBytes_after run room fit, decLoop_eos (decSymbol_setRes eos _)]

theorem decBytes_tooMany (h : DecodesData (decodeStart s) data t) (len : data.length = limit + 1)
    (fit : fits s.caps.resCap limit = true) :
    decBytes limit s = .error ⟨.lengthMismatch, t.setRes ⟨data.dropLast, 0⟩⟩ := by
  obtain rfl | ⟨kept, b, rfl⟩ := List.eq_nil_or_concat' data
  · cases len
  obtain ⟨u, run, extra⟩ := h.last
  obtain rfl : kept.length = limit := by simpa using len
  have after := decBytes_after run 0 fit
  rw [Nat.zero_add] at after
  rw [after, decLoop_tooMany (decSymbol_setRes extra _), List.dropLast_concat]

theorem decBytes_noRoom (h : DecodesData (decodeStart s) data t) (le : data.length ≤ limit)
    (fit : fits s.caps.resCap (data.length - 1) = true) (full : fits s.caps.resCap data.length = false) :
    decBytes limit s = .error ⟨.capacity, t.setRes ⟨data.dropLast, 0⟩⟩ := by
  obtain rfl | ⟨kept, b, rfl⟩ := List.eq_nil_or_concat' data
  · cases (fits_zero s.caps.resCap).symm.trans full
  obtain ⟨u, run, extra⟩ := h.last
  have caps := h.outside.caps
  rw [List.length_append, List.length_singleton] at le fit full
  obtain ⟨room, rfl⟩ := Nat.exists_eq_add_of_le' le
  rw [show room + (kept.length + 1) = room + 1 + kept.length by omega, decBytes_after run (room + 1) fit,
    decLoop_overflowing (decSymbol_setRes extra _) (by rw [← caps] at full; exact full), List.dropLast_concat]

theorem exec_decBytes {limit : Imm} (clear : s.flt.fault = false) :
    exec (.decBytes limit) s = conclude (encode (.decBytes limit)) ((decBytes limit.toNat s).map returnResLen) := by
  rw [exec, execDecBytes, command_runs (i := .decBytes limit) clear (aboveRange_none.2 (imm_le limit))]

end

/-- Settles O56: where the decoder's symbols lead the loop, and the state in which it raises. -/
theorem decBytesFollowsTheDecoder : Obligations.DecBytesFollowsTheDecoder := by
  intro s t data limit clear
  refine ⟨fun run le fit => ?complete, fun run len fit => ?tooMany, fun run le fit full => ?noRoom⟩
  case complete =>
    rw [exec_decBytes clear, decBytes_complete run le fit]
    rfl
  case tooMany =>
    have flt := run.outside.flt
    rw [exec_decBytes clear, decBytes_tooMany run len fit, Except.map,
      conclude_raised (by rw [setRes_flt, flt, clear])]
    rfl
  case noRoom =>
    have flt := run.outside.flt
    rw [exec_decBytes clear, decBytes_noRoom run le fit full, Except.map,
      conclude_raised (by rw [setRes_flt, flt, clear])]
    rfl

/-! ## The decoder on any stream (42_arith_decoder.md R141) -/

/-- What each symbol needs: the model in order, and the decoder primed and in order. -/
structure DecodeReady (s : State) : Prop where
  model : ModelOk s.freq
  primed : s.ad.primed = true
  decoder : DecoderOk s.ad

/-- Priming makes the decoder ready, whatever BS holds. -/
theorem decodeReady_start (s : State) : DecodeReady (decodeStart s) :=
  ⟨modelOk_freshCounts, rfl, fun _ => ⟨intervalOk_full, Nat.zero_le _, toNat_le_mask _⟩⟩

section
variable {s : State} (ready : DecodeReady s)
include ready

theorem DecodeReady.step : DecodeReady (decodeStep s) :=
  ⟨modelOk_updateCounts ready.model _, (decoded_flags s).1.trans ready.primed,
    decoderOk_decoded ready.model ready.decoder s.bs s.br⟩

/-- A ready decoder gives the end of the stream or a data symbol. -/
theorem DecodeReady.decSymbol_cases :
    decSymbol s = .ok (256, decodeStep s) ∨ ∃ b : Byte, decSymbol s = .ok (b.toNat, decodeStep s) := by
  obtain ⟨-, -, small⟩ := ready.model
  obtain ⟨normalised, lo, hi⟩ := ready.decoder ready.primed
  obtain ⟨le, -⟩ := narrowedDecoder_bounds ready.model normalised lo hi
  have answer := decSymbol_answers small
  rcases le.lt_or_eq with data | eos
  · exact .inr ⟨BitVec.ofNat 8 (decodedSymbol s), by rw [answer, BitVec.toNat_ofNat, Nat.mod_eq_of_lt data]⟩
  · exact .inl (eos ▸ answer)

end

/-- Where the decoder comes to with `room` data symbols still allowed and `held` bytes in a RES of capacity `cap`: to
the end of the stream, to a symbol beyond the limit, or to one beyond the capacity. -/
inductive DecodingEnd (cap : Option Nat) (held room : Nat) (s : State) : Prop where
  | complete {data : List Byte} {t : State} (run : DecodesTo s data t) (le : data.length ≤ room)
      (fit : fits cap (held + data.length) = true)
  | tooMany {data : List Byte} {t : State} (run : DecodesData s data t) (len : data.length = room + 1)
      (fit : fits cap (held + room) = true)
  | noRoom {data : List Byte} {t : State} {kept : Nat} (run : DecodesData s data t) (len : data.length = kept + 1)
      (lt : kept < room) (fit : fits cap (held + kept) = true) (full : fits cap (held + kept + 1) = false)

/-- One data symbol before the end. -/
theorem DecodingEnd.cons {cap : Option Nat} {held room : Nat} {s t : State} {b : Byte}
    (step : decSymbol s = .ok (b.toNat, t)) (rest : DecodingEnd cap (held + 1) room t) :
    DecodingEnd cap held (room + 1) s := by
  have shift (n : Nat) : held + 1 + n = held + (n + 1) := Nat.add_right_comm held 1 n
  cases rest with
  | complete run le fit =>
    obtain ⟨u, more, eos⟩ := run
    exact .complete ⟨u, .cons step more, eos⟩ (Nat.succ_le_succ le) (shift _ ▸ fit)
  | tooMany run len fit => exact .tooMany (.cons step run) (congrArg (· + 1) len) (shift _ ▸ fit)
  | noRoom run len lt fit full =>
    exact .noRoom (.cons step run) (congrArg (· + 1) len) (Nat.succ_lt_succ lt) (shift _ ▸ fit) (shift _ ▸ full)

/-- On every content of BS the decoder comes to one of these ends. -/
theorem DecodeReady.decodingEnd {s : State} (ready : DecodeReady s) {cap : Option Nat} {held : Nat}
    (fit : fits cap held = true) (room : Nat) : DecodingEnd cap held room s := by
  induction room generalizing s held with
  | zero =>
    rcases ready.decSymbol_cases with eos | ⟨b, step⟩
    · exact .complete ⟨s, .nil s, eos⟩ le_rfl fit
    · exact .tooMany (.cons step (.nil _)) rfl fit
  | succ room ih =>
    rcases ready.decSymbol_cases with eos | ⟨b, step⟩
    · exact .complete ⟨s, .nil s, eos⟩ (Nat.zero_le _) fit
    · cases fitsNext : fits cap (held + 1) with
      | true => exact .cons step (ih ready.step fitsNext)
      | false => exact .noRoom (.cons step (.nil _)) rfl room.succ_pos fit fitsNext

/-- Settles O57: the decoder comes to one of three ends, and `DEC.BYTES` follows it there. -/
theorem decBytesEndsOnAnyStream : Obligations.DecBytesEndsOnAnyStream := by
  intro s limit clear
  cases (decodeReady_start s).decodingEnd (fits_zero s.caps.resCap) limit.toNat with
  | @complete data t run le fit =>
    rw [Nat.zero_add] at fit
    obtain ⟨completes, -⟩ := decBytesFollowsTheDecoder s t data limit clear
    obtain ⟨flt, -, conf, x, ae, bw, bs, pix, prPos⟩ := run.outside
    refine ⟨_, completes run le fit, .inl ⟨flt, run.finished, le, ?_⟩, ?_, bs, pix, ae, bw, prPos, conf⟩
    · rw [← x]
      rfl
    · exact fit
  | @tooMany data t run len fit =>
    rw [Nat.zero_add] at fit
    obtain ⟨-, mismatches, -⟩ := decBytesFollowsTheDecoder s t data limit clear
    obtain ⟨flt, -, conf, x, ae, bw, bs, pix, prPos⟩ := run.outside
    have kept : data.dropLast.length = limit.toNat := by rw [List.length_dropLast, len, Nat.add_sub_cancel]
    refine ⟨_, mismatches run len fit, .inr (.inl ⟨rfl, run.finished, kept, x⟩), ?_, bs, pix, ae, bw, prPos, conf⟩
    exact kept ▸ fit
  | @noRoom data t kept run len lt fit full =>
    rw [Nat.zero_add] at fit full
    obtain ⟨-, -, overflows⟩ := decBytesFollowsTheDecoder s t data limit clear
    obtain ⟨flt, -, conf, x, ae, bw, bs, pix, prPos⟩ := run.outside
    obtain rfl : data.dropLast.length = kept := by rw [List.length_dropLast, len, Nat.add_sub_cancel]
    refine ⟨_, overflows run (len ▸ lt) (by rwa [len]) (by rwa [len]), ?_, fit, bs, pix, ae, bw, prPos, conf⟩
    exact .inr (.inr ⟨rfl, run.finished, lt, full, x⟩)

/-! ## A grid rebuilt from what was decoded (R204, R208) -/

theorem decGrid_known {s : State} (known : s.conf.pred = 0#16 ∨ s.conf.pred = 1#16) :
    decGrid s = decBytes (3 * pixelCount s) s >>= prInverse := by
  rw [decGrid, knownPredictor_eq_true.2 known, need_true_bind]

/-- Decoded data in RES and `j` pixels rebuilt from it: `PR.INV` starts on the grid and the configuration of the state
that decoding started from. -/
theorem inverseAt_decoded {s t : State} (same : SameOutsideDecoding s t) (data : List Byte) (j : Nat) :
    inverseAt (t.setRes ⟨data, 0⟩) j =
      ((t.setPix (rebuiltPix s.conf.pred s.conf.width.toNat s.pix data j)).setRes ⟨data, 3 * j⟩).setPrPos j := by
  rw [← same.conf, ← same.pix]
  rfl

/-- Settles O58: `dec_bytes` with the limit 3·W·H, and then the inverse traversal in the state it ends in. -/
theorem decGridRebuildsGrid : Obligations.DecGridRebuildsGrid := by
  intro s t data clear wf known n unwritten
  have run : decGrid s = decBytes (3 * n) s >>= prInverse := decGrid_known known
  have kept (same : SameOutsideDecoding s t) : unwritten := ⟨same.pix, same.prPos, same.x⟩
  have clearAt (same : SameOutsideDecoding s t) (v : Residuals) : (t.setRes v).flt.fault = false := by
    rw [setRes_flt, same.flt, clear]
  refine ⟨fun decodes len fit => ?grid, fun decodes lt fit => ⟨kept decodes.outside, ?fewer⟩,
    fun decodes len fit => ⟨kept decodes.outside, ?tooMany⟩, fun decodes le fit full => ⟨kept decodes.outside, ?noRoom⟩⟩
  case grid =>
    have same := decodes.outside
    have count : pixelCount (t.setRes ⟨data, 0⟩) = n := by rw [pixelCount, setRes_conf, same.conf]
    have decoded := decBytes_complete decodes len.le (len ▸ fit)
    obtain ⟨j, inside, fitting, overflowing⟩ := prInverse_walk (s := t.setRes ⟨data, 0⟩)
      (by rwa [setRes_conf, same.conf]) (by rw [count]; exact len)
    rw [count, setRes_caps, same.caps] at fitting overflowing
    rw [count] at inside
    refine ⟨j, rebuiltPix s.conf.pred s.conf.width.toNat s.pix data j, fun room => ?complete, fun full => ?overflow,
      rebuilt_rebuiltPix known wf data fun pos => Nat.pos_of_mul_pos_right (pos.trans_le inside)⟩
    case complete =>
      obtain ⟨rfl, e⟩ := fitting room
      refine ⟨rfl, ?_⟩
      rw [exec_decGrid clear, run, decoded, ok_bind, e, Except.map, conclude_ok, inverseAt_decoded same, ← len]
      rfl
    case overflow =>
      obtain ⟨lt, last, next, e⟩ := overflowing full
      refine ⟨lt, last, next, ?_⟩
      rw [exec_decGrid clear, run, decoded, ok_bind, e, Except.map,
        conclude_raised (s := inverseAt (t.setRes ⟨data, 0⟩) j) (clearAt same ⟨data, 0⟩), inverseAt_decoded same]
      rfl
  case fewer =>
    have same := decodes.outside
    rw [exec_decGrid clear, run, decBytes_complete decodes lt.le fit, ok_bind,
      prInverse_wrongLength (by rwa [setRes_conf, same.conf])
        (by rw [pixelCount, setRes_conf, same.conf]; exact lt.ne), Except.map, conclude_raised (clearAt same _)]
    rfl
  case tooMany =>
    rw [exec_decGrid clear, run, decBytes_tooMany decodes len fit, error_bind, Except.map,
      conclude_raised (clearAt decodes.outside _)]
    rfl
  case noRoom =>
    rw [exec_decGrid clear, run, decBytes_noRoom decodes le fit full, error_bind, Except.map,
      conclude_raised (clearAt decodes.outside _)]
    rfl

end Sys2Proof.Machine

/-! PROOFS. Coding a whole stream (45_stream_ops.md R201, R203): the state coding ends in with room in BS, the raise
without, and that the micro-operations one by one are the procedure of `ENC.BYTES`. -/

namespace Sys2Proof.Machine

/-! ## The states coding goes through (R201) -/

/-- Where `enc_bytes` starts. -/
def codeStart (s : State) : State := ((smInit s).setWriter Writer.empty).setAe Encoder.start

/-- One symbol coded and the model updated with it, with room in BS. -/
def codeStep (s : State) (sym : Nat) : State :=
  smUpdate sym ((s.setWriter (coded s.freq sym s.ae s.writer).2).setAe (coded s.freq sym s.ae s.writer).1)

/-- `ae_finish` with room in BS (41_arith_encoder.md R119). -/
def codeFinish (s : State) : State :=
  (s.setWriter (finishBits s.ae s.writer).finish).setAe (markDone { s.ae with pending := 0 })

/-- The symbols of a byte sequence and its end. -/
def streamSymbols (data : List Byte) : List Nat := data.map BitVec.toNat ++ [256]

/-- All symbols of RES coded, with room in BS. -/
def codedSymbols (s : State) : State := (streamSymbols s.res.bytes).foldl codeStep (codeStart s)

/-- The whole stream coded and finished, with room in BS. -/
def codedStream (s : State) : State := codeFinish (codedSymbols s)

theorem encBytes_eq (s : State) : encBytes s = encSymbols (streamSymbols s.res.bytes) (codeStart s) >>= aeFinish := rfl

section
variable (s : State) (c : Capacities)

theorem codeStep_withCaps (sym : Nat) : codeStep (s.withCaps c) sym = (codeStep s sym).withCaps c := rfl
theorem codeFinish_withCaps : codeFinish (s.withCaps c) = (codeFinish s).withCaps c := rfl

theorem foldl_codeStep_withCaps (syms : List Nat) :
    syms.foldl codeStep (s.withCaps c) = (syms.foldl codeStep s).withCaps c := by
  induction syms generalizing s with
  | nil => rfl
  | cons sym rest ih => rw [List.foldl_cons, List.foldl_cons, codeStep_withCaps, ih]

theorem codedSymbols_withCaps : codedSymbols (s.withCaps c) = (codedSymbols s).withCaps c :=
  foldl_codeStep_withCaps (codeStart s) c (streamSymbols s.res.bytes)

/-- No capacity enters into what is coded. -/
theorem codedStream_withCaps : codedStream (s.withCaps c) = (codedStream s).withCaps c := by
  rw [codedStream, codedSymbols_withCaps, codeFinish_withCaps, codedStream]

end

/-! ## BS grows (43_bitstream.md R152) -/

theorem bs_prefix_emitBit (b : Bool) (pending : Nat) (w : Writer) : w.bs <+: (emitBit b pending w).bs :=
  (bs_prefix_put b w).trans (bs_prefix_putMany _ _ _)

theorem bs_prefix_normalise (n : Nat) (e : Encoder) (w : Writer) : w.bs <+: (normalise n e w).2.bs := by
  induction n generalizing e w with
  | zero => exact List.prefix_refl _
  | succ n ih =>
    cases h : e.toInterval.shift? with
    | none => rw [normalise_stop w h]
    | some k =>
      cases k with
      | top b => rw [normalise_top w h]; exact (bs_prefix_emitBit b _ w).trans (ih _ _)
      | underflow => rw [normalise_underflow w h]; exact ih _ _

theorem bs_prefix_coded (freq : List Nat) (sym : Nat) (e : Encoder) (w : Writer) : w.bs <+: (coded freq sym e w).2.bs :=
  bs_prefix_normalise _ _ _

theorem bs_prefix_aeFinish (e : Encoder) (w : Writer) : w.bs <+: (finishBits e w).finish.bs := by
  rw [finish_eq_putMany]
  exact (((bs_prefix_put _ w).trans (bs_prefix_put _ _)).trans (bs_prefix_putMany _ _ _)).trans (bs_prefix_putMany _ _ _)

/-! ## Within the capacity of BS, or a raise there (20_memory.md R49, 60_exceptions.md R244) -/

/-- From `s` the procedure `p` ends in `t`, if the bytes of `t` fit BS; if they do not, it raises CAPACITY in a state
whose bytes do. -/
structure EndsWithinBs (p : Proc State) (s t : State) : Prop where
  grows : s.bs.length ≤ t.bs.length
  caps : t.caps = s.caps
  completes : fits s.caps.bsCap t.bs.length = true → p = .ok t
  overflows : fits s.caps.bsCap s.bs.length = true → fits s.caps.bsCap t.bs.length = false →
    ∃ u, p = .error ⟨.capacity, u⟩ ∧ fits s.caps.bsCap u.bs.length = true

theorem EndsWithinBs.bind {p : Proc State} {k : State → Proc State} {s t u : State} (first : EndsWithinBs p s t)
    (next : EndsWithinBs (k t) t u) : EndsWithinBs (p >>= k) s u where
  grows := first.grows.trans next.grows
  caps := next.caps.trans first.caps
  completes fit := by
    rw [first.completes (fits_mono fit next.grows), ok_bind]
    exact next.completes (by rwa [first.caps])
  overflows start full := by
    cases between : fits s.caps.bsCap t.bs.length with
    | true =>
      rw [first.completes between, ok_bind]
      simpa only [first.caps] using next.overflows (by rwa [first.caps]) (by rwa [first.caps])
    | false =>
      obtain ⟨v, raised, fit⟩ := first.overflows start between
      exact ⟨v, by rw [raised, error_bind], fit⟩

/-- An answer that leaves BS and the capacities as they are. -/
theorem EndsWithinBs.ok {s t : State} (bs : t.bs = s.bs) (caps : t.caps = s.caps) : EndsWithinBs (.ok t) s t where
  grows := by rw [bs]
  caps := caps
  completes _ := rfl
  overflows fit full := by cases (bs ▸ fit).symm.trans full

theorem EndsWithinBs.map {p : Proc State} {s t : State} (h : EndsWithinBs p s t) (f : State → State)
    (bs : (f t).bs = t.bs) (caps : (f t).caps = t.caps) : EndsWithinBs (p >>= fun t => .ok (f t)) s (f t) :=
  h.bind (.ok bs caps)

theorem endsWithinBs_commitWriter {w : Writer} {s : State} (grown : s.bs <+: w.bs) :
    EndsWithinBs (commitWriter w s) s (s.setWriter w) where
  grows := grown.length_le
  caps := rfl
  completes fit := commitWriter_fitting (.inr fit)
  overflows start full := by
    rw [setWriter_bs] at full
    refine ⟨s, commitWriter_overflowing fun fit => ?_, start⟩
    rcases fit with same | fit
    · cases (same ▸ start).symm.trans full
    · cases fit.symm.trans full

section
variable {s : State}

theorem endsWithinBs_encSymbol (model : ModelOk s.freq) (sym : Nat) :
    EndsWithinBs (encSymbol sym s) s (codeStep s sym) := by
  obtain ⟨-, -, small⟩ := model
  have commit : EndsWithinBs (commitWriter (coded s.freq sym s.ae s.writer).2 s) s _ :=
    endsWithinBs_commitWriter (bs_prefix_coded _ _ _ s.writer)
  rw [encSymbol_eq, aeEncode_eq small]
  exact (commit.map (·.setAe (coded s.freq sym s.ae s.writer).1) rfl rfl).map (smUpdate sym) rfl rfl

theorem endsWithinBs_encSymbols (model : ModelOk s.freq) (syms : List Nat) :
    EndsWithinBs (encSymbols syms s) s (syms.foldl codeStep s) := by
  induction syms generalizing s with
  | nil => exact .ok rfl rfl
  | cons sym rest ih => exact (endsWithinBs_encSymbol model sym).bind (ih (modelOk_updateCounts model sym))

theorem endsWithinBs_aeFinish : EndsWithinBs (aeFinish s) s (codeFinish s) :=
  (endsWithinBs_commitWriter (bs_prefix_aeFinish s.ae s.writer)).bind (.ok rfl rfl)

/-- Coding starts with an empty BS and a fresh model, whatever the state was. -/
theorem endsWithinBs_encBytes (s : State) : EndsWithinBs (encBytes s) (codeStart s) (codedStream s) :=
  (endsWithinBs_encSymbols modelOk_freshCounts _).bind endsWithinBs_aeFinish

end

/-! ## What coding leaves alone (R205) -/

/-- Coding leaves alone what it does not name, and FAULT: a raise is recorded by the command (60_exceptions.md R244). -/
def KeepsOutsideCoding (s t : State) : Prop := SameOutsideCoding s t ∧ t.flt = s.flt

theorem keepsOutsideCoding_keptByEncoding (s : State) :
    KeptByEncoding (fun r => KeepsOutsideCoding s r.state) (KeepsOutsideCoding s) where
  start _ h := h
  encode t sym _ h := by rcases aeEncode_cases sym t with e | e | ⟨-, -, e⟩ <;> rw [e] <;> exact h
  update _ _ h := h
  finish t h := by rcases aeFinish_cases t with e | ⟨-, e⟩ <;> rw [e] <;> exact h

theorem encBytes_keepsOutside (s : State) :
    Ends (fun r => KeepsOutsideCoding s r.state) (KeepsOutsideCoding s) (encBytes s) :=
  (keepsOutsideCoding_keptByEncoding s).encBytes ⟨⟨rfl, rfl, rfl, rfl, rfl, rfl, rfl⟩, rfl⟩

section
variable {s : State}

/-- If the stream fits BS, `enc_bytes` ends with it. -/
theorem encBytes_fitting (fit : fits s.caps.bsCap (codedStream s).bs.length = true) : encBytes s = .ok (codedStream s) :=
  (endsWithinBs_encBytes s).completes fit

/-- If not, it raises CAPACITY with as much of it as fits. -/
theorem encBytes_overflowing (full : fits s.caps.bsCap (codedStream s).bs.length = false) :
    ∃ u, encBytes s = .error ⟨.capacity, u⟩ ∧ fits s.caps.bsCap u.bs.length = true ∧ KeepsOutsideCoding s u := by
  obtain ⟨u, raised, fit⟩ := (endsWithinBs_encBytes s).overflows (fits_zero _) full
  have kept := encBytes_keepsOutside s
  rw [raised] at kept
  exact ⟨u, raised, fit, kept⟩

theorem codedStream_caps (s : State) : (codedStream s).caps = s.caps := (endsWithinBs_encBytes s).caps

theorem codedStream_keepsOutside (s : State) : KeepsOutsideCoding s (codedStream s) := by
  have kept := encBytes_keepsOutside (s.withCaps ⟨none, none, none⟩)
  rw [encBytes_fitting (s := s.withCaps ⟨none, none, none⟩) rfl, codedStream_withCaps] at kept
  exact kept

/-- The finish leaves nothing in BW (41_arith_encoder.md R119). -/
theorem codedStream_bw (s : State) : (codedStream s).bw = ⟨0#8, 0⟩ := by
  have bytes := aeFinish_bytes (codedSymbols s).ae (codedSymbols s).writer
  rw [codedStream, codeFinish, bytes]
  rfl

theorem exec_encBytes (clear : s.flt.fault = false) :
    exec .encBytes s = conclude (encode .encBytes) ((encBytes s).map returnBsLen) := by
  rw [exec, execEncBytes, command_runs clear rfl]

end

/-! ## The micro-operations one by one (70_reset_and_hazards.md R285) -/

/-- Commands one after the other end as the procedure `p` does; `INFO` has the word of the command that raised. -/
def RunAs (is : List Instr) (p : Proc State) (s : State) : Prop := ∃ w, runCommands is s = conclude w p

theorem runCommands_append {is js : List Instr} {s t : State} (first : runCommands is s = .next t) :
    runCommands (is ++ js) s = runCommands js t := by
  induction is generalizing s with
  | nil => cases first; rfl
  | cons i rest ih =>
    simp only [List.cons_append, runCommands] at first ⊢
    cases e : exec i s with
    | next u => rw [e] at first; exact ih first
    | fault f => rw [e] at first; cases first
    | refused r => rw [e] at first; cases first

/-- One part of the commands after the other: once a fault is taken, the rest is dropped (60_exceptions.md R245). -/
theorem RunAs.append {is js : List Instr} {p : Proc State} {k : State → Proc State} {Q : State → Prop} {s : State}
    (first : RunAs is p s) (ends : Ends (fun r => r.state.flt.fault = false) Q p) (next : ∀ t, Q t → RunAs js (k t) t)
    (dropped : ∀ u, u.flt.fault = true → runCommands js u = .next u) : RunAs (is ++ js) (p >>= k) s := by
  obtain ⟨w, run⟩ := first
  cases p with
  | ok t =>
    obtain ⟨w', run'⟩ := next t ends
    exact ⟨w', by rw [runCommands_append run, run', ok_bind]⟩
  | error r =>
    rw [conclude_raised (s := r.state) ends] at run
    refine ⟨w, ?_⟩
    rw [runCommands_append run, dropped _ rfl, error_bind, conclude_raised (s := r.state) ends]

theorem runCommands_single {i : Instr} {s t : State} (e : exec i s = .next t) : runCommands [i] s = .next t := by
  simp only [runCommands, e]

theorem runAs_single {i : Instr} {p : Proc State} {s : State} (e : exec i s = conclude (encode i) p) :
    RunAs [i] p s := by
  refine ⟨encode i, ?_⟩
  rcases conclude_cases (encode i) p with ⟨t, -, answer⟩ | ⟨r, -, answer⟩
  · rw [answer, runCommands_single (e.trans answer)]
  · rw [answer, runCommands_single (e.trans answer)]

/-- The commands that code one symbol. -/
def symbolCommands (sym : Imm) : List Instr := [.aeEncode sym, .smUpdate sym]

section
variable {s : State} {sym : Imm}

theorem exec_smUpdate_dropped (h : s.flt.fault = true) : exec (.smUpdate sym) s = .next s := by
  rw [exec, execSmUpdate, command_dropped h]

theorem symbolCommands_dropped (h : s.flt.fault = true) (syms : List Imm) :
    runCommands (syms.flatMap symbolCommands) s = .next s := by
  induction syms with
  | nil => rfl
  | cons sym rest ih =>
    have encode : exec (.aeEncode sym) s = .next s := by rw [exec, execAeEncode, command_dropped h]
    have both : runCommands (symbolCommands sym) s = .next s := by
      simp only [symbolCommands, runCommands, encode, exec_smUpdate_dropped h]
    rw [List.flatMap_cons, runCommands_append both, ih]

/-- Between the start and the finish of a stream, without a fault. -/
def Coding (s : State) : Prop := s.flt.fault = false ∧ s.ae.done = false

theorem aeEncode_coding (coding : Coding s) (sym : Nat) :
    Ends (fun r => r.state.flt.fault = false) Coding (aeEncode sym s) := by
  obtain ⟨clear, notDone⟩ := coding
  rcases aeEncode_cases sym s with e | e | ⟨-, -, e⟩
  · rw [e]
    exact clear
  · rw [e]
    exact clear
  · rw [e]
    exact ⟨clear, (normalise_done _ _ _).trans notDone⟩

theorem encSymbol_coding (coding : Coding s) (sym : Nat) :
    Ends (fun r => r.state.flt.fault = false) Coding (encSymbol sym s) :=
  (aeEncode_coding coding sym).bind fun _ ht => ht

theorem encSymbols_coding (coding : Coding s) (syms : List Nat) :
    Ends (fun r => r.state.flt.fault = false) Coding (encSymbols syms s) := by
  induction syms generalizing s with
  | nil => exact coding
  | cons sym rest ih => exact (encSymbol_coding coding sym).bind fun _ ht => ih ht

theorem runAs_encSymbol (coding : Coding s) (le : sym.toNat ≤ 256) :
    RunAs (symbolCommands sym) (encSymbol sym.toNat s) s := by
  obtain ⟨clear, notDone⟩ := coding
  have encode : RunAs [.aeEncode sym] (aeEncode sym.toNat s) s := runAs_single <| by
    rw [exec, execAeEncode, command_runs (i := .aeEncode sym) clear (aboveRange_none.2 le), notDone, Bool.not_false,
      need_true_bind]
  exact encode.append (aeEncode_coding ⟨clear, notDone⟩ _)
    (fun t ⟨stillClear, _⟩ => runAs_single (exec_smUpdate stillClear le)) fun u faulted => runCommands_single (exec_smUpdate_dropped faulted)

theorem runAs_encSymbols (coding : Coding s) {syms : List Imm} (le : ∀ sym ∈ syms, sym.toNat ≤ 256) :
    RunAs (syms.flatMap symbolCommands) (encSymbols (syms.map BitVec.toNat) s) s := by
  induction syms generalizing s with
  | nil => exact ⟨0#64, rfl⟩
  | cons sym rest ih =>
    obtain ⟨leHead, leRest⟩ := List.forall_mem_cons.1 le
    exact (runAs_encSymbol coding leHead).append (encSymbol_coding coding _) (fun t ht => ih ht leRest) fun u faulted =>
      symbolCommands_dropped faulted rest

theorem runAs_aeFinish (coding : Coding s) : RunAs [.aeFinish] (aeFinish s) s := by
  obtain ⟨clear, notDone⟩ := coding
  refine runAs_single ?_
  rw [exec, execAeFinish, command_runs clear rfl, notDone, Bool.not_false, need_true_bind]

end

/-- The symbols of a byte sequence and its end, as operands (30_encoding.md R62). -/
def symbolOperands (data : List Byte) : List Imm := data.map (BitVec.setWidth 32) ++ [256#32]

theorem encodeProgram_eq (data : List Byte) : encodeProgram data =
    ([.smInit, .bwInit, .aeInit] : List Instr) ++ ((symbolOperands data).flatMap symbolCommands ++ [.aeFinish]) := by
  simp [encodeProgram, symbolOperands, symbolCommands, List.flatMap_map]

theorem toNat_symbolOperands (data : List Byte) : (symbolOperands data).map BitVec.toNat = streamSymbols data := by
  have widened (b : Byte) : (b.setWidth 32).toNat = b.toNat := by
    have := b.isLt
    rw [BitVec.toNat_setWidth]
    omega
  rw [symbolOperands, streamSymbols, List.map_append, List.map_map]
  exact congrArg (· ++ [256]) (List.map_congr_left fun b _ => widened b)

/-- The program of R285 is the procedure of `ENC.BYTES`, fault or no fault. -/
theorem runAs_encodeProgram {s : State} (clear : s.flt.fault = false) :
    RunAs (encodeProgram s.res.bytes) (encBytes s) s := by
  have start : runCommands [.smInit, .bwInit, .aeInit] s = .next (codeStart s) := by
    simp only [runCommands, exec_smInit clear]
    rw [exec_bwInit (by rwa [setFreq_flt])]
    dsimp only
    rw [exec_aeInit (by rwa [setWriter_flt, setFreq_flt])]
    rfl
  have coding : Coding (codeStart s) := ⟨clear, rfl⟩
  have symbols : ∀ sym ∈ symbolOperands s.res.bytes, sym.toNat ≤ 256 := fun sym h => by
    have listed := List.mem_map_of_mem (f := BitVec.toNat) h
    rw [toNat_symbolOperands] at listed
    exact dataSymbols_le s.res.bytes _ listed
  obtain ⟨w, run⟩ := (runAs_encSymbols coding symbols).append (encSymbols_coding coding _)
    (fun t ht => runAs_aeFinish ht) fun u faulted => by
      have dropped : exec .aeFinish u = .next u := by rw [exec, execAeFinish, command_dropped faulted]
      exact runCommands_single dropped
  rw [toNat_symbolOperands] at run
  exact ⟨w, by rw [encodeProgram_eq, runCommands_append start, run, encBytes_eq]⟩

/-- Settles O53: both are the same procedure, which ends in the coded stream if it fits BS and raises within BS if
not. -/
theorem encBytesIsTheMicroOperations : Obligations.EncBytesIsTheMicroOperations := by
  intro s clear
  obtain ⟨w, run⟩ := runAs_encodeProgram clear
  obtain ⟨w', unboundedRun⟩ := runAs_encodeProgram (s := s.withCaps ⟨none, none, none⟩) clear
  obtain ⟨same, flt⟩ := codedStream_keepsOutside s
  have bounded : ((codedStream s).withCaps ⟨none, none, none⟩).withCaps s.caps = codedStream s := by
    rw [withCaps_withCaps, ← codedStream_caps, withCaps_self]
  rw [encBytes_fitting (s := s.withCaps ⟨none, none, none⟩) rfl, codedStream_withCaps] at unboundedRun
  refine ⟨(codedStream s).withCaps ⟨none, none, none⟩, unboundedRun, (congrArg _ flt).trans clear, rfl, codedStream_bw s,
    same, fun fit => ?fits, fun full => ?overflows⟩
  case fits =>
    rw [bounded]
    rw [encBytes_fitting fit] at run
    exact ⟨run, by rw [exec_encBytes clear, encBytes_fitting fit]; rfl⟩
  case overflows =>
    obtain ⟨u, raised, within, sameRaised, fltRaised⟩ := encBytes_overflowing full
    have clearRaised : u.flt.fault = false := by rw [fltRaised, clear]
    rw [raised, conclude_raised clearRaised] at run
    refine ⟨_, run, rfl, rfl, within, sameRaised, ?_⟩
    rw [exec_encBytes clear, raised, Except.map, conclude_raised clearRaised]
    rfl

/-! ## A grid coded (R203, R207) -/

/-- Where the traversal ends in `t`, `ENC.GRID` goes on as `ENC.BYTES` does from there. -/
theorem encGrid_after_prForward {s t : State} (clear : s.flt.fault = false) (forward : prForward s = .ok t)
    (clearForward : t.flt.fault = false) : ∃ u, exec .encBytes t = .next u ∧
      (u.flt.fault = false → exec .encGrid s = .next u) ∧
      (u.flt.fault = true → exec .encGrid s = .next (u.setFlt ⟨true, 10#8, encode .encGrid⟩)) ∧
      (t.caps.bsCap = none → u.flt.fault = false) := by
  have bytesRun := exec_encBytes clearForward
  have gridRun := exec_encGrid clear
  rw [encGrid, forward, ok_bind] at gridRun
  cases room : fits t.caps.bsCap (codedStream t).bs.length with
  | true =>
    obtain ⟨-, flt⟩ := codedStream_keepsOutside t
    have clearStream : (returnBsLen (codedStream t)).flt.fault = false := (congrArg _ flt).trans clearForward
    rw [encBytes_fitting room] at bytesRun gridRun
    exact ⟨_, bytesRun, fun _ => gridRun, fun faulted => (nomatch clearStream.symm.trans faulted),
      fun _ => clearStream⟩
  | false =>
    obtain ⟨u, raised, -, -, flt⟩ := encBytes_overflowing room
    rw [raised, Except.map, conclude_raised (by rw [flt, clearForward])] at bytesRun gridRun
    exact ⟨_, bytesRun, nofun, fun _ => gridRun, fun unbounded => nomatch unbounded ▸ room⟩

/-- Settles O54: where the traversal raises, its fault stands when `ENC.BYTES` comes, which then is dropped. -/
theorem encGridIsForwardThenBytes : Obligations.EncGridIsForwardThenBytes := by
  intro s clear known n fit
  obtain ⟨j, -, fitting, overflowing⟩ := prForward_walk known
  cases room : fit with
  | true =>
    obtain ⟨-, forward⟩ := fitting room
    have forwardRun := exec_prFwd clear
    rw [forward, conclude_ok] at forwardRun
    obtain ⟨u, bytesRun, same, faults, unbounded⟩ := encGrid_after_prForward clear forward clear
    exact ⟨_, u, forwardRun, bytesRun, iff_of_true clear rfl, same, faults,
      fun _ none => ⟨same (unbounded none), unbounded none⟩⟩
  | false =>
    obtain ⟨-, -, -, forward⟩ := overflowing room
    have clearStop : (forwardAt s j).flt.fault = false := clear
    have forwardRun := exec_prFwd clear
    have gridRun := exec_encGrid clear
    rw [forward, conclude_raised clearStop] at forwardRun
    rw [encGrid, forward, error_bind, Except.map, conclude_raised clearStop] at gridRun
    have dropped (w : Word) :
        exec .encBytes ((forwardAt s j).faulted 10#8 w) = .next ((forwardAt s j).faulted 10#8 w) := by
      rw [exec, execEncBytes, command_dropped rfl]
    exact ⟨_, _, forwardRun, dropped _, iff_of_false Bool.noConfusion Bool.noConfusion, nofun, fun _ => gridRun, nofun⟩

end Sys2Proof.Machine

/-! PROOFS. There and back (45_stream_ops.md R209, R210): the finished stream, read as a binary fraction, lies in every
exact interval the encoder has gone through, so the decoder finds the slice of every symbol that was coded. -/

namespace Sys2Proof.Machine

/-! ## The stream as a number (42_arith_decoder.md R131) -/

/-- The first `n` bits of the stream, zeros past its end. -/
def streamValue (bs : List Byte) (n : Nat) : Nat := bitsValue (streamBits bs 0 n)

theorem bitsValue_append (bits more : List Bool) :
    bitsValue (bits ++ more) = 2 ^ more.length * bitsValue bits + bitsValue more := by
  induction more using List.reverseRecOn with
  | nil => simp [bitsValue]
  | append_singleton more b ih =>
    rw [← List.append_assoc, bitsValue_append_bit, bitsValue_append_bit, ih, List.length_append, List.length_singleton,
      Nat.pow_succ]
    ring

theorem bitsValue_lt (bits : List Bool) : bitsValue bits < 2 ^ bits.length := by
  induction bits using List.reverseRecOn with
  | nil => exact Nat.one_pos
  | append_singleton bits b ih =>
    have := b.toNat_le
    rw [bitsValue_append_bit, List.length_append, List.length_singleton, Nat.pow_succ]
    omega

theorem streamBits_add (bs : List Byte) (pos m n : Nat) :
    streamBits bs pos (m + n) = streamBits bs pos m ++ streamBits bs (pos + m) n := by
  simp only [streamBits, List.range_add, List.map_append, List.map_map, Function.comp_def, Nat.add_assoc]

theorem streamValue_add (bs : List Byte) (m n : Nat) :
    streamValue bs (m + n) = 2 ^ n * streamValue bs m + bitsValue (streamBits bs m n) := by
  rw [streamValue, streamBits_add, bitsValue_append, length_streamBits, Nat.zero_add, streamValue]

/-- Priming takes the next bits of the stream into code, where there is room for them. -/
theorem toNat_primeCode {bs : List Byte} {n : Nat} {code : Bound} (r : BitReader)
    (room : 2 ^ n * (code.toNat + 1) ≤ 2 ^ 48) :
    (primeCode bs n code r).1.toNat = 2 ^ n * code.toNat + bitsValue (streamBits bs r.pos n) := by
  induction n generalizing code r with
  | zero => simp [primeCode, streamBits, bitsValue]
  | succ n ih =>
    have bit := (brGet bs r).1.toNat_le
    rw [Nat.pow_succ, Nat.mul_assoc] at room
    have doubled : ((code <<< 1) ||| bitBound (brGet bs r).1).toNat = 2 * code.toNat + (brGet bs r).1.toNat := by
      have : 2 * (code.toNat + 1) ≤ 2 ^ 48 := (Nat.le_mul_of_pos_left _ (Nat.two_pow_pos n)).trans room
      rw [toNat_double_or_bit, Nat.mod_eq_of_lt (by omega)]
    have roomNext : 2 ^ n * (((code <<< 1) ||| bitBound (brGet bs r).1).toNat + 1) ≤ 2 ^ 48 :=
      (Nat.mul_le_mul_left _ (by omega)).trans room
    rw [primeCode, ih _ roomNext, doubled, streamBits_succ, bitsValue_cons, length_streamBits, Nat.pow_succ]
    ring

/-! ## The bits of a finished stream (41_arith_encoder.md R119) -/

@[simp] theorem length_writtenBits (w : Writer) : (writtenBits w).length = bitCount w := by simp [writtenBits]

/-- The bits of BS are those written when no bit is left in BW, and zeros follow them. -/
theorem streamBit_eq_getD (bs : List Byte) (k : Nat) : streamBit bs k = (writtenBits ⟨0#8, 0, bs⟩).getD k false := by
  have count : bitCount ⟨0#8, 0, bs⟩ = 8 * bs.length := rfl
  rcases Nat.lt_or_ge k (8 * bs.length) with inside | beyond
  · rw [List.getD_eq_getElem _ _ (by rwa [length_writtenBits, count])]
    simp [writtenBits, writtenBit_of_lt (w := ⟨0#8, 0, bs⟩) inside]
  · rw [List.getD_eq_default _ _ (by rwa [length_writtenBits, count]), streamBit, List.getD_eq_default _ _ (by omega)]
    simp

theorem getD_append_replicate {α : Type} (xs : List α) (n : Nat) (d : α) (k : Nat) :
    (xs ++ List.replicate n d).getD k d = xs.getD k d := by
  rcases Nat.lt_or_ge k xs.length with inside | beyond
  · exact List.getD_append _ _ _ _ inside
  rw [List.getD_append_right _ _ _ _ beyond, List.getD_eq_default xs _ beyond]
  rcases Nat.lt_or_ge (k - xs.length) n with inside | beyond
  · exact List.getD_replicate _ inside
  · exact List.getD_eq_default _ _ (by simpa using beyond)

/-- A finished stream begins with the bits of the finish, and goes on with zeros. -/
theorem streamBits_finished (e : Encoder) (w : Writer) (more : Nat) :
    streamBits (finishBits e w).finish.bs 0 (bitCount (finishBits e w) + more) =
      writtenBits (finishBits e w) ++ List.replicate more false := by
  have bit (k : Nat) : streamBit (finishBits e w).finish.bs k = (writtenBits (finishBits e w)).getD k false := by
    rw [streamBit_eq_getD, ← aeFinish_bytes, finish_eq_putMany, writtenBits_putMany, getD_append_replicate]
  refine List.ext_getElem (by simp) fun k _ inside => ?_
  rw [← List.getD_eq_getElem _ false inside, getD_append_replicate, ← bit]
  simp [streamBits]

/-- The finish emits a bit that says which half the point it names lies in, with one bit more owed. -/
theorem finishBits_eq_emitBit (e : Encoder) (w : Writer) :
    finishBits e w = emitBit (decide (2 ^ 46 ≤ e.low.toNat)) (e.pending + 1) w := rfl

/-- The finish names a point of the interval: HALF or QUARTER. -/
theorem streamValue_finished (e : Encoder) (w : Writer) :
    streamValue (finishBits e w).finish.bs (bitCount w + e.pending + 48) =
      exactPoint e.pending w (if 2 ^ 46 ≤ e.low.toNat then 2 ^ 47 else 2 ^ 46) := by
  have count : bitCount w + e.pending + 48 = bitCount (finishBits e w) + 46 := by
    rw [finishBits_eq_emitBit, emitBit, bitCount_putMany, bitCount_put]
    omega
  have zeros := bitsValue_append_replicate (writtenBits (finishBits e w)) 46 false
  have named := bitsValue_emitBit (decide (2 ^ 46 ≤ e.low.toNat)) (e.pending + 1) w
  rw [← finishBits_eq_emitBit, Nat.pow_add _ e.pending 1] at named
  rw [count, streamValue, streamBits_finished, exactPoint, Nat.pow_add]
  obtain ⟨m, scale⟩ := Nat.exists_eq_add_of_le' (Nat.one_le_two_pow (n := e.pending))
  rw [scale] at named ⊢
  rw [Nat.add_sub_cancel]
  by_cases half : 2 ^ 46 ≤ e.low.toNat
  · rw [decide_eq_true half] at named
    rw [if_pos half]
    simp only [Bool.not_true, Bool.toNat_false] at named zeros
    linarith
  · rw [decide_eq_false half] at named
    rw [if_neg half]
    simp only [Bool.not_false, Bool.toNat_true, Bool.toNat_false] at named zeros
    linarith

/-! ## The stream lies in the encoder's intervals (41_arith_encoder.md R116) -/

/-- The stream, to as many bits as the encoder's exact interval has, lies in it. -/
def StreamWithin (bs : List Byte) (e : Encoder) (w : Writer) : Prop :=
  exactLow e w ≤ streamValue bs (bitCount w + e.pending + 48) ∧
  streamValue bs (bitCount w + e.pending + 48) < exactEnd e w

theorem streamWithin_finished {e : Encoder} (ok : IntervalOk e.toInterval) (w : Writer) :
    StreamWithin (finishBits e w).finish.bs e w := by
  obtain ⟨low, high, -⟩ := ok
  rw [StreamWithin, streamValue_finished, exactLow_eq, exactEnd_eq, exactPoint, exactPoint, exactPoint]
  split <;> omega

/-- Within an interval scaled up, the stream lies in the interval itself. -/
theorem Scaled.streamWithin {k : Nat} {e e' : Encoder} {w w' : Writer} {bs : List Byte} (h : Scaled k e w e' w')
    (within : StreamWithin bs e' w') : StreamWithin bs e w := by
  obtain ⟨lo, hi⟩ := within
  have rest := bitsValue_lt (streamBits bs (bitCount w + e.pending + 48) k)
  rw [length_streamBits] at rest
  rw [h.count, Nat.add_right_comm, streamValue_add] at lo hi
  rw [h.low] at lo
  rw [h.upTo] at hi
  constructor
  · by_contra below
    have := Nat.mul_le_mul_left (2 ^ k) (Nat.lt_of_not_le below)
    rw [Nat.mul_succ] at this
    omega
  · exact Nat.lt_of_mul_lt_mul_left ((Nat.le_add_right _ _).trans_lt hi)

/-- What coding a symbol needs: the model in order, and a normalised interval. -/
structure EncodeReady (s : State) : Prop where
  model : ModelOk s.freq
  interval : IntervalOk s.ae.toInterval

theorem encodeReady_start (s : State) : EncodeReady (codeStart s) := ⟨modelOk_freshCounts, intervalOk_full⟩

section
variable {s : State} {sym : Nat} (ready : EncodeReady s) (le : sym ≤ 256)
include ready le

theorem EncodeReady.step : EncodeReady (codeStep s sym) := by
  obtain ⟨ordered, -⟩ := narrowed_exact ready.model ready.interval le s.writer
  refine ⟨modelOk_updateCounts ready.model sym, ?_⟩
  show IntervalOk (normalise _ _ _).1.toInterval
  rw [normalise_toInterval]
  exact intervalOk_normalised_shiftBound ordered

/-- The stream lies in the narrowed interval, if it lies in the one after the symbol. -/
theorem EncodeReady.streamWithin_narrowed {bs : List Byte}
    (within : StreamWithin bs (codeStep s sym).ae (codeStep s sym).writer) :
    StreamWithin bs (narrowed s.freq sym s.ae) s.writer := by
  obtain ⟨ordered, -⟩ := narrowed_exact ready.model ready.interval le s.writer
  obtain ⟨k, -, scaled⟩ := normalise_scaled shiftBound s.writer ordered
  exact scaled.streamWithin within

theorem EncodeReady.streamWithin {bs : List Byte}
    (within : StreamWithin bs (codeStep s sym).ae (codeStep s sym).writer) : StreamWithin bs s.ae s.writer := by
  obtain ⟨-, low, upTo⟩ := narrowed_exact ready.model ready.interval le s.writer
  obtain ⟨ordered, -⟩ := ready.interval.wide
  obtain ⟨-, inTotal⟩ := sliceOf_bounds ready.model le
  have inside : s.ae.toInterval.range * cum s.freq (sym + 1) / total s.freq ≤ s.ae.toInterval.range :=
    Nat.div_le_of_le_mul (by rw [Nat.mul_comm]; exact Nat.mul_le_mul_right _ inTotal)
  have whole : exactEnd s.ae s.writer = exactLow s.ae s.writer + s.ae.toInterval.range := by
    rw [exactEnd_eq, exactLow_eq, ← exactPoint_add]
    congr 1
    show s.ae.high.toNat + 1 = s.ae.low.toNat + (s.ae.high.toNat - s.ae.low.toNat + 1)
    omega
  obtain ⟨lo, hi⟩ := ready.streamWithin_narrowed le within
  rw [low] at lo
  rw [upTo] at hi
  exact ⟨(Nat.le_add_right _ _).trans lo, hi.trans_le (whole ▸ Nat.add_le_add_left inside _)⟩

end

theorem EncodeReady.foldl {s : State} (ready : EncodeReady s) {syms : List Nat} (le : ∀ sym ∈ syms, sym ≤ 256) :
    EncodeReady (syms.foldl codeStep s) := by
  induction syms generalizing s with
  | nil => exact ready
  | cons sym rest ih =>
    obtain ⟨leHead, leRest⟩ := List.forall_mem_cons.1 le
    exact ih (ready.step leHead) leRest

/-- The stream lies in the interval before any sequence of symbols, if it lies in the one after. -/
theorem EncodeReady.streamWithin_foldl {s : State} (ready : EncodeReady s) {syms : List Nat}
    (le : ∀ sym ∈ syms, sym ≤ 256) {bs : List Byte}
    (within : StreamWithin bs (syms.foldl codeStep s).ae (syms.foldl codeStep s).writer) :
    StreamWithin bs s.ae s.writer := by
  induction syms generalizing s with
  | nil => exact within
  | cons sym rest ih =>
    obtain ⟨leHead, leRest⟩ := List.forall_mem_cons.1 le
    exact ready.streamWithin leHead (ih (ready.step leHead) leRest within)

/-! ## The decoder follows the encoder (R210) -/

/-- The decoder in `d`, reading the stream `bs`, stands where the encoder in `s` stands: the same model and interval,
and code is the stream's offset in it. -/
structure Follows (bs : List Byte) (s d : State) : Prop where
  stream : d.bs = bs
  freq : d.freq = s.freq
  interval : d.ad.toInterval = s.ae.toInterval
  pos : d.br.pos = bitCount s.writer + s.ae.pending + 48
  code : exactPoint s.ae.pending s.writer d.ad.code.toNat = streamValue bs (bitCount s.writer + s.ae.pending + 48)

/-- Priming takes the first 48 bits of the stream, and the encoder has written and owes none. -/
theorem follows_start (s s' : State) : Follows s'.bs (codeStart s) (decodeStart s') where
  stream := rfl
  freq := rfl
  interval := rfl
  pos := congrArg BitReader.pos (primeCode_reader (bs := s'.bs) (code := 0) (r := BitReader.start) 48)
  code := by
    have primed := toNat_primeCode (bs := s'.bs) (n := 48) (code := 0) BitReader.start (by decide)
    rw [show (0 : Bound).toNat = 0 from rfl, Nat.mul_zero, Nat.zero_add] at primed
    show exactPoint 0 Writer.empty (primeCode s'.bs 48 0 BitReader.start).1.toNat = streamValue s'.bs 48
    rw [primed]
    simp [exactPoint, writtenBits, bitCount, Writer.empty, bitsValue, streamValue, BitReader.start]

/-- A code within the narrowed interval scales to a value in the symbol's slice: `d` is its offset in an interval of
`range` values (42_arith_decoder.md R132, R133). -/
theorem slice_of_offset {range tot lo hi d : Nat} (range_pos : 0 < range) (tot_pos : 0 < tot)
    (above : range * lo / tot ≤ d) (below : d + 1 ≤ range * hi / tot) :
    lo ≤ ((d + 1) * tot - 1) / range ∧ ((d + 1) * tot - 1) / range < hi := by
  constructor
  · rw [Nat.le_div_iff_mul_le range_pos, Nat.mul_comm]
    have := (Nat.div_lt_iff_lt_mul tot_pos).1 (Nat.lt_succ_of_le above)
    rw [Nat.succ_eq_add_one] at this
    omega
  · rw [Nat.div_lt_iff_lt_mul range_pos, Nat.mul_comm hi]
    have := (Nat.le_div_iff_mul_le tot_pos).1 below
    have := Nat.mul_pos d.succ_pos tot_pos
    rw [Nat.succ_eq_add_one] at this
    omega

/-- The scan finds a symbol, if code lies in the interval narrowed to its slice. -/
theorem decodedSymbol_of_within {d : State} {sym : Nat} (model : ModelOk d.freq) (ok : IntervalOk d.ad.toInterval)
    (le : sym ≤ 256) (lo : (d.ad.toInterval.narrow (sliceOf d.freq sym)).low.toNat ≤ d.ad.code.toNat)
    (hi : d.ad.code.toNat ≤ (d.ad.toInterval.narrow (sliceOf d.freq sym)).high.toNat) : decodedSymbol d = sym := by
  have ⟨len, _, small⟩ := model
  obtain ⟨ordered, wide⟩ := ok.wide
  obtain ⟨nonempty, inTotal⟩ := sliceOf_bounds model le
  obtain ⟨low, upTo, -⟩ := narrow_bounds ordered nonempty inTotal (small.trans wide.le)
  rw [low] at lo
  have ordered_code := (Nat.le_add_right _ _).trans lo
  have past_low : d.ad.toInterval.range * (sliceOf d.freq sym).low / (sliceOf d.freq sym).total ≤
      d.ad.code.toNat - d.ad.low.toNat := Nat.le_sub_of_add_le' lo
  have before_high : d.ad.code.toNat - d.ad.low.toNat + 1 ≤
      d.ad.toInterval.range * (sliceOf d.freq sym).high / (sliceOf d.freq sym).total := by omega
  obtain ⟨above, below⟩ := slice_of_offset (Nat.succ_pos _) (Nat.zero_lt_of_lt (nonempty.trans_le inTotal)) past_low
    before_high
  have bounded : scaledValue d.ad (total d.freq) < total d.freq := below.trans_le inTotal
  obtain ⟨-, foundAbove, foundBelow⟩ := findSymbol_spec len bounded
  exact eq_of_mem_slices foundAbove foundBelow above below

section
variable {k m : Nat} {e e' : Encoder} {w w' : Writer} {bits : List Bool} {d d' : Decoder}

/-- Encoder and decoder make the same doublings from the same interval to the same interval. -/
theorem Scaled.doublings_eq (scaled : Scaled k e w e' w') (pulled : PulledIn bits m d d')
    (start : d.toInterval = e.toInterval) (next : d'.toInterval = e'.toInterval) (ordered : e.low.toNat ≤ e.high.toNat) :
    bits.length = k := by
  obtain ⟨-, -, low, upTo⟩ := scaled
  obtain ⟨low', upTo', -⟩ := pulled
  obtain ⟨width, wide⟩ := Nat.exists_eq_add_of_le ordered
  rw [exactLow_eq, exactLow_eq, exactPoint, exactPoint] at low
  rw [exactEnd_eq, exactEnd_eq, exactPoint, exactPoint, wide] at upTo
  rw [start, next] at low'
  rw [start, next, wide] at upTo'
  have widths : 2 ^ bits.length * (width + 1) = 2 ^ k * (width + 1) := by linarith
  exact Nat.pow_right_injective le_rfl (Nat.eq_of_mul_eq_mul_right width.succ_pos widths)

/-- The exact number of code is scaled too, and the bits read enter at its low end. -/
theorem Scaled.exactPoint_code (scaled : Scaled k e w e' w') (pulled : PulledIn bits m d d')
    (start : d.toInterval = e.toInterval) (next : d'.toInterval = e'.toInterval) (turns : bits.length = k) :
    exactPoint e'.pending w' d'.code.toNat = 2 ^ k * exactPoint e.pending w d.code.toNat + bitsValue bits := by
  obtain ⟨-, -, low, -⟩ := scaled
  obtain ⟨low', -, code⟩ := pulled
  rw [exactLow_eq, exactLow_eq, exactPoint, exactPoint] at low
  rw [start, next, turns] at low'
  rw [turns] at code
  rw [exactPoint, exactPoint]
  linarith

end

section
variable {bs : List Byte} {s d : State} {sym : Nat} (follows : Follows bs s d) (ready : EncodeReady s) (le : sym ≤ 256)
include follows ready le

/-- If the stream lies in the encoder's next interval, code lies in the narrowed one. -/
theorem Follows.code_within (within : StreamWithin bs (codeStep s sym).ae (codeStep s sym).writer) :
    (narrowed s.freq sym s.ae).low.toNat ≤ d.ad.code.toNat ∧ d.ad.code.toNat ≤ (narrowed s.freq sym s.ae).high.toNat := by
  obtain ⟨lo, hi⟩ := ready.streamWithin_narrowed le within
  have code := follows.code
  have pending : (narrowed s.freq sym s.ae).pending = s.ae.pending := rfl
  rw [exactLow_eq, pending, ← code] at lo
  rw [exactEnd_eq, pending, ← code] at hi
  simp only [exactPoint] at lo hi
  omega

/-- So the decoder finds the symbol that was coded. -/
theorem Follows.decodedSymbol_eq (within : StreamWithin bs (codeStep s sym).ae (codeStep s sym).writer) :
    decodedSymbol d = sym := by
  obtain ⟨lo, hi⟩ := follows.code_within ready le within
  have narrow : d.ad.toInterval.narrow (sliceOf d.freq sym) = (narrowed s.freq sym s.ae).toInterval := by
    rw [follows.freq, follows.interval]
    rfl
  exact decodedSymbol_of_within (follows.freq ▸ ready.model) (follows.interval ▸ ready.interval) le (narrow ▸ lo)
    (narrow ▸ hi)

theorem Follows.decSymbol (within : StreamWithin bs (codeStep s sym).ae (codeStep s sym).writer) :
    decSymbol d = .ok (sym, decodeStep d) := by
  obtain ⟨-, -, small⟩ := ready.model
  rw [decSymbol_answers (follows.freq ▸ small), follows.decodedSymbol_eq ready le within]

/-- And follows to the encoder's next interval: it has the encoder's narrowed interval, and both scale alike. -/
theorem Follows.step (within : StreamWithin bs (codeStep s sym).ae (codeStep s sym).writer) :
    Follows bs (codeStep s sym) (decodeStep d) := by
  obtain rfl := follows.stream
  have found := follows.decodedSymbol_eq ready le within
  obtain ⟨lo, hi⟩ := follows.code_within ready le within
  obtain ⟨ordered, -⟩ := narrowed_exact ready.model ready.interval le s.writer
  have start : (narrowedDecoder d).toInterval = (narrowed s.freq sym s.ae).toInterval := by
    simp only [narrowedDecoder, found, follows.freq, follows.interval]
    rfl
  have next : (decoded d).1.toInterval = (codeStep s sym).ae.toInterval := by
    rw [decoded_toInterval, found, follows.freq, follows.interval]
    exact (normalise_toInterval shiftBound (narrowed s.freq sym s.ae) s.writer).symm
  obtain ⟨k, -, scaled⟩ : ∃ k ≤ shiftBound, Scaled k (narrowed s.freq sym s.ae) s.writer (codeStep s sym).ae
    (codeStep s sym).writer := normalise_scaled shiftBound s.writer ordered
  obtain ⟨n, -, reader, m, pulled⟩ := normaliseDecoder_pulledIn d.bs shiftBound (d := narrowedDecoder d) d.br
    (start ▸ lo) (start ▸ hi)
  have pulled := pulled.markFinished (decodedSymbol d)
  obtain rfl : n = k := by
    have turns := scaled.doublings_eq pulled start next ordered
    rwa [length_streamBits] at turns
  have count : bitCount (codeStep s sym).writer + (codeStep s sym).ae.pending = bitCount s.writer + s.ae.pending + n :=
    scaled.count
  refine ⟨rfl, ?_, next, ?_, ?_⟩
  · show updateCounts _ d.freq (decodedSymbol d) = updateCounts _ s.freq sym
    rw [found, follows.freq]
  · show (normaliseDecoder d.bs shiftBound (narrowedDecoder d) d.br).2.pos = _
    rw [reader, count, Nat.add_right_comm, ← follows.pos]
    rfl
  · have code := scaled.exactPoint_code pulled start next (length_streamBits _ _ _)
    rw [follows.pos] at code
    rw [count, Nat.add_right_comm, streamValue_add, ← follows.code]
    exact code

end

theorem dataSymbols_toNat_le (data : List Byte) : ∀ sym ∈ data.map BitVec.toNat, sym ≤ 256 :=
  fun sym h => dataSymbols_le data sym (List.mem_append_left _ h)

/-- The decoder gives the data symbols that were coded, if the stream lies in the interval after them. -/
theorem Follows.decodesData {bs : List Byte} {s d : State} (follows : Follows bs s d) (ready : EncodeReady s)
    {data : List Byte} (within : StreamWithin bs ((data.map BitVec.toNat).foldl codeStep s).ae
      ((data.map BitVec.toNat).foldl codeStep s).writer) :
    ∃ t, DecodesData d data t ∧ Follows bs ((data.map BitVec.toNat).foldl codeStep s) t := by
  induction data generalizing s d with
  | nil => exact ⟨d, .nil d, follows⟩
  | cons b rest ih =>
    have le : b.toNat ≤ 256 := b.isLt.le
    have here := (ready.step le).streamWithin_foldl (dataSymbols_toNat_le rest) within
    obtain ⟨t, run, followed⟩ := ih (follows.step ready le here) (ready.step le) within
    exact ⟨t, .cons (follows.decSymbol ready le here) run, followed⟩

/-- On the stream coded from the bytes of RES the decoder gives those bytes and the end, and the same counts. -/
theorem decodesTo_codedStream {s s' : State} (bs : s'.bs = (codedStream s).bs) :
    ∃ t, DecodesTo (decodeStart s') s.res.bytes t ∧ t.freq = (codedStream s).freq := by
  have ready := encodeReady_start s
  have data_le := dataSymbols_toNat_le s.res.bytes
  have readyEnd := ready.foldl data_le
  have coded : codedSymbols s = codeStep ((s.res.bytes.map BitVec.toNat).foldl codeStep (codeStart s)) 256 := by
    rw [codedSymbols, streamSymbols, List.foldl_concat]
  have within : StreamWithin s'.bs (codedSymbols s).ae (codedSymbols s).writer := by
    rw [bs]
    refine streamWithin_finished ?_ _
    rw [coded]
    exact (readyEnd.step le_rfl).interval
  rw [coded] at within
  obtain ⟨u, run, follows⟩ := (follows_start s s').decodesData ready (readyEnd.streamWithin le_rfl within)
  refine ⟨decodeStep u, ⟨u, run, follows.decSymbol readyEnd le_rfl within⟩, ?_⟩
  rw [(follows.step readyEnd le_rfl within).freq, ← coded]
  rfl

/-! ## The commands (R209) -/

theorem of_map_ok {α β : Type} {p : Proc α} {f : α → β} {b : β} (h : p.map f = .ok b) : ∃ a, p = .ok a ∧ f a = b := by
  cases p with
  | ok a => exact ⟨a, rfl, Except.ok.inj h⟩
  | error r => cases h

/-- An `enc_bytes` that answers has coded the whole stream. -/
theorem of_encBytes {s t : State} (h : encBytes s = .ok t) : t = codedStream s := by
  cases room : fits s.caps.bsCap (codedStream s).bs.length with
  | true => exact Except.ok.inj (h.symm.trans (encBytes_fitting room))
  | false =>
    obtain ⟨u, raised, -⟩ := encBytes_overflowing room
    cases h.symm.trans raised

/-- Settles O59: the decoder's symbols are those that were coded, and `DEC.BYTES` follows the decoder. -/
theorem bytesRoundTrip : Obligations.BytesRoundTrip := by
  intro s t s' limit clear e noFault le clear' bs fit
  rw [exec, execEncBytes] at e
  obtain ⟨u, answered, rfl⟩ := of_map_ok (procedure_of_command e clear noFault)
  obtain rfl := of_encBytes answered
  obtain ⟨v, decodes, freq⟩ := decodesTo_codedStream (s := s) (s' := s') bs
  obtain ⟨completes, -⟩ := decBytesFollowsTheDecoder s' v s.res.bytes limit clear'
  exact ⟨_, completes decodes le fit, (congrArg _ decodes.outside.flt).trans clear', rfl, rfl, freq⟩

/-- An `enc_grid` that answers had a known predictor and room for the grid, and has coded its residuals. -/
theorem of_encGrid {s t : State} (h : encGrid s = .ok t) :
    (s.conf.pred = 0#16 ∨ s.conf.pred = 1#16) ∧ t = codedStream (forwardAt s (pixelCount s)) := by
  have known : s.conf.pred = 0#16 ∨ s.conf.pred = 1#16 := by
    by_contra unknown
    obtain ⟨notLeft, notAverage⟩ := not_or.1 unknown
    cases h.symm.trans (encGrid_unknown notLeft notAverage)
  obtain ⟨j, -, fitting, overflowing⟩ := prForward_walk known
  refine ⟨known, ?_⟩
  rw [encGrid] at h
  cases room : gridFits s (pixelCount s) with
  | true =>
    obtain ⟨-, forward⟩ := fitting room
    rw [forward, ok_bind] at h
    exact of_encBytes h
  | false =>
    obtain ⟨-, -, -, raised⟩ := overflowing room
    rw [raised, error_bind] at h
    cases h

/-- Settles O60: the decoder gives the residuals of the grid, and `DEC.GRID` rebuilds the grid from them. -/
theorem gridRoundTrip : Obligations.GridRoundTrip := by
  intro s t s' clear e noFault clear' wf conf bs n pixFits resFits
  rw [exec, execEncGrid] at e
  obtain ⟨u, answered, rfl⟩ := of_map_ok (procedure_of_command e clear noFault)
  obtain ⟨known, rfl⟩ := of_encGrid answered
  obtain ⟨v, decodes, -⟩ := decodesTo_codedStream (s := forwardAt s n) (s' := s') bs
  obtain ⟨rebuilds, -⟩ := decGridRebuildsGrid s' v (gridResiduals s n) clear' wf (conf ▸ known)
  rw [conf] at rebuilds
  obtain ⟨j, m, completes, -, rebuilt⟩ := rebuilds decodes (length_channelBytes _ _) resFits
  obtain ⟨rfl, run⟩ := completes pixFits
  refine ⟨_, run, (congrArg _ decodes.outside.flt).trans clear', fun b inside => ?_⟩
  refine rebuilt.read_eq known (fun pos => Nat.pos_of_mul_pos_right pos) (fun i hi c hc => ?_) inside
  rw [gridResiduals, getD_channelBytes hi hc, BitVec.toNat_ofNat]
  exact Nat.mod_eq_of_lt (residualChannel_lt _ _ _ _ _)

end Sys2Proof.Machine

/-! PROOFS. The system commands (46_system_ops.md R220, R221, R223): `NOP` and its word, `RESET`, `CSR.WR`. -/

namespace Sys2Proof.Machine

/-! ## NOP (R220) -/

theorem encode_nop : encode .nop = 0#64 := by decide

theorem eq_nop_of_opcode {i : Instr} (h : i.opcode = 0x00#8) : i = .nop := by
  cases i with
  | nop => rfl
  | _ => simp [Instr.opcode] at h

/-- `NOP` alone has operation code 0x00, so any other word under that code is the word of no command. -/
theorem decode_rejects_of_opField_zero {w : Word} (op : opField w = 0x00#8) (nonzero : w ≠ 0#64) :
    ∃ r, decode w = .error r ∧ rejectCause r = .illegalCommand := by
  rcases encode_or_illegal w with ⟨i, rfl⟩ | ⟨-, rejected⟩
  · rw [opField_encode] at op
    rw [eq_nop_of_opcode op] at nonzero
    exact absurd encode_nop nonzero
  · exact rejected

theorem exec_nop (s : State) : exec .nop s = .next s := rfl

/-- Settles O21: the zero word is the word of `NOP`, and no other word under its operation code is a command's. -/
theorem nopDoesNothing : Obligations.NopDoesNothing := by
  refine ⟨?_, fun _ op nonzero => decode_rejects_of_opField_zero op nonzero, exec_nop⟩
  rw [← encode_nop]
  exact decodeOfEncodeIsIdentity .nop rfl

/-! ## RESET (R221) -/

/-- The effect of `RESET` is the way out of the fault state (60_exceptions.md R247). -/
theorem exec_reset (s : State) : exec .reset s = .next (leaveFault s) := rfl

/-- Settles O22. -/
theorem resetRestoresAllButPix : Obligations.ResetRestoresAllButPix := exec_reset

/-! ## CSR.WR (R223) -/

/-- The three registers of 10_state.md R20 marked RW are the only writable ones. -/
theorem writable_eq_false {r : Csr} (notWidth : r ≠ .width) (notHeight : r ≠ .height) (notPred : r ≠ .pred) :
    r.writable = false := by
  cases r with
  | width | height | pred => contradiction
  | _ => rfl

/-- With a writable register, the value alone decides whether the command has a defect (30_encoding.md R62). -/
theorem csrWr_defect_of_writable {r : Csr} (writable : r.writable = true) (v : Imm) :
    (Instr.csrWr r v).defect = aboveRange v r.writeLimit := by
  simp [Instr.defect, writable]

theorem csrWr_defect_of_readOnly {r : Csr} (readOnly : r.writable = false) (v : Imm) :
    (Instr.csrWr r v).defect = some .readOnlyCsr := by
  simp [Instr.defect, readOnly]

section
variable {s : State} (clear : s.flt.fault = false) {r : Csr} {v : Imm}
include clear

theorem exec_csrWr (writable : r.writable = true) (le : v.toNat ≤ r.writeLimit) :
    exec (.csrWr r v) s = .next (s.setConf (csrWrite r v s.conf)) := by
  have wf : (Instr.csrWr r v).WellFormed := (csrWr_defect_of_writable writable v).trans (aboveRange_none.2 le)
  rw [exec, execCsrWr]
  exact command_completes clear wf rfl

theorem exec_csrWr_operand (writable : r.writable = true) (gt : r.writeLimit < v.toNat) :
    exec (.csrWr r v) s = .next (s.faulted 2#8 (encode (.csrWr r v))) := by
  rw [exec, execCsrWr]
  exact command_defect clear ((csrWr_defect_of_writable writable v).trans (aboveRange_some.2 ⟨gt, rfl⟩)) _

theorem exec_csrWr_readOnly (readOnly : r.writable = false) :
    exec (.csrWr r v) s = .next (s.faulted 1#8 (encode (.csrWr r v))) := by
  rw [exec, execCsrWr]
  exact command_defect clear (csrWr_defect_of_readOnly readOnly v) _

end

/-- Settles O24: `WIDTH` and `HEIGHT` take all 32 bits, and what goes to `PRED` is the low half of the value. -/
theorem csrWriteStoresValue : Obligations.CsrWriteStoresValue := by
  intro s v clear
  refine ⟨exec_csrWr clear rfl (imm_le v), exec_csrWr clear rfl (imm_le v), fun le => ?_,
    exec_csrWr_operand (r := .pred) clear rfl,
    fun r notWidth notHeight notPred => exec_csrWr_readOnly clear (writable_eq_false notWidth notHeight notPred)⟩
  rw [BitVec.ofNat_toNat]
  exact exec_csrWr clear rfl le

end Sys2Proof.Machine

/-! PROOFS. Faults (60_exceptions.md R241 to R247): in which state a command raises and with which causes, and what the
fault state takes. -/

namespace Sys2Proof.Machine

/-! ## raise (R241, R244) -/

/-- Settles O9. -/
theorem raiseRecordsFirstFaultOnly : Obligations.RaiseRecordsFirstFaultOnly := fun _ w =>
  ⟨fun clear =>
    ⟨raise_clear clear .illegalCommand w, raise_clear clear .illegalOperand w, raise_clear clear .sequenceError w,
      raise_clear clear .formatUnknownPredictor w, raise_clear clear .modelInvariantViolation w,
      raise_clear clear .lengthMismatch w, raise_clear clear .capacity w⟩,
    fun standing c => raise_standing standing c w⟩

/-! ## Where a command raises, and with which causes (R242, R244)

One notion of a raise carries both: a procedure that raises has changed no register yet, and nothing at all within a
micro-operation. -/

/-- The table of R242 has the cause `c` for the command `i`. -/
def tabled (i : Instr) (c : Cause) : Bool := (faultCodes i).contains c.code

/-- `t` has the result registers, the configuration and the fault record of `s`. -/
def KeepsRegisters (s t : State) : Prop := t.x = s.x ∧ t.conf = s.conf ∧ t.flt = s.flt

theorem KeepsRegisters.flt {s t : State} (h : KeepsRegisters s t) : t.flt = s.flt := let ⟨_, _, flt⟩ := h; flt

/-- The command `i`, started in `s`, may raise in `t`. -/
structure MayRaise (i : Instr) (s t : State) : Prop where
  kept : KeepsRegisters s t
  precise : isMicroOp i = true → t = s

/-- A raise as the command `i`, started in `s`, makes it. That the cause is in the table rests on the invariant for
`PR.PREDICT` (log entry 5). -/
structure RaisedBy (i : Instr) (s : State) (r : Raised) : Prop extends MayRaise i s r.state where
  listed : i.WellFormed → s.Inv → tabled i r.cause = true

theorem mayRaise_start (i : Instr) (s : State) : MayRaise i s s := ⟨⟨rfl, rfl, rfl⟩, fun _ => rfl⟩

/-- A composite command may raise past the parts of it that ended (R244). -/
theorem KeepsRegisters.mayRaise {i : Instr} {s t : State} (h : KeepsRegisters s t) (composite : isMicroOp i = false) :
    MayRaise i s t := ⟨h, fun micro => by simp [composite] at micro⟩

section
variable {i : Instr} {s t : State} (h : MayRaise i s t)
include h

theorem MayRaise.raised {c : Cause} (listed : tabled i c = true) : RaisedBy i s ⟨c, t⟩ := ⟨h, fun _ _ => listed⟩

theorem need_raises {α : Type} {Q : α → Prop} {test : Bool} {c : Cause} {k : Unit → Proc α} (listed : tabled i c = true)
    (run : Ends (RaisedBy i s) Q (k ())) : Ends (RaisedBy i s) Q (need test c t >>= k) :=
  ends_need_bind (fun _ => h.raised listed) fun _ => run

/-! ### The procedures -/

theorem commitWriter_raises (full : tabled i .capacity = true) (w : Writer) :
    Ends (RaisedBy i s) (KeepsRegisters s) (commitWriter w t) := need_raises h full h.kept

theorem appendRes_raises (full : tabled i .capacity = true) (bytes : List Byte) :
    Ends (RaisedBy i s) (KeepsRegisters s) (appendRes bytes t) := need_raises h full h.kept

theorem smRange_raises (overfull : tabled i .modelInvariantViolation = true) (sym : Nat) :
    Ends (RaisedBy i s) (fun _ => True) (smRange sym t) := need_raises h overfull trivial

theorem aeEncode_raises (overfull : tabled i .modelInvariantViolation = true) (full : tabled i .capacity = true)
    (sym : Nat) : Ends (RaisedBy i s) (KeepsRegisters s) (aeEncode sym t) :=
  (smRange_raises h overfull sym).bind fun _ _ => (commitWriter_raises h full _).bind fun _ kept => kept

theorem aeFinish_raises (full : tabled i .capacity = true) :
    Ends (RaisedBy i s) (KeepsRegisters s) (aeFinish t) := (commitWriter_raises h full _).bind fun _ kept => kept

theorem adDecode_raises (overfull : tabled i .modelInvariantViolation = true) :
    Ends (RaisedBy i s) (fun r => KeepsRegisters s r.2) (adDecode t) := need_raises h overfull h.kept

theorem sourceHere_raises (unknown : tabled i .formatUnknownPredictor = true) :
    Ends (RaisedBy i s) (fun _ => True) (sourceHere t) := by
  unfold sourceHere
  cases predictSource t.conf.pred t.conf.width.toNat t.prPos with
  | none => exact h.raised unknown
  | some src => trivial

theorem prEnc_raises (unknown : tabled i .formatUnknownPredictor = true) (full : tabled i .capacity = true) :
    Ends (RaisedBy i s) (fun r => KeepsRegisters s r.2) (prEnc t) :=
  (sourceHere_raises h unknown).bind fun _ _ => need_raises h full <|
    (appendRes_raises h full _).bind fun _ kept => kept

theorem prDec_raises (unknown : tabled i .formatUnknownPredictor = true) (full : tabled i .capacity = true) :
    Ends (RaisedBy i s) (fun r => KeepsRegisters s r.2) (prDec t) :=
  (sourceHere_raises h unknown).bind fun _ _ => need_raises h full h.kept

end

/-- With a pixel left, the invariant gives PIX the bytes a prediction reads: all lie before `PR.pos` (44_predictor.md R172,
20_memory.md R49). -/
theorem State.Inv.reachFits {s : State} (h : s.Inv) (left : s.prPos < pixelCount s) {src : Source}
    (known : predictSource s.conf.pred s.conf.width.toNat s.prPos = some src) : fits s.caps.pixCap src.reach = true :=
  fits_mono h.passedFits (reach_le (width_pos_of_prPos_lt left) known)

/-- `PR.PREDICT` meets CAPACITY in no state of the invariant, so its table lists none (R242, log entry 5). -/
theorem prPredict_raises {s : State} (left : s.prPos < pixelCount s) :
    Ends (RaisedBy .prPredict s) (fun _ => True) (prPredict s) := by
  have h := mayRaise_start .prPredict s
  unfold prPredict sourceHere
  cases known : predictSource s.conf.pred s.conf.width.toNat s.prPos with
  | none => exact h.raised rfl
  | some src =>
    refine ends_need_bind (fun full => ⟨h, fun _ inv => ?_⟩) fun _ => trivial
    rw [inv.reachFits left known] at full
    cases full

/-! ### The composite procedures -/

section
variable {i : Instr} (s : State) (composite : isMicroOp i = false)
include composite

theorem raises_keptByEncoding (overfull : tabled i .modelInvariantViolation = true) (full : tabled i .capacity = true) :
    KeptByEncoding (RaisedBy i s) (KeepsRegisters s) where
  start _ h := h
  encode _ sym _ h := aeEncode_raises (h.mayRaise composite) overfull full sym
  update _ _ h := h
  finish _ h := aeFinish_raises (h.mayRaise composite) full

theorem raises_keptByDecoding (overfull : tabled i .modelInvariantViolation = true) (full : tabled i .capacity = true)
    (wrongLength : tabled i .lengthMismatch = true) : KeptByDecoding (RaisedBy i s) (KeepsRegisters s) where
  start _ h := h
  decode _ h := adDecode_raises (h.mayRaise composite) overfull
  update _ _ h := h
  append _ bytes h := appendRes_raises (h.mayRaise composite) full bytes
  tooLong _ h := (h.mayRaise composite).raised wrongLength

theorem raises_keptByForward (unknown : tabled i .formatUnknownPredictor = true) (full : tabled i .capacity = true) :
    KeptByForward (RaisedBy i s) (KeepsRegisters s) where
  unknown _ h := (h.mayRaise composite).raised unknown
  start _ h := h
  pixel _ h := prEnc_raises (h.mayRaise composite) unknown full

theorem raises_keptByInverse (unknown : tabled i .formatUnknownPredictor = true) (full : tabled i .capacity = true)
    (wrongLength : tabled i .lengthMismatch = true) : KeptByInverse (RaisedBy i s) (KeepsRegisters s) where
  unknown _ h := (h.mayRaise composite).raised unknown
  wrongLength _ h := (h.mayRaise composite).raised wrongLength
  start _ h := h
  pixel _ h := prDec_raises (h.mayRaise composite) unknown full

end

/-! ### The commands -/

/-- What a procedure answers, with a part of it forgotten. -/
theorem Ends.imp {α : Type} {E : Raised → Prop} {Q R : α → Prop} {p : Proc α} (h : Ends E Q p) (on : ∀ a, Q a → R a) :
    Ends E R p := by
  cases p with
  | ok a => exact on a h
  | error r => exact h

/-- If `FAULT` is set in `t`, the command `i` has taken the fault of one of its raises. -/
def FaultOnlyBy (i : Instr) (s t : State) : Prop :=
  t.flt.fault = true → ∃ r, RaisedBy i s r ∧ t = r.state.faulted r.cause.code (encode i)

theorem faultOnlyBy_of_clear {i : Instr} {s t : State} (clear : t.flt.fault = false) : FaultOnlyBy i s t := by
  intro faulted
  rw [clear] at faulted
  cases faulted

/-- A command faults for a defect, which a well-formed one has not, or by a raise of its procedure. -/
theorem command_faultOnlyBy {i : Instr} {p : State → Proc State} {s t : State} (e : command i p s = .next t)
    (clear : s.flt.fault = false) (run : Ends (RaisedBy i s) (fun u => u.flt = s.flt) (p s)) : FaultOnlyBy i s t := by
  rcases command_cases e with ⟨-, rfl⟩ | ⟨-, d, defect, rfl⟩ | ⟨-, -, answered⟩ | ⟨-, -, r, raised, rfl⟩
  · exact faultOnlyBy_of_clear clear
  · refine fun _ => ⟨⟨rejectCause d, s⟩, ⟨mayRaise_start i s, fun wf => ?_⟩, rfl⟩
    rw [wf] at defect
    cases defect
  · rw [answered] at run
    exact faultOnlyBy_of_clear (run ▸ clear)
  · rw [raised] at run
    exact fun _ => ⟨r, run, raise_clear (run.kept.flt ▸ clear) _ _⟩

/-- A command faults so too if its procedure keeps all the registers. -/
theorem command_faultOnlyBy_of_kept {i : Instr} {p : State → Proc State} {s t : State} (e : command i p s = .next t)
    (clear : s.flt.fault = false) (run : Ends (RaisedBy i s) (KeepsRegisters s) (p s)) : FaultOnlyBy i s t :=
  command_faultOnlyBy e clear (run.imp fun _ kept => kept.flt)

/-- Whatever faults the block, it is one of the command's own raises (R242, R244). -/
theorem exec_faultOnlyBy {i : Instr} {s t : State} (e : exec i s = .next t) (clear : s.flt.fault = false) :
    FaultOnlyBy i s t := by
  have h := mayRaise_start i s
  unfold exec at e
  cases i with
  | nop | csrRd => cases e; exact faultOnlyBy_of_clear clear
  | reset => cases e; exact faultOnlyBy_of_clear rfl
  | csrWr | smInit | smUpdate | aeInit | adInit | adFinished | bwInit | brInit | brGet | prInit | resClr =>
    exact command_faultOnlyBy e clear rfl
  | smRange sym => exact command_faultOnlyBy e clear ((smRange_raises h rfl _).bind fun _ _ => rfl)
  | smFind v => exact command_faultOnlyBy e clear (need_raises h rfl rfl)
  | aeEncode sym => exact command_faultOnlyBy_of_kept e clear (need_raises h rfl (aeEncode_raises h rfl rfl _))
  | aeFinish => exact command_faultOnlyBy_of_kept e clear (need_raises h rfl (aeFinish_raises h rfl))
  | adDecode =>
    exact command_faultOnlyBy e clear (need_raises h rfl ((adDecode_raises h rfl).bind fun _ kept => kept.flt))
  | bwPut | bwFinish => exact command_faultOnlyBy_of_kept e clear (commitWriter_raises h rfl _)
  | prPredict =>
    exact command_faultOnlyBy e clear <| ends_need_bind (fun _ => h.raised rfl) fun left =>
      (prPredict_raises (of_decide_eq_true left)).bind fun _ _ => rfl
  | prEnc =>
    exact command_faultOnlyBy e clear (need_raises h rfl ((prEnc_raises h rfl rfl).bind fun _ kept => kept.flt))
  | prDec =>
    exact command_faultOnlyBy e clear (need_raises h rfl ((prDec_raises h rfl rfl).bind fun _ kept => kept.flt))
  | prFwd => exact command_faultOnlyBy_of_kept e clear ((raises_keptByForward s rfl rfl rfl).prForward h.kept)
  | prInv => exact command_faultOnlyBy_of_kept e clear ((raises_keptByInverse s rfl rfl rfl rfl).prInverse h.kept)
  | resPush b => exact command_faultOnlyBy_of_kept e clear (appendRes_raises h rfl _)
  | encBytes =>
    exact command_faultOnlyBy e clear
      (((raises_keptByEncoding s rfl rfl rfl).encBytes h.kept).map fun _ kept => kept.flt)
  | decBytes limit =>
    exact command_faultOnlyBy e clear
      (((raises_keptByDecoding s rfl rfl rfl rfl).decBytes _ h.kept).map fun _ kept => kept.flt)
  | encGrid =>
    exact command_faultOnlyBy e clear
      (((raises_keptByForward s rfl rfl rfl).encGrid (raises_keptByEncoding s rfl rfl rfl) h.kept).map
        fun _ kept => kept.flt)
  | decGrid =>
    exact command_faultOnlyBy e clear
      (((raises_keptByInverse s rfl rfl rfl rfl).decGrid (raises_keptByDecoding s rfl rfl rfl rfl) h.kept).map
        fun _ kept => kept.flt)

/-- Settles O11: the table lists the cause of each raise, and the invariant, which every command keeps, admits no record
of MODEL_INVARIANT_VIOLATION. -/
theorem faultCausesAsTabled : Obligations.FaultCausesAsTabled := by
  intro i s t wf inv clear e faulted
  constructor
  · obtain ⟨r, raised, rfl⟩ := exec_faultOnlyBy e clear faulted
    exact List.contains_iff_mem.1 (raised.listed wf inv)
  · obtain ⟨-, -, -, -, ⟨-, codes⟩, -⟩ := exec_inv inv e
    intro violation
    simpa [violation] using codes faulted

/-- Settles O10: a raise leaves the registers, and in a micro-operation the whole state, as the command found them. -/
theorem faultsArePreciseAndReturnNothing : Obligations.FaultsArePreciseAndReturnNothing := by
  intro i s t clear e faulted
  obtain ⟨r, raised, rfl⟩ := exec_faultOnlyBy e clear faulted
  obtain ⟨x, conf, -⟩ := raised.kept
  exact ⟨⟨x, conf, rfl⟩, fun micro => ⟨r.cause.code, by rw [raised.precise micro]⟩⟩

/-! ## In the fault state (R245, R247) -/

section
variable {s : State} (standing : s.flt.fault = true)
include standing

/-- All commands but `NOP`, `RESET` and `CSR.RD`, which alone have the operation codes 0x00 to 0x02, are dropped. -/
theorem exec_dropped {i : Instr} (notNop : i.opcode ≠ 0x00#8) (notReset : i.opcode ≠ 0x01#8)
    (notCsrRd : i.opcode ≠ 0x02#8) : exec i s = .next s := by
  unfold exec
  cases i with
  | nop | reset | csrRd => contradiction
  | _ => exact command_dropped standing _ _

/-- A rejected word is dropped, whatever its operation code. -/
theorem issue_rejected_dropped {w : Word} {r : Reject} (h : decode w = .error r) : issue w s = .next s := by
  simp [issue, h, rejectWord, raise_standing standing]

/-- `RESET` alone touches the record. -/
theorem exec_keepsRecord {i : Instr} {t : State} (e : exec i s = .next t) (notReset : i ≠ .reset) : t.flt = s.flt := by
  cases i with
  | reset => contradiction
  | nop | csrRd => cases e; rfl
  | _ =>
    rw [exec_dropped standing (by simp [Instr.opcode]) (by simp [Instr.opcode]) (by simp [Instr.opcode])] at e
    cases e
    rfl

end

/-- Settles O7: a word that the decoder accepts is a command with the word's operation code. -/
theorem faultStateDropsWords : Obligations.FaultStateDropsWords := by
  intro s w rest next standing dropped
  rw [step_command next]
  cases decoded : decode w with
  | error r => exact issue_rejected_dropped (s := s.setHost rest) standing decoded
  | ok i =>
    obtain ⟨-, rfl⟩ := encodeOfDecodeIsIdentity w i decoded
    obtain ⟨notNop, notReset, notCsrRd⟩ := dropped.resolve_right (by simp [decoded])
    rw [opField_encode] at notNop notReset notCsrRd
    rw [issue_accepted decoded]
    exact exec_dropped (s := s.setHost rest) standing notNop notReset notCsrRd

theorem encode_reset : encode .reset = 0x0100000000000000#64 := by decide

/-- A word that selects another command, or none, is not that of `RESET`. -/
theorem ne_resetWord {w : Word} (h : decode w ≠ .ok .reset) : w ≠ 0x0100000000000000#64 := by
  rintro rfl
  rw [← encode_reset] at h
  exact h (decodeOfEncodeIsIdentity .reset rfl)

/-- Settles O8: of the things a step can do, the command `RESET` and power-on give the record its reset value, and no
other touches one that stands. -/
theorem onlyResetLeavesFaultState : Obligations.OnlyResetLeavesFaultState := by
  intro s t e standing
  rcases step_cases e with ⟨next, rfl⟩ | ⟨w, rest, i, next, decoded, e⟩ | ⟨w, rest, r, next, rejected, rfl⟩ |
    ⟨a, bytes, rest, next, -, rfl⟩ | ⟨bytes, rest, next, -, rfl⟩ | ⟨bytes, rest, next, -, rfl⟩ |
    ⟨cells, rest, next, -, rfl⟩
  · exact .inl (by simp [next])
  · by_cases reset : i = .reset
    · subst reset
      obtain ⟨-, rfl⟩ := encodeOfDecodeIsIdentity w .reset decoded
      cases e
      exact .inr ⟨rfl, .inl (by simp [next, encode_reset])⟩
    · have notWord := ne_resetWord (w := w) (by simp [decoded, reset])
      exact .inl ⟨exec_keepsRecord (s := s.setHost rest) standing e reset, by simp [next, notWord]⟩
  · have notWord := ne_resetWord (w := w) (by simp [rejected])
    rw [raise_standing (s := s.setHost rest) standing]
    exact .inl ⟨rfl, by simp [next, notWord]⟩
  · exact .inl (by simp [next])
  · exact .inl (by simp [next])
  · exact .inl (by simp [next])
  · exact .inr ⟨rfl, .inr ⟨cells, by simp [next]⟩⟩

end Sys2Proof.Machine

/-! PROOFS. Reset (70_reset_and_hazards.md R280, R282) and the end of every command (R300). -/

namespace Sys2Proof.Machine

/-! ## Every command ends (R300) -/

/-- Settles O13: a command completes, faults or is dropped, and each of these is a next state (60_exceptions.md R244,
R245); its loops are recursions on a number or a list, so its procedure answers. -/
theorem everyCommandEnds : Obligations.EveryCommandEnds := by
  intro i s
  unfold exec
  cases i with
  | nop | reset | csrRd => exact commandAlways_next _ _ s
  | _ => exact command_next _ _ s

/-! ## The reset state (R280, R282) -/

/-- Settles O15: the model is fresh and the encoder's interval full; the decoder is not primed, so nothing is asked of
it; no fault stands and the buffers are empty. -/
theorem resetHasInvariant : Obligations.ResetHasInvariant :=
  ⟨modelOk_freshCounts, encoderOk_start, nofun, Nat.one_pos, ⟨fun _ => ⟨rfl, rfl⟩, nofun⟩, wf_reset, rfl, rfl, rfl, nofun⟩

/-- Settles O16: each is the value the definition of `State.reset` gives, and its memory lists no byte. -/
theorem resetValues : Obligations.ResetValues :=
  ⟨rfl, rfl, rfl, rfl, rfl, rfl, rfl, rfl, rfl, rfl, rfl, fun _ => rfl⟩

/-! ## Power-on (R280) -/

theorem step_powerOn {s : State} {rest : List HostAction} {cells : List Host.Cell} (h : s.host = .powerOn cells :: rest) :
    step s = hostMove (cells.all fun c => fits s.caps.pixCap (c.1 + 1))
      (((State.reset.setPix (Memory.ofCells cells)).withCaps s.caps).setHost rest) := by
  simp only [step, h]
  rfl

/-- The last of the cells is written last. -/
theorem ofCells_concat (cells : List Host.Cell) (c : Host.Cell) :
    Memory.ofCells (cells ++ [c]) = (Memory.ofCells cells).write c.1 c.2 := by
  simp [Memory.ofCells]

/-- A read after cells written one after the other: the last cell of the address, found first from the end. -/
theorem read_ofCells (cells : List Host.Cell) (a : Nat) :
    (Memory.ofCells cells).read a = ((cells.reverse.find? (fun c => c.1 == a)).map Prod.snd).getD 0#8 := by
  induction cells using List.reverseRecOn with
  | nil => rfl
  | append_singleton cells c ih =>
    rw [ofCells_concat, List.reverse_concat]
    by_cases here : c.1 = a
    · subst here
      simpa using read_write_same (wf_ofCells cells) c.1 c.2
    · simpa [here, read_write_other _ _ here] using ih

/-- Settles O20: the launch contents are made into a memory cell by cell, if all of them exist. -/
theorem powerOnTakesAnyPix : Obligations.PowerOnTakesAnyPix := by
  intro s rest cells h
  refine ⟨fun fit => ?_, fun c hc full => ?_⟩
  · have made : (cells.all fun c => fits s.caps.pixCap (c.1 + 1)) = true := List.all_eq_true.2 fit
    exact ⟨Memory.ofCells cells, by rw [step_powerOn h, made, hostMove_true], wf_ofCells cells, read_ofCells cells⟩
  · have refused : (cells.all fun c => fits s.caps.pixCap (c.1 + 1)) = false :=
      List.all_eq_false.2 ⟨c, hc, by simp [full]⟩
    rw [step_powerOn h, refused, hostMove_false]

end Sys2Proof.Machine
